-- ==== Sys2Proof/Word.lean ====
section
/-! DEFINITION. The words of the machine and their plainest arithmetic (spec/00_scope.md R10, R11). -/

namespace Sys2Proof

/-- A byte: 8 bits, bit 7 the most significant (R10). -/
abbrev Byte := BitVec 8

/-- A register word: 32 bits, bit 31 the most significant (R11). -/
abbrev Word := BitVec 32

/-- A block: 16 bytes in the integer view of R11, byte 0 being bits 127..120 and byte 15 bits 7..0. -/
abbrev Block := BitVec 128

/-- A 64-bit length counter, in bits (R7, R46, R52). -/
abbrev Count := BitVec 64

end Sys2Proof
end

