-- ==== Sys2Proof/Syntax.lean ====
section
/-! DEFINITION. The commands of the block (one constructor per row of the opcode table), the host's bus operations and
the events the machine takes one at a time. -/

namespace Sys2Proof

/-- The sixteen commands of spec/30_encoding.md R94. Operands are implicit registers (R92), so no constructor has an
argument. -/
inductive Instr where
  | nop
  | keyExpand
  | aesEnc
  | ghashLoadh
  | ghashClear
  | ghashBlock
  | gcmInit
  | gcmIv
  | gcmIvFinal
  | gcmAad
  | gcmEnc
  | gcmDec
  | gcmFinal
  | cbcmacInit
  | cbcmacBlock
  | cbcmacFinal
deriving DecidableEq, Repr

/-- Every command, in the opcode table's order. -/
def Instr.all : List Instr :=
  ([.nop, .keyExpand, .aesEnc, .ghashLoadh, .ghashClear, .ghashBlock, .gcmInit, .gcmIv] : List Instr) ++
  ([.gcmIvFinal, .gcmAad, .gcmEnc, .gcmDec, .gcmFinal, .cbcmacInit, .cbcmacBlock, .cbcmacFinal] : List Instr)

/-- The width of a bus access. Only 32-bit accesses exist at the port (spec/20_memory.md R65); the others are what a
host program might try. -/
inductive AccessWidth where
  | byte
  | half
  | word
deriving DecidableEq, Repr

/-- One access of the host at a bus address (MemRead and MemWrite of spec/00_scope.md R13). -/
inductive BusOp where
  | read (width : AccessWidth) (addr : Nat)
  | write (width : AccessWidth) (addr : Nat) (data : Word)
deriving DecidableEq, Repr

/-- One atomic event of the interleaving (spec/20_memory.md R74): a bus access, the engine's turn, or an assertion of
the reset input (spec/70_reset_and_hazards.md R280). -/
inductive Event where
  | bus (op : BusOp)
  | engine
  | reset
deriving DecidableEq, Repr

/-- The direction of a host operation (spec/30_encoding.md R98). -/
inductive Dir where
  | R
  | W
deriving DecidableEq, Repr

/-- A host operation in the notation of R98, the triple (dir, off, data) that is its encoding. A read's `data` is the
word it returns, which a program need not give. -/
structure HostOp where
  dir : Dir
  off : Nat
  data : Word
deriving DecidableEq, Repr

end Sys2Proof
end

