-- ==== Sys2Proof/Decode.lean ====
section
/-! DEFINITION. The decoder of command words, total and rejecting by name, and the encoder (spec/30_encoding.md R90-R97). -/

namespace Sys2Proof

/-- Why a word is no command: both reasons are ILLEGAL_CMD to the host (spec/60_exceptions.md R252). -/
inductive DecodeError where
  /-- RSV, bits 31..8, is not 0 (R91). -/
  | reservedBits
  /-- OPC, bits 7..0, is none of the sixteen values (R94, R95). -/
  | undefinedOpcode
deriving DecidableEq, Repr

/-- OPC, bits 7..0 of a command word (R90). -/
def opcField (v : Word) : Byte := v.extractLsb' 0 8

/-- RSV, bits 31..8 of a command word (R90). -/
def rsvField (v : Word) : BitVec 24 := v.extractLsb' 8 24

/-- The opcode map, row by row (R94). -/
def opcodeMap : List (Byte × Instr) :=
  ([(0x00#8, .nop), (0x01#8, .keyExpand), (0x02#8, .aesEnc)] : List (Byte × Instr)) ++
  ([(0x10#8, .ghashLoadh), (0x11#8, .ghashClear), (0x12#8, .ghashBlock)] : List (Byte × Instr)) ++
  ([(0x20#8, .gcmInit), (0x21#8, .gcmIv), (0x22#8, .gcmIvFinal), (0x23#8, .gcmAad)] : List (Byte × Instr)) ++
  ([(0x24#8, .gcmEnc), (0x25#8, .gcmDec), (0x26#8, .gcmFinal)] : List (Byte × Instr)) ++
  ([(0x30#8, .cbcmacInit), (0x31#8, .cbcmacBlock), (0x32#8, .cbcmacFinal)] : List (Byte × Instr))

/-- The decoder: a word is a command if and only if RSV = 0 and OPC is in the map (R91). -/
def decode (v : Word) : Except DecodeError Instr :=
  if rsvField v = 0 then
    match opcodeMap.lookup (opcField v) with
    | some i => .ok i
    | none => .error .undefinedOpcode
  else .error .reservedBits

/-- OPC of each command (R94). -/
def opcode : Instr → Byte
  | .nop => 0x00
  | .keyExpand => 0x01
  | .aesEnc => 0x02
  | .ghashLoadh => 0x10
  | .ghashClear => 0x11
  | .ghashBlock => 0x12
  | .gcmInit => 0x20
  | .gcmIv => 0x21
  | .gcmIvFinal => 0x22
  | .gcmAad => 0x23
  | .gcmEnc => 0x24
  | .gcmDec => 0x25
  | .gcmFinal => 0x26
  | .cbcmacInit => 0x30
  | .cbcmacBlock => 0x31
  | .cbcmacFinal => 0x32

/-- The command word of a command: 0x000000 followed by OPC (R94). -/
def encode (i : Instr) : Word := 0#24 ++ opcode i

/-- The decoder on a row of spec/opcode_table.json: `nbits` low bits of `w`, every higher bit 0. A command is one
32-bit word (R97). -/
def decodeTableWord (nbits w : Nat) : Option Instr :=
  match decode (BitVec.ofNat 32 (w % 2 ^ nbits)) with
  | .ok i => some i
  | .error _ => none

end Sys2Proof
end

