-- ==== Sys2Proof/Config.lean ====
section
/-! DEFINITION. What the spec leaves open: the parameters BASE and LAT and the free values. None has a body, so a
claim about the machine holds whatever they are. -/

namespace Sys2Proof

/-- BASE / 0x100. BASE is an open parameter, a multiple of 0x100 (spec/00_scope.md R8, U4; log 8). -/
opaque Config.basePage : Nat

/-- BASE, the bus address of the register window (R8). -/
def Config.base : Nat := 0x100 * Config.basePage

/-- The value of the n-th read of a result register while BUSY = 1, which is unspecified: "a model draws it freely"
(spec/20_memory.md R67, U2; log 6). -/
opaque Config.freeWord : Nat → BitVec 32

/-- LAT as a host sees it: how many STATUS polls it completes while the command word (first argument) is in flight under
the round count NR (second argument). LAT is an open, finite, data-independent parameter
(spec/00_scope.md R9, spec/70_reset_and_hazards.md R292, U3; log 9). -/
opaque Config.busyPolls : BitVec 32 → Nat → Nat

/-- The forward cipher while NR = 0, where it is not defined (spec/41_aes.md R146); no state with R55 and R56 reaches
it (log 16). Its arguments are RK and the input block. -/
opaque Config.cipherWithoutKey : List (BitVec 32) → BitVec 128 → BitVec 128

end Sys2Proof
end

