-- ==== Sys2Proof/Machine/State.lean ====
section
/-! DEFINITION. The state of the block as plain data, its reset, and the reasons a step can stop
(spec/10_state.md, spec/70_reset_and_hazards.md R280). -/

namespace Sys2Proof.Machine

/-- STATUS.PHASE, the GCM engine's sequencing state (R32). Value 7 is never taken (R55, U10; log 24). -/
inductive Phase where
  | idle
  | ivOpen
  | ivClosed
  | aadOpen
  | aadClosed
  | dataOpen
  | dataClosed
deriving DecidableEq, Repr

/-- STATUS.ERRCODE (R33, R251). Values 8..15 are never produced (U10; log 24). -/
inductive ErrCode where
  | ok
  | illegalCmd
  | sequence
  | noKey
  | invalidKeyLength
  | invalidDlen
  | invalidTagLength
  | invalidNonceLength
deriving DecidableEq, Repr

/-- NR, the round count of the stored key schedule, in {0, 10, 14} (R48). -/
inductive Rounds where
  | zero
  | ten
  | fourteen
deriving DecidableEq, Repr

/-- The storage behind STATUS (R24-R33). -/
structure StatusRegs where
  /-- STATUS.BUSY (R25). -/
  busy : Bool
  /-- STATUS.DONE (R26). -/
  done : Bool
  /-- STATUS.AUTH_OK (R28). -/
  authOk : Bool
  /-- STATUS.KEY_VALID (R29). -/
  keyValid : Bool
  /-- STATUS.KEY256 (R30). -/
  key256 : Bool
  /-- STATUS.OVR (R31). -/
  ovr : Bool
  /-- STATUS.PHASE (R32). -/
  phase : Phase
  /-- STATUS.ERRCODE (R33). -/
  errcode : ErrCode
deriving DecidableEq, Repr

/-- The registers only the host writes (R35-R39, R41), and PEND, which it writes through CMD (R34, R53). -/
structure InputRegs where
  /-- PEND, the command word captured at acceptance (R53). -/
  pend : Word
  /-- KEYLEN, in bytes (R35). -/
  keylen : BitVec 6
  /-- DLEN, in bytes (R36). -/
  dlen : BitVec 5
  /-- TAGLEN, in bytes (R37). -/
  taglen : BitVec 5
  /-- KEY0..KEY7, the key bytes k[0..31] (R38). -/
  key : Vector Word 8
  /-- DIN (R39). -/
  din : Block
  /-- EXPTAG (R41). -/
  exptag : Block
deriving DecidableEq, Repr

/-- The readable registers only the engine writes (R40, R42-R46). -/
structure ResultRegs where
  /-- DOUT (R40). -/
  dout : Block
  /-- TAG (R42). -/
  tag : Block
  /-- MAC (R43). -/
  mac : Block
  /-- GHASH, the accumulator Y (R44). -/
  y : Block
  /-- CTR (R45). -/
  ctr : Block
  /-- LEN_A, in bits (R46). -/
  lenA : Count
  /-- LEN_C, in bits (R46). -/
  lenC : Count
deriving DecidableEq, Repr

/-- The hidden state, which no bus access reads (R48-R52). -/
structure HiddenRegs where
  /-- RK, the round-key words w[0..4*NR+3] (R48; log 5). -/
  rk : List Word
  /-- NR (R48). -/
  nr : Rounds
  /-- H, the hash subkey (R49). -/
  h : Block
  /-- J0, the pre-counter block (R50). -/
  j0 : Block
  /-- IVSAVE, the masked first IV block (R51). -/
  ivsave : Block
  /-- LEN_IV, in bits (R52). -/
  lenIv : Count
deriving DecidableEq, Repr

/-- The model's own fields: what surrounds the block. -/
structure Surroundings where
  /-- The events still to come, the first at the head (R74; log 1). -/
  schedule : List Event
  /-- The words the host's reads returned, newest first (R67; log 7). -/
  returned : List Word
  /-- How many unspecified reads have been drawn (U2; log 6). -/
  freeReads : Nat
deriving DecidableEq, Repr

/-- Everything the spec gives the block (R20-R54), and the model's own surroundings. -/
structure State extends StatusRegs, InputRegs, ResultRegs, HiddenRegs, Surroundings where
deriving DecidableEq, Repr

/-- The block never stops with a fault: every completion step has a successor (spec/40_control.md R118,
spec/60_exceptions.md R250), so there is no reason to list (log 22). -/
inductive Fault where
deriving DecidableEq, Repr

/-- Why the model refuses to go on. -/
inductive Refusal where
  /-- Raised by exec's arm of a command that has no meaning yet. Safe. -/
  | notModelled (mnemonic : String)
  /-- Raised by an 8-bit or 16-bit access to the window, which the port cannot express
  (spec/20_memory.md R65, U5; log 10). Safe. -/
  | subWordAccess
  /-- Raised by an access at an offset that is no multiple of 4, which the port cannot express
  (spec/20_memory.md R66, U5; log 10). Safe. -/
  | misalignedAccess
  /-- Raised by an access outside [BASE, BASE + 0x100), which is the platform's matter
  (spec/20_memory.md R61; log 10). Safe. -/
  | outsideWindow
deriving DecidableEq, Repr

/-- The state right after reset (spec/70_reset_and_hazards.md R280). RK is unspecified there: sixty zero words
(log 4). The model's own fields start empty (logs 1, 6, 7). -/
def State.reset : State where
  busy := false
  done := false
  authOk := false
  keyValid := false
  key256 := false
  ovr := false
  phase := .idle
  errcode := .ok
  pend := 0
  keylen := 16
  dlen := 16
  taglen := 16
  key := Vector.replicate 8 0
  din := 0
  dout := 0
  exptag := 0
  tag := 0
  mac := 0
  y := 0
  ctr := 0
  lenA := 0
  lenC := 0
  rk := List.replicate 60 0
  nr := .zero
  h := 0
  j0 := 0
  ivsave := 0
  lenIv := 0
  schedule := []
  returned := []
  freeReads := 0

end Sys2Proof.Machine
end

