-- ==== Sys2Proof/Machine/Operands.lean ====
section
/-! DEFINITION. Operand assembly: bytes, words and blocks (spec/20_memory.md R62), mask16 and be_n (spec/00_scope.md R12),
and the scalar operands of the commands (spec/30_encoding.md R93). -/

namespace Sys2Proof.Machine

/-- Byte `i` of a block, byte 0 the most significant (R11). -/
def byteOf (b : Block) (i : Nat) : Byte := b.extractLsb' (8 * (15 - i)) 8

/-- The block whose byte `i` is `f i` (R10, R11). -/
def ofBytes (f : Nat → Byte) : Block :=
  (List.range 16).foldl (fun acc i => (acc <<< 8) ||| (f i).setWidth 128) 0

/-- Byte `i` of a 4-byte word, byte 0 in bits 31..24 (R62). -/
def wordByte (w : Word) (i : Nat) : Byte := w.extractLsb' (8 * (3 - i)) 8

/-- The word whose byte `i` is `f i` (R62). -/
def wordOfBytes (f : Nat → Byte) : Word :=
  (List.range 4).foldl (fun acc i => (acc <<< 8) ||| (f i).setWidth 32) 0

/-- Word `i` of a 128-bit register: NAMEi holds bytes 4i..4i+3 (R62). -/
def blockWord (b : Block) (i : Nat) : Word := b.extractLsb' (32 * (3 - i)) 32

/-- The register NAME0 || NAME1 || NAME2 || NAME3 (R20, R62). -/
def blockOfWords (w0 w1 w2 w3 : Word) : Block := w0 ++ w1 ++ w2 ++ w3

/-- A 128-bit register after the host writes its word `i` (R62, R68). -/
def setBlockWord (b : Block) (i : Nat) (v : Word) : Block :=
  let w := fun j => if j = i then v else blockWord b j
  blockOfWords (w 0) (w 1) (w 2) (w 3)

/-- The bytes of a block as a byte string (R10). -/
def bytesOfBlock (b : Block) : List Byte := (List.range 16).map (byteOf b)

/-- A byte string of at most 16 bytes as a block, zero filled (R12, R100). -/
def blockOfBytes (l : List Byte) : Block := ofBytes fun i => l.getD i 0

/-- mask16(B, n): the first `n` bytes of B, the rest zero (R12). -/
def mask16 (b : Block) (n : Nat) : Block := ofBytes fun i => if i < n then byteOf b i else 0

/-- be_n(v): the n-byte big-endian encoding of `v` (R12). -/
def beBytes (n v : Nat) : List Byte := (List.range n).map fun i => BitVec.ofNat 8 (v >>> (8 * (n - 1 - i)))

/-- be_8(a) || be_8(c), the block of two 64-bit big-endian lengths (R63). -/
def lengthBlock (a c : Count) : Block := a ++ c

/-- 8·n as a 64-bit count: what a command adds to a length counter for `n` bytes (R46, R93). -/
def bitCount (n : Nat) : Count := BitVec.ofNat 64 (8 * n)

/-- DLEN as an integer (R93). -/
abbrev dataLen (s : State) : Nat := s.dlen.toNat

/-- TAGLEN as an integer (R93). -/
abbrev tagLen (s : State) : Nat := s.taglen.toNat

/-- Nk, the key length in words: KEYLEN / 4 (R7). -/
abbrev keyWordCount (s : State) : Nat := s.keylen.toNat / 4

/-- The key operand k[0..KEYLEN-1] as words k[4i..4i+3] (R38, R93). -/
def keyOperand (s : State) : List Word := s.key.toList.take (keyWordCount s)

/-- NR as a number (R48). -/
def roundCount : Rounds → Nat
  | .zero => 0
  | .ten => 10
  | .fourteen => 14

end Sys2Proof.Machine
end

