-- ==== Sys2Proof/Machine/Flags.lean ====
section
/-! DEFINITION. STATUS and its flags: the word's layout (spec/10_state.md R24), ERR (R27), the comparison behind AUTH_OK
(spec/43_gcm.md R183), and the conditions the commands check (spec/60_exceptions.md R253-R258). -/

namespace Sys2Proof.Machine

/-- The encoding of STATUS.PHASE (R32). -/
def phaseCode : Phase → BitVec 3
  | .idle => 0
  | .ivOpen => 1
  | .ivClosed => 2
  | .aadOpen => 3
  | .aadClosed => 4
  | .dataOpen => 5
  | .dataClosed => 6

/-- The encoding of STATUS.ERRCODE (R251). -/
def errCodeValue : ErrCode → BitVec 4
  | .ok => 0
  | .illegalCmd => 1
  | .sequence => 2
  | .noKey => 3
  | .invalidKeyLength => 4
  | .invalidDlen => 5
  | .invalidTagLength => 6
  | .invalidNonceLength => 7

/-- STATUS.ERR always equals (ERRCODE != 0) (R27). -/
def errFlag (s : State) : Bool := errCodeValue s.errcode != 0

/-- The STATUS word: bit 0 BUSY, 1 DONE, 2 ERR, 3 AUTH_OK, 4 KEY_VALID, 5 KEY256, 6 reserved, 7 OVR, 10..8 PHASE,
15..11 reserved, 19..16 ERRCODE, 31..20 reserved (R24). -/
def statusWord (s : State) : Word :=
  0#12 ++ errCodeValue s.errcode ++ 0#5 ++ phaseCode s.phase ++ BitVec.ofBool s.ovr ++ 0#1 ++ BitVec.ofBool s.key256 ++
    BitVec.ofBool s.keyValid ++ BitVec.ofBool s.authOk ++ BitVec.ofBool (errFlag s) ++ BitVec.ofBool s.done ++
    BitVec.ofBool s.busy

/-- ct_eq(T, E, n): all `n` byte pairs are combined and the result compared with 0 (R183). -/
def ctEq (t e : Block) (n : Nat) : Bool :=
  (List.range n).foldl (fun acc i => acc ||| (byteOf t i ^^^ byteOf e i)) 0#8 == 0#8

/-- SEQUENCE: PHASE is outside the command's allowed set (R182, R253). -/
def outOfPhase (allowed : List Phase) (s : State) : Bool := decide (s.phase ∉ allowed)

/-- NO_KEY: KEY_VALID = 0 (R254). -/
def lacksKey (s : State) : Bool := !s.keyValid

/-- INVALID_KEY_LENGTH: KEYLEN is not in (16, 32) (R255). -/
def badKeyLength (s : State) : Bool := decide (s.keylen ≠ 16 ∧ s.keylen ≠ 32)

/-- INVALID_DLEN: DLEN is not in 1..16 (R256). -/
def badDataLength (s : State) : Bool := decide (dataLen s < 1 ∨ 16 < dataLen s)

/-- INVALID_TAG_LENGTH: TAGLEN is not in 1..16 (R257). -/
def badTagLength (s : State) : Bool := decide (tagLen s < 1 ∨ 16 < tagLen s)

/-- INVALID_NONCE_LENGTH: LEN_IV = 0 (R258). -/
def emptyNonce (s : State) : Bool := decide (s.lenIv = 0)

end Sys2Proof.Machine
end

