-- ==== Sys2Proof/Machine/Ops.lean ====
section
/-! DEFINITION. The shared operations on the state: acceptance of a command (spec/40_control.md R110), its completion with
or without an error (R111-R113, spec/60_exceptions.md R250, R262), and reset (spec/70_reset_and_hazards.md R280). -/

namespace Sys2Proof.Machine

/-- Acceptance of command word `v` (R110). It also ends the previous error's lifetime, the block's only "trap return"
(R263). -/
def State.accept (v : Word) (s : State) : State :=
  { s with pend := v, busy := true, done := false, errcode := .ok, authOk := false }

/-- Completion of the command in flight with error code `c`: the block's "trap entry" (R262). Nothing but ERRCODE, BUSY
and DONE is written (R113). -/
def State.raiseError (c : ErrCode) (s : State) : State :=
  { s with errcode := c, busy := false, done := true }

/-- Completion of the command in flight without error (R111). -/
def State.succeed (s : State) : State :=
  { s with errcode := .ok, busy := false, done := true }

/-- The code of the first check that fails, in the list's order, or OK (R112, R259). -/
def firstError : List (Bool × ErrCode) → ErrCode
  | [] => .ok
  | (fails, c) :: rest => if fails then c else firstError rest

/-- The completion step of a command with these checks and this effect (R111, R112): a failed check writes no state but
STATUS (R113), otherwise the effect is applied to the state as it stands. -/
def complete (checks : List (Bool × ErrCode)) (effect : State → State) (s : State) :
    Host.Outcome State Fault Refusal :=
  if firstError checks = .ok then .next (effect s).succeed
  else .next (s.raiseError (firstError checks))

/-- The reset input: every piece of the block's state takes its reset value, whatever was in flight (R280, R281). The
model's own fields are not the block's and stay (log 17). -/
def State.applyReset (s : State) : State :=
  { State.reset with schedule := s.schedule, returned := s.returned, freeReads := s.freeReads }

end Sys2Proof.Machine
end

