-- ==== Sys2Proof/WellFormed.lean ====
section
/-! DEFINITION. Which terms are well formed. A command has no operand to check; a host operation must be a 32-bit access at
an aligned offset of the window. -/

namespace Sys2Proof

/-- Every command is well formed: its operands are implicit and are checked when it runs (spec/30_encoding.md R92,
spec/60_exceptions.md R259). -/
def Instr.wellFormed : Instr → Bool
  | .nop | .keyExpand | .aesEnc | .ghashLoadh | .ghashClear | .ghashBlock | .gcmInit | .gcmIv | .gcmIvFinal
  | .gcmAad | .gcmEnc | .gcmDec | .gcmFinal | .cbcmacInit | .cbcmacBlock | .cbcmacFinal => true

/-- A host operation's offset is a multiple of 4 below 0x100 (spec/30_encoding.md R98, spec/20_memory.md R66). -/
def HostOp.wellFormed (o : HostOp) : Bool := o.off % 4 == 0 && o.off < 0x100

/-- The width a bus access is made with. -/
def BusOp.width : BusOp → AccessWidth
  | .read w _ => w
  | .write w _ _ => w

/-- The bus address of an access. -/
def BusOp.addr : BusOp → Nat
  | .read _ a => a
  | .write _ a _ => a

/-- An access the port can express: 32 bits wide (R65), inside the window (R61), at an offset that is a multiple of 4
(R66). -/
abbrev BusOp.wellFormed (op : BusOp) : Prop :=
  op.width = .word ∧ (Config.base ≤ op.addr ∧ op.addr < Config.base + 0x100) ∧ (op.addr - Config.base) % 4 = 0

/-- An event is well formed when its bus access, if it is one, is. -/
abbrev Event.wellFormed : Event → Prop
  | .bus op => op.wellFormed
  | .engine => True
  | .reset => True

/-- The bus access a host operation stands for, at BASE + off (R98, R99). -/
def HostOp.toBusOp (o : HostOp) : BusOp :=
  match o.dir with
  | .R => .read .word (Config.base + o.off)
  | .W => .write .word (Config.base + o.off) o.data

end Sys2Proof
end

