-- ==== Sys2Proof/Machine/Bus.lean ====
section
/-! DEFINITION. The register window on the host bus: its map (spec/10_state.md R20), what a read returns
(spec/20_memory.md R67) and what a write does (R68, R69). -/

namespace Sys2Proof.Machine

/-- The registers of the window (R20). A number is the index of the register's 32-bit word. -/
inductive Reg where
  | id
  | status
  | cmd
  | keylen
  | dlen
  | taglen
  | key (i : Fin 8)
  | din (i : Fin 4)
  | dout (i : Fin 4)
  | exptag (i : Fin 4)
  | tag (i : Fin 4)
  | mac (i : Fin 4)
  | ghash (i : Fin 4)
  | ctr (i : Fin 4)
  | lenaHi
  | lenaLo
  | lencHi
  | lencLo
  | reserved
deriving DecidableEq, Repr

/-- The offsets of R20, row by row. Every other offset of the window is reserved (R47). -/
def regMap : List (Nat × Reg) :=
  ([(0x000, .id), (0x004, .status), (0x008, .cmd), (0x00C, .keylen), (0x010, .dlen), (0x014, .taglen)] : List (Nat × Reg)) ++
  ([(0x020, .key 0), (0x024, .key 1), (0x028, .key 2), (0x02C, .key 3)] : List (Nat × Reg)) ++
  ([(0x030, .key 4), (0x034, .key 5), (0x038, .key 6), (0x03C, .key 7)] : List (Nat × Reg)) ++
  ([(0x040, .din 0), (0x044, .din 1), (0x048, .din 2), (0x04C, .din 3)] : List (Nat × Reg)) ++
  ([(0x050, .dout 0), (0x054, .dout 1), (0x058, .dout 2), (0x05C, .dout 3)] : List (Nat × Reg)) ++
  ([(0x060, .exptag 0), (0x064, .exptag 1), (0x068, .exptag 2), (0x06C, .exptag 3)] : List (Nat × Reg)) ++
  ([(0x070, .tag 0), (0x074, .tag 1), (0x078, .tag 2), (0x07C, .tag 3)] : List (Nat × Reg)) ++
  ([(0x080, .mac 0), (0x084, .mac 1), (0x088, .mac 2), (0x08C, .mac 3)] : List (Nat × Reg)) ++
  ([(0x090, .ghash 0), (0x094, .ghash 1), (0x098, .ghash 2), (0x09C, .ghash 3)] : List (Nat × Reg)) ++
  ([(0x0A0, .ctr 0), (0x0A4, .ctr 1), (0x0A8, .ctr 2), (0x0AC, .ctr 3)] : List (Nat × Reg)) ++
  ([(0x0B0, .lenaHi), (0x0B4, .lenaLo), (0x0B8, .lencHi), (0x0BC, .lencLo)] : List (Nat × Reg))

/-- The register at an offset of the window (R20, R47, R61). -/
def regAt (off : Nat) : Reg := (regMap.lookup off).getD .reserved

/-- The constant ID, the ASCII bytes "AEAD" (R23). -/
def idValue : Word := 0x41454144

/-- Bits 63..32 of a length counter (R46). -/
def countHi (c : Count) : Word := c.extractLsb' 32 32

/-- Bits 31..0 of a length counter (R46). -/
def countLo (c : Count) : Word := c.extractLsb' 0 32

/-- The current value of a register as a bus read shows it; write-only and reserved offsets read 0 (R20, R67). -/
def regValue (s : State) : Reg → Word
  | .id => idValue
  | .status => statusWord s
  | .cmd => 0
  | .keylen => s.keylen.setWidth 32
  | .dlen => s.dlen.setWidth 32
  | .taglen => s.taglen.setWidth 32
  | .key _ => 0
  | .din i => blockWord s.din i
  | .dout i => blockWord s.dout i
  | .exptag i => blockWord s.exptag i
  | .tag i => blockWord s.tag i
  | .mac i => blockWord s.mac i
  | .ghash i => blockWord s.y i
  | .ctr i => blockWord s.ctr i
  | .lenaHi => countHi s.lenA
  | .lenaLo => countLo s.lenA
  | .lencHi => countHi s.lenC
  | .lencLo => countLo s.lenC
  | .reserved => 0

/-- The result registers, whose reads are unspecified while BUSY = 1 (R67, R286). -/
def isResult : Reg → Bool
  | .dout _ | .tag _ | .mac _ | .ghash _ | .ctr _ | .lenaHi | .lenaLo | .lencHi | .lencLo => true
  | .id | .status | .cmd | .keylen | .dlen | .taglen | .key _ | .din _ | .exptag _ | .reserved => false

/-- Whether a read of this register is unspecified now (R67, U2). -/
def readIsFree (s : State) (r : Reg) : Bool := s.busy && isResult r

/-- The word a bus read of register `r` returns (R67). -/
def readWord (s : State) (r : Reg) : Word :=
  if readIsFree s r then Config.freeWord s.freeReads else regValue s r

/-- A bus read of register `r`: the block's state does not change (R67, R71); the word goes to the host, and a drawn
value uses up its number (logs 6, 7). -/
def busRead (r : Reg) (s : State) : State :=
  { s with
    returned := readWord s r :: s.returned
    freeReads := if readIsFree s r then s.freeReads + 1 else s.freeReads }

/-- A write to STATUS clears OVR if bit 7 is 1, at any time, and does nothing else (R31, R68, R69). -/
def writeStatus (v : Word) (s : State) : State :=
  if v.getLsbD 7 then { s with ovr := false } else s

/-- A bus write while BUSY = 0 (R68). Read-only and reserved offsets ignore it (R47). -/
def writeIdle (r : Reg) (v : Word) (s : State) : State :=
  match r with
  | .status => writeStatus v s
  | .cmd => s.accept v
  | .keylen => { s with keylen := v.extractLsb' 0 6 }
  | .dlen => { s with dlen := v.extractLsb' 0 5 }
  | .taglen => { s with taglen := v.extractLsb' 0 5 }
  | .key i => { s with key := s.key.set i v }
  | .din i => { s with din := setBlockWord s.din i v }
  | .exptag i => { s with exptag := setBlockWord s.exptag i v }
  | .id | .dout _ | .tag _ | .mac _ | .ghash _ | .ctr _ | .lenaHi | .lenaLo | .lencHi | .lencLo | .reserved => s

/-- A bus write while BUSY = 1: to STATUS as ever, to any other offset it is dropped and sets OVR (R69). -/
def writeBusy (r : Reg) (v : Word) (s : State) : State :=
  match r with
  | .status => writeStatus v s
  | .id | .cmd | .keylen | .dlen | .taglen | .key _ | .din _ | .dout _ | .exptag _ | .tag _ | .mac _ | .ghash _
  | .ctr _ | .lenaHi | .lenaLo | .lencHi | .lencLo | .reserved => { s with ovr := true }

/-- A bus write of `v` to register `r` (R68, R69). -/
def busWrite (r : Reg) (v : Word) (s : State) : State :=
  if s.busy then writeBusy r v s else writeIdle r v s

/-- The offset an access addresses, or why the port cannot express it: outside the window (R61), not 32 bits wide (R65),
or misaligned (R66). U5: the model refuses it (log 10). -/
def accessOffset (width : AccessWidth) (addr : Nat) : Except Refusal Nat :=
  if Config.base ≤ addr ∧ addr < Config.base + 0x100 then
    if width = .word then
      if (addr - Config.base) % 4 = 0 then .ok (addr - Config.base) else .error .misalignedAccess
    else .error .subWordAccess
  else .error .outsideWindow

/-- One bus access (R74): wholly before or after every other event. -/
def busAccess (op : BusOp) (s : State) : Host.Outcome State Fault Refusal :=
  match op with
  | .read width addr =>
    match accessOffset width addr with
    | .ok off => .next (busRead (regAt off) s)
    | .error r => .refused r
  | .write width addr v =>
    match accessOffset width addr with
    | .ok off => .next (busWrite (regAt off) v s)
    | .error r => .refused r

end Sys2Proof.Machine
end

