-- ==== Sys2Proof/Machine/Aes.lean ====
section
/-! DEFINITION. The AES forward cipher with its key expansion, and the commands KEY_EXPAND and AES_ENC
(spec/41_aes.md). -/

namespace Sys2Proof.Machine

/-- Multiplication by x in GF(2^8) (R131). -/
def xtime (b : Byte) : Byte := if b.getLsbD 7 then (b <<< 1) ^^^ 0x1B#8 else b <<< 1

/-- xtime applied `i` times. -/
def xtimes : Nat → Byte → Byte
  | 0, b => b
  | i + 1, b => xtimes i (xtime b)

/-- Multiplication in GF(2^8): the xor of xtime^i(a) over the bits i of b (R130, R132). -/
def gf8Mul (a b : Byte) : Byte :=
  (List.range 8).foldl (fun acc i => if b.getLsbD i then acc ^^^ xtimes i a else acc) 0#8

/-- The inverse in GF(2^8), 0 for 0 (R132), computed as a^254 (log 26). -/
def gf8Inv (a : Byte) : Byte :=
  let a2 := gf8Mul a a
  let a4 := gf8Mul a2 a2
  let a8 := gf8Mul a4 a4
  let a16 := gf8Mul a8 a8
  let a32 := gf8Mul a16 a16
  let a64 := gf8Mul a32 a32
  let a128 := gf8Mul a64 a64
  gf8Mul a128 (gf8Mul a64 (gf8Mul a32 (gf8Mul a16 (gf8Mul a8 (gf8Mul a4 a2)))))

/-- The affine map of the S-box: bit i is b[i] xor b[i+4] xor b[i+5] xor b[i+6] xor b[i+7] xor c[i], indices mod 8,
c = 0x63 (R133). -/
def sboxAffine (b : Byte) : Byte :=
  b ^^^ b.rotateRight 4 ^^^ b.rotateRight 5 ^^^ b.rotateRight 6 ^^^ b.rotateRight 7 ^^^ 0x63#8

/-- The SBOX table, one 16-byte row for each high nibble of the index (R134). -/
def sboxRows : List Block :=
  [0x637c777bf26b6fc53001672bfed7ab76#128, 0xca82c97dfa5947f0add4a2af9ca472c0#128,
   0xb7fd9326363ff7cc34a5e5f171d83115#128, 0x04c723c31896059a071280e2eb27b275#128] ++
  [0x09832c1a1b6e5aa0523bd6b329e32f84#128, 0x53d100ed20fcb15b6acbbe394a4c58cf#128,
   0xd0efaafb434d338545f9027f503c9fa8#128, 0x51a3408f929d38f5bcb6da2110fff3d2#128] ++
  [0xcd0c13ec5f974417c4a77e3d645d1973#128, 0x60814fdc222a908846eeb814de5e0bdb#128,
   0xe0323a0a4906245cc2d3ac629195e479#128, 0xe7c8376d8dd54ea96c56f4ea657aae08#128] ++
  [0xba78252e1ca6b4c6e8dd741f4bbd8b8a#128, 0x703eb5664803f60e613557b986c11d9e#128,
   0xe1f8981169d98e949b1e87e9ce5528df#128, 0x8ca1890dbfe6426841992d0fb054bb16#128]

/-- SBOX[x]: row = high nibble of x, column = low nibble (R134). -/
def sbox (x : Byte) : Byte := byteOf (sboxRows.getD (x.toNat / 16) 0) (x.toNat % 16)

/-- s[r, c] of the AES state: byte r + 4c of the block (R135). -/
def cell (b : Block) (r c : Nat) : Byte := byteOf b (r + 4 * c)

/-- The block whose state array is `f` (R135, R145). -/
def ofCells (f : Nat → Nat → Byte) : Block := ofBytes fun i => f (i % 4) (i / 4)

/-- SubBytes (R136). -/
def subBytes (b : Block) : Block := ofCells fun r c => sbox (cell b r c)

/-- ShiftRows: row r rotates left by r positions (R137). -/
def shiftRows (b : Block) : Block := ofCells fun r c => cell b r ((c + r) % 4)

/-- MixColumns: in column c, a_r' = 02·a_r + 03·a_(r+1) + a_(r+2) + a_(r+3), rows mod 4 (R138). -/
def mixColumns (b : Block) : Block := ofCells fun r c =>
  let a := fun k => cell b ((r + k) % 4) c
  xtime (a 0) ^^^ (xtime (a 1) ^^^ a 1) ^^^ a 2 ^^^ a 3

/-- Round-key word w[j] of the store (R48); a word the store does not hold reads 0 (log 21). -/
def rkWord (w : List Word) (j : Nat) : Word := w.getD j 0

/-- AddRoundKey for round `rnd`: s[r, c] xor w[4·rnd + c][r] (R139). -/
def addRoundKey (w : List Word) (rnd : Nat) (b : Block) : Block :=
  ofCells fun r c => cell b r c ^^^ wordByte (rkWord w (4 * rnd + c)) r

/-- One full round (R146). -/
def aesRound (w : List Word) (b : Block) (rnd : Nat) : Block :=
  addRoundKey w rnd (mixColumns (shiftRows (subBytes b)))

/-- The forward cipher with `nr` rounds: round key 0, rounds 1..nr-1, and a last round without MixColumns (R146). -/
def aesRounds (w : List Word) (nr : Nat) (b : Block) : Block :=
  addRoundKey w nr (shiftRows (subBytes ((List.range' 1 (nr - 1)).foldl (aesRound w) (addRoundKey w 0 b))))

/-- The forward cipher under a schedule; with NR = 0 it is not defined and its value is free (R146; log 16). -/
def aesCipher (w : List Word) : Rounds → Block → Block
  | .zero => Config.cipherWithoutKey w
  | .ten => aesRounds w 10
  | .fourteen => aesRounds w 14

/-- AES(B) of R13 and R146: the forward cipher under the block's current round keys. -/
def aes (s : State) (b : Block) : Block := aesCipher s.rk s.nr b

/-- RotWord (R140). -/
def rotWord (w : Word) : Word := wordOfBytes fun i => wordByte w ((i + 1) % 4)

/-- SubWord (R141). -/
def subWord (w : Word) : Word := wordOfBytes fun i => sbox (wordByte w i)

/-- RCON[1..10] (R142). -/
def rconBytes : List Byte := [0x01, 0x02, 0x04, 0x08, 0x10] ++ [0x20, 0x40, 0x80, 0x1b, 0x36]

/-- Rcon[j] = [RCON[j], 00, 00, 00] (R142). -/
def rcon (j : Nat) : Word := rconBytes.getD (j - 1) 0 ++ 0#24

/-- Word w[i] of the key expansion, i >= Nk, from the words before it (R143). -/
def nextKeyWord (nk : Nat) (w : List Word) (i : Nat) : Word :=
  let prev := rkWord w (i - 1)
  let temp :=
    if i % nk = 0 then subWord (rotWord prev) ^^^ rcon (i / nk)
    else if nk = 8 ∧ i % nk = 4 then subWord prev
    else prev
  rkWord w (i - nk) ^^^ temp

/-- KeyExpansion of a key of `nk` words: the words w[0..4·(Nr+1)-1] with Nr = nk + 6 (R143). -/
def expandKey (nk : Nat) (key : List Word) : List Word :=
  (List.range' nk (4 * (nk + 7) - nk)).foldl (fun w i => w ++ [nextKeyWord nk w i]) (key.take nk)

/-- The effect of KEY_EXPAND (R144, R147). -/
def keyExpandEffect (s : State) : State :=
  { s with
    rk := expandKey (keyWordCount s) (keyOperand s)
    nr := if s.keylen = 32 then .fourteen else .ten
    keyValid := true
    key256 := decide (s.keylen = 32)
    phase := .idle }

/-- KEY_EXPAND (R147). -/
def execKeyExpand (s : State) : Host.Outcome State Fault Refusal :=
  complete [(badKeyLength s, .invalidKeyLength)] keyExpandEffect s

/-- The effect of AES_ENC (R148). -/
def aesEncEffect (s : State) : State := { s with dout := aes s s.din }

/-- AES_ENC (R148). -/
def execAesEnc (s : State) : Host.Outcome State Fault Refusal :=
  complete [(lacksKey s, .noKey)] aesEncEffect s

end Sys2Proof.Machine
end

