-- ==== Sys2Proof/Machine/CbcMac.lean ====
section
/-! DEFINITION. The CBC-MAC engine and its three commands (spec/44_cbcmac.md). -/

namespace Sys2Proof.Machine

/-- CBCMAC over a sequence of blocks under the cipher `e` (R210). -/
def cbcMac (e : Block → Block) (xs : List Block) : Block := xs.foldl (fun m x => e (m ^^^ x)) 0

/-- The effect of CBCMAC_INIT (R211). -/
def cbcmacInitEffect (s : State) : State := { s with mac := 0 }

/-- CBCMAC_INIT (R211). -/
def execCbcmacInit (s : State) : Host.Outcome State Fault Refusal := complete [] cbcmacInitEffect s

/-- The effect of CBCMAC_BLOCK (R212). -/
def cbcmacBlockEffect (s : State) : State := { s with mac := aes s (s.mac ^^^ s.din) }

/-- CBCMAC_BLOCK (R212). -/
def execCbcmacBlock (s : State) : Host.Outcome State Fault Refusal :=
  complete [(lacksKey s, .noKey)] cbcmacBlockEffect s

/-- The effect of CBCMAC_FINAL (R213). -/
def cbcmacFinalEffect (s : State) : State :=
  let tag := s.mac ^^^ s.din
  { s with tag := tag, authOk := ctEq tag s.exptag (tagLen s) }

/-- CBCMAC_FINAL (R213). -/
def execCbcmacFinal (s : State) : Host.Outcome State Fault Refusal :=
  complete [(badTagLength s, .invalidTagLength)] cbcmacFinalEffect s

end Sys2Proof.Machine
end

