-- ==== Sys2Proof/Machine/Control.lean ====
section
/-! DEFINITION. The control family: NOP (spec/40_control.md R114). -/

namespace Sys2Proof.Machine

/-- NOP: no checks and no effect beyond completion (R114). -/
def execNop (s : State) : Host.Outcome State Fault Refusal := complete [] id s

end Sys2Proof.Machine
end

