-- ==== Sys2Proof/Machine/Ghash.lean ====
section
/-! DEFINITION. The GF(2^128) multiplier, the GHASH function and the commands GHASH_LOADH, GHASH_CLEAR, GHASH_BLOCK
(spec/42_ghash.md). -/

namespace Sys2Proof.Machine

/-- The reduction constant R = 0xE1 || 0^120 (R161). -/
def ghashR : Block := 0xe1000000000000000000000000000000#128

/-- The product with α: shift right by one, and reduce the coefficient that falls off (R162). -/
def mulAlpha (v : Block) : Block := if v.getLsbD 0 then (v >>> 1) ^^^ ghashR else v >>> 1

/-- One iteration of the multiplier's loop on (Z, V): bit x_i of X is X[127 - i] (R162). -/
def gmulStep (x : Block) (zv : Block × Block) (i : Nat) : Block × Block :=
  (if x.getLsbD (127 - i) then zv.1 ^^^ zv.2 else zv.1, mulAlpha zv.2)

/-- gmul(X, Y): all 128 iterations, whatever the data (R162). -/
def gmul (x y : Block) : Block := ((List.range 128).foldl (gmulStep x) (0, y)).1

/-- GHASH_H over a sequence of blocks (R164). -/
def ghash (h : Block) (xs : List Block) : Block := xs.foldl (fun y x => gmul (y ^^^ x) h) 0

/-- The effect of GHASH_LOADH (R165). -/
def ghashLoadhEffect (s : State) : State := { s with h := s.din }

/-- GHASH_LOADH (R165). -/
def execGhashLoadh (s : State) : Host.Outcome State Fault Refusal :=
  complete [(outOfPhase [.idle] s, .sequence)] ghashLoadhEffect s

/-- The effect of GHASH_CLEAR (R166). -/
def ghashClearEffect (s : State) : State := { s with y := 0 }

/-- GHASH_CLEAR (R166). -/
def execGhashClear (s : State) : Host.Outcome State Fault Refusal :=
  complete [(outOfPhase [.idle] s, .sequence)] ghashClearEffect s

/-- The effect of GHASH_BLOCK (R167). -/
def ghashBlockEffect (s : State) : State := { s with y := gmul (s.y ^^^ s.din) s.h }

/-- GHASH_BLOCK (R167). -/
def execGhashBlock (s : State) : Host.Outcome State Fault Refusal :=
  complete [(outOfPhase [.idle] s, .sequence)] ghashBlockEffect s

end Sys2Proof.Machine
end

