-- ==== Sys2Proof/Machine/Gcm.lean ====
section
/-! DEFINITION. The GCM mode engine and its seven commands (spec/43_gcm.md). -/

namespace Sys2Proof.Machine

/-- inc32: bytes 12..15, read big-endian, plus 1 modulo 2^32; bytes 0..11 never change (R181). -/
def inc32 (cb : Block) : Block := cb.extractLsb' 32 96 ++ (cb.extractLsb' 0 32 + 1#32)

/-- J0 of a 96-bit IV: its 12 bytes || 00 00 00 01 (R180, R186). -/
def j0Of96 (iv : Block) : Block := iv.extractLsb' 32 96 ++ 1#32

/-- The section of PHASE after a chunk of `n` bytes: a short chunk closes it (R182). -/
def phaseAfter (n : Nat) (opened closed : Phase) : Phase := if n = 16 then opened else closed

/-- The effect of GCM_INIT (R184). -/
def gcmInitEffect (s : State) : State :=
  { s with
    h := aes s 0, y := 0, lenA := 0, lenC := 0, lenIv := 0, ivsave := 0, j0 := 0, ctr := 0, phase := .ivOpen }

/-- GCM_INIT (R184). -/
def execGcmInit (s : State) : Host.Outcome State Fault Refusal :=
  complete [(lacksKey s, .noKey)] gcmInitEffect s

/-- The effect of GCM_IV (R185). -/
def gcmIvEffect (s : State) : State :=
  let n := dataLen s
  let b := mask16 s.din n
  { s with
    ivsave := if s.lenIv = 0 then b else s.ivsave
    y := gmul (s.y ^^^ b) s.h
    lenIv := s.lenIv + bitCount n
    phase := if n < 16 then .ivClosed else s.phase }

/-- GCM_IV (R185). -/
def execGcmIv (s : State) : Host.Outcome State Fault Refusal :=
  complete [(outOfPhase [.ivOpen] s, .sequence), (badDataLength s, .invalidDlen)] gcmIvEffect s

/-- The effect of GCM_IV_FINAL (R186). -/
def gcmIvFinalEffect (s : State) : State :=
  let j := if s.lenIv = 96 then j0Of96 s.ivsave else gmul (s.y ^^^ lengthBlock 0 s.lenIv) s.h
  { s with j0 := j, y := 0, ctr := j, phase := .aadOpen }

/-- GCM_IV_FINAL (R186). -/
def execGcmIvFinal (s : State) : Host.Outcome State Fault Refusal :=
  complete [(outOfPhase [.ivOpen, .ivClosed] s, .sequence), (emptyNonce s, .invalidNonceLength)] gcmIvFinalEffect s

/-- The effect of GCM_AAD (R187). -/
def gcmAadEffect (s : State) : State :=
  let n := dataLen s
  { s with
    y := gmul (s.y ^^^ mask16 s.din n) s.h
    lenA := s.lenA + bitCount n
    phase := if n < 16 then .aadClosed else s.phase }

/-- GCM_AAD (R187). -/
def execGcmAad (s : State) : Host.Outcome State Fault Refusal :=
  complete [(outOfPhase [.aadOpen] s, .sequence), (badDataLength s, .invalidDlen)] gcmAadEffect s

/-- The effect of GCM_ENC (R188): GHASH takes the ciphertext, which is the output. -/
def gcmEncEffect (s : State) : State :=
  let n := dataLen s
  let ctr := inc32 s.ctr
  let c := mask16 (s.din ^^^ aes s ctr) n
  { s with
    ctr := ctr
    dout := c
    y := gmul (s.y ^^^ c) s.h
    lenC := s.lenC + bitCount n
    phase := phaseAfter n .dataOpen .dataClosed }

/-- GCM_ENC (R188). -/
def execGcmEnc (s : State) : Host.Outcome State Fault Refusal :=
  complete [(outOfPhase [.aadOpen, .aadClosed, .dataOpen] s, .sequence), (badDataLength s, .invalidDlen)] gcmEncEffect s

/-- The effect of GCM_DEC (R189): GHASH takes the ciphertext, which is the input. -/
def gcmDecEffect (s : State) : State :=
  let n := dataLen s
  let ctr := inc32 s.ctr
  let c := mask16 s.din n
  { s with
    ctr := ctr
    dout := mask16 (s.din ^^^ aes s ctr) n
    y := gmul (s.y ^^^ c) s.h
    lenC := s.lenC + bitCount n
    phase := phaseAfter n .dataOpen .dataClosed }

/-- GCM_DEC (R189). -/
def execGcmDec (s : State) : Host.Outcome State Fault Refusal :=
  complete [(outOfPhase [.aadOpen, .aadClosed, .dataOpen] s, .sequence), (badDataLength s, .invalidDlen)] gcmDecEffect s

/-- The effect of GCM_FINAL (R190). -/
def gcmFinalEffect (s : State) : State :=
  let hash := gmul (s.y ^^^ lengthBlock s.lenA s.lenC) s.h
  let tag := aes s s.j0 ^^^ hash
  { s with y := hash, tag := tag, authOk := ctEq tag s.exptag (tagLen s), phase := .idle }

/-- GCM_FINAL (R190). -/
def execGcmFinal (s : State) : Host.Outcome State Fault Refusal :=
  complete
    [(outOfPhase [.aadOpen, .aadClosed, .dataOpen, .dataClosed] s, .sequence), (badTagLength s, .invalidTagLength)]
    gcmFinalEffect s

end Sys2Proof.Machine
end

