-- ==== Sys2Proof/Machine/Dispatch.lean ====
section
/-! DEFINITION. One arm per command: the completion step of command `i` (spec/40_control.md R111, R112). -/

namespace Sys2Proof.Machine

def exec (i : Instr) (s : State) : Host.Outcome State Fault Refusal :=
  match i with
  | .nop => Sys2Proof.Machine.execNop s
  | .keyExpand => Sys2Proof.Machine.execKeyExpand s
  | .aesEnc => Sys2Proof.Machine.execAesEnc s
  | .ghashLoadh => Sys2Proof.Machine.execGhashLoadh s
  | .ghashClear => Sys2Proof.Machine.execGhashClear s
  | .ghashBlock => Sys2Proof.Machine.execGhashBlock s
  | .gcmInit => Sys2Proof.Machine.execGcmInit s
  | .gcmIv => Sys2Proof.Machine.execGcmIv s
  | .gcmIvFinal => Sys2Proof.Machine.execGcmIvFinal s
  | .gcmAad => Sys2Proof.Machine.execGcmAad s
  | .gcmEnc => Sys2Proof.Machine.execGcmEnc s
  | .gcmDec => Sys2Proof.Machine.execGcmDec s
  | .gcmFinal => Sys2Proof.Machine.execGcmFinal s
  | .cbcmacInit => Sys2Proof.Machine.execCbcmacInit s
  | .cbcmacBlock => Sys2Proof.Machine.execCbcmacBlock s
  | .cbcmacFinal => Sys2Proof.Machine.execCbcmacFinal s

end Sys2Proof.Machine
end

