-- ==== Sys2Proof/Machine/Engine.lean ====
section
/-! DEFINITION. The engine's step and the meaning of one event of the interleaving (spec/40_control.md R111, R112). -/

namespace Sys2Proof.Machine

/-- Exec(PEND) with the writes of completion: a word that is no command completes with ILLEGAL_CMD (R112, R252). -/
def execPending (s : State) : Host.Outcome State Fault Refusal :=
  match decode s.pend with
  | .ok i => exec i s
  | .error _ => .next (s.raiseError .illegalCmd)

/-- The engine's turn: the completion step if BUSY = 1, and nothing otherwise (R111, R283; log 2). -/
def engineTurn (s : State) : Host.Outcome State Fault Refusal :=
  if s.busy then execPending s else .next s

/-- The meaning of one event (R74; log 1). -/
def applyEvent (e : Event) (s : State) : Host.Outcome State Fault Refusal :=
  match e with
  | .bus op => busAccess op s
  | .engine => engineTurn s
  | .reset => .next s.applyReset

/-- The block with command word `v` just accepted and the engine's turn next (R110): the least that makes the next step
run `v`. -/
def placeCommand (v : Word) (s : State) : State :=
  { s.accept v with schedule := .engine :: s.schedule }

end Sys2Proof.Machine
end

