-- ==== Sys2Proof/Machine/Step.lean ====
section
/-! DEFINITION. One step of the machine: the next event of the schedule, or the engine's turn when none is left. -/

namespace Sys2Proof.Machine

/-- One atomic event (spec/20_memory.md R74, spec/40_control.md R111; logs 1, 2). With no event left the host is silent, and
the engine, being weakly fair, takes its turn. -/
def step (s : State) : Host.Outcome State Fault Refusal :=
  match s.schedule with
  | [] => engineTurn s
  | e :: rest => applyEvent e { s with schedule := rest }

/-- `s` with the command word accepted (BUSY = 1, PEND = the word) and the engine's turn next, so that the next step runs
it (R110, R111; log 3). Bits at and above `nbits` are 0. -/
def State.withFetchWord (s : State) (nbits w : Nat) : State :=
  placeCommand (BitVec.ofNat 32 (w % 2 ^ nbits)) s

end Sys2Proof.Machine
end

