-- ==== Sys2Proof/Machine/HostProgram.lean ====
section
/-! DEFINITION. Host programs as programs over the machine's own step: bus operations and the pseudo-instructions WAIT, CMD,
WR128, RD128, WRKEY and CHECK (spec/30_encoding.md R98-R100). -/

namespace Sys2Proof.Machine

/-- The facade's validation errors (spec/45_host_ccm_facade.md R226). -/
inductive FacadeError where
  | invalidKeyLength
  | invalidNonceLength
  | invalidTagLength
  | messageTooLong
  /-- The AAD bound of R231, for which the spec gives no name (log 18). -/
  | aadTooLong
deriving DecidableEq, Repr

/-- Why a host program ends early, and the machine's state then. -/
inductive HostStop where
  /-- The facade refused its inputs (R226). -/
  | rejected (e : FacadeError) (s : State)
  /-- CHECK read this STATUS with ERR = 1 (R100). -/
  | commandError (status : Word) (s : State)
  /-- The machine refused the bus access. -/
  | accessRefused (s : State)
deriving DecidableEq, Repr

/-- A host program: it acts on the machine's state, returns a value, and may stop early. -/
abbrev HostM (α : Type) := StateT State (Except HostStop) α

/-- The machine takes event `e` now: one `step` with `e` put in front of the schedule. -/
def hostEvent (e : Event) : HostM Unit := fun s =>
  match step { s with schedule := e :: s.schedule } with
  | .next t => .ok ((), t)
  | .fault _ => .error (.accessRefused s)
  | .refused _ => .error (.accessRefused s)

/-- The program ends here, for the reason `why` gives of the state. -/
def stopWith (why : State → HostStop) : HostM Unit := fun s => .error (why s)

/-- WR off, v (R99). -/
def wr (off : Nat) (v : Word) : HostM Unit := hostEvent (.bus (HostOp.toBusOp ⟨.W, off, v⟩))

/-- RD off: the word the bus returns (R99). -/
def rd (off : Nat) : HostM Word := do
  hostEvent (.bus (HostOp.toBusOp ⟨.R, off, 0⟩))
  return (← get).returned.headD 0

/-- WAIT: read STATUS until BUSY = 0. The engine's completion comes after at most `polls` reads (R100, R292; log 9). -/
def waitLoop : Nat → HostM Word
  | 0 => do
    hostEvent .engine
    rd 0x004
  | polls + 1 => do
    let v ← rd 0x004
    if v.getLsbD 0 then waitLoop polls else return v

/-- WAIT, with the latency the open parameter LAT gives the command in flight (R9, R100). -/
def wait : HostM Word := do
  let s ← get
  waitLoop (Config.busyPolls s.pend (roundCount s.nr))

/-- CMD i: write the command word, then WAIT (R100). -/
def cmd (i : Instr) : HostM Unit := do
  wr 0x008 (encode i)
  let _ ← wait

/-- CHECK i: CMD i, then stop if STATUS.ERR = 1 (R100). -/
def check (i : Instr) : HostM Unit := do
  cmd i
  let v ← rd 0x004
  if v.getLsbD 2 then stopWith (.commandError v)

/-- WR128: the four words of a block, packed by R62 (R100). -/
def wr128 (off : Nat) (b : Block) : HostM Unit := do
  wr off (blockWord b 0)
  wr (off + 4) (blockWord b 1)
  wr (off + 8) (blockWord b 2)
  wr (off + 12) (blockWord b 3)

/-- RD128: four words read back as one block (R100). -/
def rd128 (off : Nat) : HostM Block := do
  let w0 ← rd off
  let w1 ← rd (off + 4)
  let w2 ← rd (off + 8)
  let w3 ← rd (off + 12)
  return blockOfWords w0 w1 w2 w3

/-- The key words KEY0..KEY(n-1) of a key zero-padded to 32 bytes, written from the lowest offset on. -/
def writeKeyWords (key : List Byte) : Nat → HostM Unit
  | 0 => pure ()
  | n + 1 => do
    writeKeyWords key n
    wr (0x020 + 4 * n) (wordOfBytes fun r => key.getD (4 * n + r) 0)

/-- WRKEY: KEY0..KEY7, then KEYLEN (R100). -/
def wrKey (key : List Byte) : HostM Unit := do
  writeKeyWords key 8
  wr 0x00C (BitVec.ofNat 32 key.length)

/-- A host operation of a straight-line program (R98). -/
def hostOp (o : HostOp) : HostM Unit := hostEvent (.bus o.toBusOp)

/-- The facade stops with error `e` unless `ok`, in the state it was called in (R226). -/
def require (ok : Bool) (e : FacadeError) : HostM Unit :=
  if ok then pure () else stopWith (.rejected e)

end Sys2Proof.Machine
end

