-- ==== Sys2Proof/Machine/Reference.lean ====
section
/-! DEFINITION. What the algorithms compute on whole messages, independently of the block's state: GCM
(spec/43_gcm.md R180), and the CCM formatting, MAC and keystream (spec/45_host_ccm_facade.md R230-R237). -/

namespace Sys2Proof.Machine

/-- The bytes of `l` in chunks of 16, the last of which may be short. `fuel` is at least the length. -/
def chunksFrom : Nat → List Byte → List (List Byte)
  | 0, _ => []
  | fuel + 1, l => if l.isEmpty then [] else l.take 16 :: chunksFrom fuel (l.drop 16)

/-- A byte string in 16-byte chunks, the last of which may be short (R191, R227). -/
def chunks (l : List Byte) : List (List Byte) := chunksFrom l.length l

/-- pad(X) as blocks: zero bytes are appended to a multiple of 16, and pad(empty) is empty (R180). -/
def padBlocks (l : List Byte) : List Block := (chunks l).map blockOfBytes

/-- A key of 16 or 32 bytes as words k[4i..4i+3] (R38, R143). -/
def keyWords (key : List Byte) : List Word :=
  (List.range (key.length / 4)).map fun i => wordOfBytes fun r => key.getD (4 * i + r) 0

/-- The forward cipher under a key of 16 or 32 bytes (R144, R146). -/
def aesUnder (key : List Byte) (b : Block) : Block :=
  aesRounds (expandKey (key.length / 4) (keyWords key)) (key.length / 4 + 6) b

/-- A length in bits as a 64-bit integer (R63, R180). -/
def bitLength (l : List Byte) : Count := bitCount l.length

/-- J0 of GCM for hash subkey `h` and a nonce of at least one byte (R180). -/
def gcmJ0 (h : Block) (iv : List Byte) : Block :=
  if iv.length = 12 then j0Of96 (blockOfBytes iv)
  else ghash h (padBlocks iv ++ [lengthBlock 0 (bitLength iv)])

/-- The GCM data transformation, the same for encryption and decryption: byte k is xored with byte k mod 16 of
AES(inc32^(k/16 + 1)(J0)) (R180). -/
def gcmXor (e : Block → Block) (j0 : Block) (data : List Byte) : List Byte :=
  data.mapIdx fun k d => d ^^^ byteOf (e (inc32^[k / 16 + 1] j0)) (k % 16)

/-- The full 16-byte GCM tag over AAD and ciphertext (R180). -/
def gcmTag (e : Block → Block) (iv aad ct : List Byte) : Block :=
  let h := e 0
  e (gcmJ0 h iv) ^^^ ghash h (padBlocks aad ++ padBlocks ct ++ [lengthBlock (bitLength aad) (bitLength ct)])

/-- GCM encryption of R180: ciphertext and 16-byte tag. -/
def gcmSeal (key iv pt aad : List Byte) : List Byte × List Byte :=
  let e := aesUnder key
  let ct := gcmXor e (gcmJ0 (e 0) iv) pt
  (ct, bytesOfBlock (gcmTag e iv aad ct))

/-- GCM decryption of R180: plaintext in every case, and whether the first len(tag) bytes of the recomputed tag are the
supplied tag. -/
def gcmOpen (key iv ct aad tag : List Byte) : List Byte × Bool :=
  let e := aesUnder key
  (gcmXor e (gcmJ0 (e 0) iv) ct, decide ((bytesOfBlock (gcmTag e iv aad ct)).take tag.length = tag))

/-- q, the width of CCM's counter and length fields in bytes (R230). -/
def ccmQ (n : List Byte) : Nat := 15 - n.length

/-- The flags byte of B0: Adata in bit 6, (t-2)/2 in bits 5..3, q-1 in bits 2..0 (R232). -/
def ccmFlags (q t aadLen : Nat) : Byte :=
  BitVec.ofNat 8 ((if aadLen > 0 then 0x40 else 0) ||| (((t - 2) / 2) <<< 3) ||| (q - 1))

/-- B0 = flags || N || be_q(len(P)) (R232). -/
def ccmB0 (n : List Byte) (t aadLen msgLen : Nat) : List Byte :=
  ccmFlags (ccmQ n) t aadLen :: (n ++ beBytes (ccmQ n) msgLen)

/-- The AAD length header (R233). -/
def ccmAadHeader (a : Nat) : List Byte :=
  if a = 0 then []
  else if a < 0xff00 then beBytes 2 a
  else if a < 2 ^ 32 then [0xff, 0xfe] ++ beBytes 4 a
  else [0xff, 0xff] ++ beBytes 8 a

/-- The formatted AAD, header || A, as zero-padded blocks; none for an empty AAD (R233, R234). -/
def ccmAadBlocks (aad : List Byte) : List Block := padBlocks (ccmAadHeader aad.length ++ aad)

/-- A_i = (q-1) || N || be_q(i) (R236). -/
def ccmCounterBlock (n : List Byte) (i : Nat) : Block :=
  blockOfBytes (BitVec.ofNat 8 (ccmQ n - 1) :: (n ++ beBytes (ccmQ n) i))

/-- The blocks the CCM MAC runs over: B0 || formatted AAD || padded P (R235). -/
def ccmMacBlocks (n : List Byte) (t : Nat) (aad msg : List Byte) : List Block :=
  blockOfBytes (ccmB0 n t aad.length msg.length) :: (ccmAadBlocks aad ++ padBlocks msg)

/-- The CCM data transformation, the same both ways: byte k is xored with byte k mod 16 of AES(A_(k/16 + 1))
(R236, R237). -/
def ccmXor (e : Block → Block) (n data : List Byte) : List Byte :=
  data.mapIdx fun k d => d ^^^ byteOf (e (ccmCounterBlock n (k / 16 + 1))) (k % 16)

/-- T xor S0 over the plaintext `msg`, all 16 bytes (R237, C8). -/
def ccmTag (e : Block → Block) (n : List Byte) (t : Nat) (aad msg : List Byte) : Block :=
  cbcMac e (ccmMacBlocks n t aad msg) ^^^ e (ccmCounterBlock n 0)

/-- CCM encryption: ciphertext and the first t bytes of the tag (R237). -/
def ccmSeal (key n pt aad : List Byte) (t : Nat) : List Byte × List Byte :=
  let e := aesUnder key
  (ccmXor e n pt, (bytesOfBlock (ccmTag e n t aad pt)).take t)

/-- CCM decryption: plaintext in every case, and whether the recomputed tag is the supplied one (R238). -/
def ccmOpen (key n ct aad tag : List Byte) : List Byte × Bool :=
  let e := aesUnder key
  let pt := ccmXor e n ct
  (pt, decide ((bytesOfBlock (ccmTag e n tag.length aad pt)).take tag.length = tag))

end Sys2Proof.Machine
end

