-- ==== Sys2Proof/Machine/Facade.lean ====
section
/-! DEFINITION. The host procedures gcm.encrypt, gcm.decrypt, ccm.encrypt and ccm.decrypt (spec/45_host_ccm_facade.md): the
duties of a conforming host, run on the block. -/

namespace Sys2Proof.Machine

/-- EncryptionResult (R239). -/
structure EncryptionResult where
  ciphertext : List Byte
  authTag : List Byte
deriving DecidableEq, Repr

/-- DecryptionResult (R239). -/
structure DecryptionResult where
  plaintext : List Byte
  authOk : Bool
deriving DecidableEq, Repr

/-- A key of 16 or 32 bytes (R226). -/
def keyLengthOk (key : List Byte) : Bool := key.length == 16 || key.length == 32

/-- A CCM nonce of 7..13 bytes (R226, R230). -/
def ccmNonceOk (n : List Byte) : Bool := decide (7 ≤ n.length ∧ n.length ≤ 13)

/-- A CCM tag length in (4, 6, 8, 10, 12, 14, 16) (R226, R230). -/
def ccmTagLengthOk (t : Nat) : Bool := decide (t ∈ [4, 6, 8, 10, 12, 14, 16])

/-- A CCM message of fewer than 2^(8q) bytes (R226, R231). -/
def ccmMessageOk (n msg : List Byte) : Bool := decide (msg.length < 2 ^ (8 * ccmQ n))

/-- A CCM AAD of fewer than 2^64 bytes (R231; log 18). -/
def ccmAadOk (aad : List Byte) : Bool := decide (aad.length < 2 ^ 64)

/-- Absorb chunks of the IV or the AAD with command `i`: DIN, DLEN, then the command (R227). -/
def absorb (i : Instr) : List (List Byte) → HostM Unit
  | [] => pure ()
  | c :: rest => do
    wr128 0x040 (blockOfBytes c)
    wr 0x010 (BitVec.ofNat 32 c.length)
    check i
    absorb i rest

/-- Encrypt or decrypt chunks with command `i`, collecting the first len(c) bytes of each DOUT (R227, R228). -/
def crypt (i : Instr) : List (List Byte) → HostM (List Byte)
  | [] => pure []
  | c :: rest => do
    wr128 0x040 (blockOfBytes c)
    wr 0x010 (BitVec.ofNat 32 c.length)
    check i
    let out ← rd128 0x050
    let more ← crypt i rest
    return (bytesOfBlock out).take c.length ++ more

/-- The part the two GCM procedures share: key, IV, AAD, then the data with command `i` (R227). -/
def gcmMessage (i : Instr) (key iv aad data : List Byte) : HostM (List Byte) := do
  wrKey key
  check .keyExpand
  check .gcmInit
  absorb .gcmIv (chunks iv)
  check .gcmIvFinal
  absorb .gcmAad (chunks aad)
  crypt i (chunks data)

/-- gcm.encrypt (R226, R227, R229). -/
def gcmEncrypt (key iv plaintext aad : List Byte) : HostM EncryptionResult := do
  require (keyLengthOk key) .invalidKeyLength
  require (decide (1 ≤ iv.length)) .invalidNonceLength
  let ct ← gcmMessage .gcmEnc key iv aad plaintext
  wr 0x014 16
  check .gcmFinal
  let tag ← rd128 0x070
  return ⟨ct, bytesOfBlock tag⟩

/-- gcm.decrypt (R226, R228, R229). -/
def gcmDecrypt (key iv ciphertext aad authTag : List Byte) : HostM DecryptionResult := do
  require (keyLengthOk key) .invalidKeyLength
  require (decide (1 ≤ iv.length)) .invalidNonceLength
  require (decide (1 ≤ authTag.length ∧ authTag.length ≤ 16)) .invalidTagLength
  let pt ← gcmMessage .gcmDec key iv aad ciphertext
  wr128 0x060 (blockOfBytes authTag)
  wr 0x014 (BitVec.ofNat 32 authTag.length)
  check .gcmFinal
  let status ← rd 0x004
  return ⟨pt, status.getLsbD 3⟩

/-- AES_ENC of one block through DIN and DOUT (R237). -/
def aesBlock (b : Block) : HostM Block := do
  wr128 0x040 b
  check .aesEnc
  rd128 0x050

/-- CCM keystream: chunk number i is xored with AES(A_i), i counting from `i` (R237). -/
def ccmCrypt (n : List Byte) : Nat → List (List Byte) → HostM (List Byte)
  | _, [] => pure []
  | i, c :: rest => do
    let out ← aesBlock (ccmCounterBlock n i)
    let more ← ccmCrypt n (i + 1) rest
    return c.zipWith (· ^^^ ·) (bytesOfBlock out) ++ more

/-- CBCMAC_BLOCK for each block (R237). -/
def macBlocks : List Block → HostM Unit
  | [] => pure ()
  | x :: rest => do
    wr128 0x040 x
    check .cbcmacBlock
    macBlocks rest

/-- The validation of the two CCM procedures, in R226's order. -/
def ccmValidate (key n msg aad : List Byte) (t : Nat) : HostM Unit := do
  require (keyLengthOk key) .invalidKeyLength
  require (ccmNonceOk n) .invalidNonceLength
  require (ccmTagLengthOk t) .invalidTagLength
  require (ccmMessageOk n msg) .messageTooLong
  require (ccmAadOk aad) .aadTooLong

/-- MAC over B0 || formatted AAD || padded P, then the mask S0 into DIN (R237). -/
def ccmMac (n : List Byte) (t : Nat) (aad msg : List Byte) (s0 : Block) : HostM Unit := do
  check .cbcmacInit
  macBlocks (ccmMacBlocks n t aad msg)
  wr128 0x040 s0

/-- ccm.encrypt (R226, R237). -/
def ccmEncrypt (key n plaintext aad : List Byte) (t : Nat) : HostM EncryptionResult := do
  ccmValidate key n plaintext aad t
  wrKey key
  check .keyExpand
  let ct ← ccmCrypt n 1 (chunks plaintext)
  let s0 ← aesBlock (ccmCounterBlock n 0)
  ccmMac n t aad plaintext s0
  wr 0x014 (BitVec.ofNat 32 t)
  check .cbcmacFinal
  let tag ← rd128 0x070
  return ⟨ct, (bytesOfBlock tag).take t⟩

/-- ccm.decrypt (R226, R238). -/
def ccmDecrypt (key n ciphertext aad authTag : List Byte) : HostM DecryptionResult := do
  ccmValidate key n ciphertext aad authTag.length
  wrKey key
  check .keyExpand
  let pt ← ccmCrypt n 1 (chunks ciphertext)
  let s0 ← aesBlock (ccmCounterBlock n 0)
  ccmMac n authTag.length aad pt s0
  wr128 0x060 (blockOfBytes authTag)
  wr 0x014 (BitVec.ofNat 32 authTag.length)
  check .cbcmacFinal
  let status ← rd 0x004
  return ⟨pt, status.getLsbD 3⟩

end Sys2Proof.Machine
end

