-- ==== Sys2Proof/Machine/HostDuties.lean ====
section
/-! DEFINITION. The duties of a conforming host (spec/45_host_ccm_facade.md R240): what one access must keep in the state it
is made in (`conformingAccess`), what a whole run must keep, given what the host has seen and still has to read
(`conformingRun`), and what a sequence of facade calls must keep (`conformingCalls`). The block enforces none of them
(spec/93_implementation_defined.md U15; log 27). -/

namespace Sys2Proof.Machine

/-- The most data blocks a host may send in one GCM message: 2^32 - 2 (R240 duty 5, spec/70_reset_and_hazards.md R290). -/
def maxDataBlocks : Nat := 2 ^ 32 - 2

/-- The data blocks of the GCM message in progress so far: LEN_C in blocks of 128 bits, the last of which may be short. -/
def dataBlocks (s : State) : Nat := (s.lenC.toNat + 127) / 128

/-- Duty 1: no write but to STATUS, and no read of a result register, while the block is busy (R285, R286). -/
def keepsWait (o : HostOp) (s : State) : Bool :=
  !s.busy || match o.dir with
    | .R => !isResult (regAt o.off)
    | .W => regAt o.off == .status

/-- The cipher commands: those whose rule runs AES (R148, R184, R188, R189, R190, R212). -/
def runsCipher (i : Instr) : Bool :=
  match i with
  | .aesEnc | .gcmInit | .gcmEnc | .gcmDec | .gcmFinal | .cbcmacBlock => true
  | .nop | .keyExpand | .ghashLoadh | .ghashClear | .ghashBlock | .gcmIv | .gcmIvFinal | .gcmAad | .cbcmacInit
  | .cbcmacFinal => false

/-- Duty 3, in what one state shows: a key before any cipher command, and no KEY_EXPAND within a GCM message, of the same key
or of another (R288; log 29). The CBC-MAC chain leaves no mark on the block (R214): `ChainKey` says its half of a run. -/
def keepsKey (i : Instr) (s : State) : Bool :=
  (!runsCipher i || s.keyValid) && (i != .keyExpand || decide (s.phase = .idle))

/-- What the host has done to the key since its CBC-MAC chain began. -/
inductive ChainKey where
  /-- No chain has begun. -/
  | noChain
  /-- The chain so far is under one key. -/
  | oneKey
  /-- KEY_EXPAND was issued after the chain began. -/
  | changed
deriving DecidableEq, Repr

/-- A chain begins with CBCMAC_INIT, or with a CBCMAC_BLOCK on the MAC that reset left (R211, R212, R288). -/
def ChainKey.next (c : ChainKey) (i : Instr) : ChainKey :=
  match i with
  | .cbcmacInit => .oneKey
  | .cbcmacBlock => if c = .noChain then .oneKey else c
  | .keyExpand => if c = .noChain then .noChain else .changed
  | .nop | .aesEnc | .ghashLoadh | .ghashClear | .ghashBlock | .gcmInit | .gcmIv | .gcmIvFinal | .gcmAad | .gcmEnc | .gcmDec
  | .gcmFinal | .cbcmacFinal => c

/-- Duty 3 for CBC-MAC: no chain goes on, to a CBCMAC_BLOCK or to its CBCMAC_FINAL, once a KEY_EXPAND has come in its
middle, of the same key or of another (R288; log 29). -/
def ChainKey.keeps (c : ChainKey) (i : Instr) : Bool := !(c == .changed && (i == .cbcmacBlock || i == .cbcmacFinal))

/-- Duty 3 for CBC-MAC, over the commands a host issues after reset. -/
def keepsMacKey (commands : List Instr) (c : ChainKey := .noChain) : Bool :=
  match commands with
  | [] => true
  | i :: rest => c.keeps i && keepsMacKey rest (c.next i)

/-- Duty 4: a chunk of a section has 1 to 16 bytes, and comes while its section takes chunks, which it no longer does after
a short one (R182, R289). A chunk sent outside its section is no part of any section and does not conform (log 29). -/
def keepsChunks (i : Instr) (s : State) : Bool :=
  match i with
  | .gcmIv => decide (s.phase = .ivOpen) && !badDataLength s
  | .gcmAad => decide (s.phase = .aadOpen) && !badDataLength s
  | .gcmEnc | .gcmDec => decide (s.phase ∈ [.aadOpen, .aadClosed, .dataOpen]) && !badDataLength s
  | .nop | .keyExpand | .aesEnc | .ghashLoadh | .ghashClear | .ghashBlock | .gcmInit | .gcmIvFinal | .gcmFinal
  | .cbcmacInit | .cbcmacBlock | .cbcmacFinal => true

/-- Duty 5, the bound: no data command once the message has its 2^32 - 2 data blocks (R290). -/
def keepsDataLimit (i : Instr) (s : State) : Bool :=
  match i with
  | .gcmEnc | .gcmDec => decide (dataBlocks s < maxDataBlocks)
  | .nop | .keyExpand | .aesEnc | .ghashLoadh | .ghashClear | .ghashBlock | .gcmInit | .gcmIv | .gcmIvFinal | .gcmAad
  | .gcmFinal | .cbcmacInit | .cbcmacBlock | .cbcmacFinal => true

/-- Issuing command `i` in this state keeps duties 3, 4 and 5. -/
def keepsCommandDuties (i : Instr) (s : State) : Bool := keepsKey i s && keepsChunks i s && keepsDataLimit i s

/-- The access is a write to CMD: it issues a command, or a word that is none. -/
def issuesCommand (o : HostOp) : Bool := o.dir == .W && regAt o.off == .cmd

/-- A duty `keeps` of the command that a word is; a word that is none has only the duties of every command. -/
def onCommand (keeps : Instr → Bool) (v : Word) : Bool :=
  match decode v with
  | .ok i => keeps i
  | .error _ => true

/-- The host operation `o`, made in this state, keeps every duty that the block's state can show: duty 1, and for a write to
CMD duties 3, 4 and 5. -/
def conformingAccess (o : HostOp) (s : State) : Bool :=
  keepsWait o s && (!issuesCommand o || onCommand (fun i => keepsCommandDuties i s) o.data)

/-- Whether a command overwrites a result register, or AUTH_OK and ERRCODE in STATUS (R287). -/
def overwrites (i : Instr) : Reg → Bool
  | .status => true
  | .dout _ => i ∈ [.aesEnc, .gcmEnc, .gcmDec]
  | .tag _ => i ∈ [.gcmFinal, .cbcmacFinal]
  | .mac _ => i ∈ [.cbcmacInit, .cbcmacBlock]
  | .ghash _ => i ∈ [.ghashClear, .ghashBlock, .gcmInit, .gcmIv, .gcmIvFinal, .gcmAad, .gcmEnc, .gcmDec, .gcmFinal]
  | .ctr _ => i ∈ [.gcmInit, .gcmIvFinal, .gcmEnc, .gcmDec]
  | .lenaHi | .lenaLo => i ∈ [.gcmInit, .gcmAad]
  | .lencHi | .lencLo => i ∈ [.gcmInit, .gcmEnc, .gcmDec]
  | .id | .cmd | .keylen | .dlen | .taglen | .key _ | .din _ | .exptag _ | .reserved => false

/-- One access of a host. Where it issues a command, `wants` are the registers whose results the host is going to read:
R237's own procedure leaves most MACs unread, so which results are wanted is the host's to say (log 29). -/
structure HostAccess where
  op : HostOp
  wants : List Reg := []
deriving DecidableEq, Repr

/-- What a host must remember to keep its duties. -/
structure HostView where
  /-- STATUS has been read with BUSY = 0 since the last command was issued. -/
  settled : Bool := true
  /-- The results it is going to read of a command not yet settled. -/
  wants : List Reg := []
  /-- The results it still has to read of commands that completed without error. -/
  owed : List Reg := []
  /-- The key of its CBC-MAC chain. -/
  chain : ChainKey := .noChain
deriving DecidableEq, Repr

/-- Duties 1 and 6 as the host sees them: between a command and the next write other than to STATUS, the next command among
them, and before a result is read, STATUS is read with BUSY = 0, which shows ERR (R285, R286; log 29). -/
def HostView.keepsSettled (v : HostView) (o : HostOp) : Bool :=
  v.settled || match o.dir with
    | .R => !isResult (regAt o.off)
    | .W => regAt o.off == .status

/-- Duty 2: a command that overwrites a result is issued only once the host has read it (R287). -/
def HostView.keepsResults (v : HostView) (i : Instr) : Bool := v.owed.all fun r => !overwrites i r

/-- An access made in this state, by a host that has seen `v`, keeps duties 1 to 6, of which duty 5's nonce is a matter of
whole calls. -/
def HostView.keeps (v : HostView) (a : HostAccess) (s : State) : Bool :=
  conformingAccess a.op s && v.keepsSettled a.op &&
    (!issuesCommand a.op || onCommand (fun i => v.keepsResults i && v.chain.keeps i) a.op.data)

/-- What the host has seen after issuing the word `a.op.data`. -/
def HostView.issue (v : HostView) (a : HostAccess) : HostView :=
  { v with
    settled := false
    wants := a.wants
    chain := match decode a.op.data with
      | .ok i => v.chain.next i
      | .error _ => v.chain }

/-- What the host has seen after reading STATUS: with BUSY = 0 the command is settled, and its results are there if it
completed without error. -/
def HostView.readStatus (v : HostView) (s : State) : HostView :=
  if s.busy then v
  else
    { v with
      settled := true
      wants := []
      owed := (if s.errcode = .ok then v.owed ++ v.wants else v.owed).filter (· != .status) }

/-- What the host has seen after an access made in this state. -/
def HostView.after (v : HostView) (a : HostAccess) (s : State) : HostView :=
  match a.op.dir with
  | .W => if issuesCommand a.op then v.issue a else v
  | .R => if regAt a.op.off = .status then v.readStatus s
    else { v with owed := v.owed.filter (· != regAt a.op.off) }

/-- One turn of a host's run: an access, the engine's turn, or a reset. -/
inductive HostTurn where
  | access (a : HostAccess)
  | engine
  | reset
deriving DecidableEq, Repr

/-- The event of the machine that a turn is. -/
def HostTurn.event : HostTurn → Event
  | .access a => .bus a.op.toBusOp
  | .engine => .engine
  | .reset => .reset

/-- A turn keeps the host's duties; the engine and the reset input have none. -/
def HostTurn.keeps (t : HostTurn) (v : HostView) (s : State) : Bool :=
  match t with
  | .access a => v.keeps a s
  | .engine | .reset => true

/-- What the host has seen after a turn; after a reset it starts anew (R280, log 29). -/
def HostTurn.seen (t : HostTurn) (v : HostView) (s : State) : HostView :=
  match t with
  | .access a => v.after a s
  | .engine => v
  | .reset => {}

/-- The run keeps duties 1 to 6 throughout and ends with its last command settled (R240, R295). -/
def conformingRun (turns : List HostTurn) (v : HostView) (s : State) : Bool :=
  match turns with
  | [] => v.settled
  | t :: rest => t.keeps v s &&
    match applyEvent t.event s with
    | .next s' => conformingRun rest (t.seen v s) s'
    | .fault _ | .refused _ => false

/-- Duty 5 for a whole message: at most 2^32 - 2 data blocks (R290). -/
def gcmDataOk (data : List Byte) : Bool := decide ((chunks data).length ≤ maxDataBlocks)

/-- A call of one of the four procedures, with its arguments (R227, R228, R237, R238). -/
inductive FacadeCall where
  | gcmEncrypt (key iv plaintext aad : List Byte)
  | gcmDecrypt (key iv ciphertext aad authTag : List Byte)
  | ccmEncrypt (key iv plaintext aad : List Byte) (authTagLength : Nat)
  | ccmDecrypt (key iv ciphertext aad authTag : List Byte)
deriving DecidableEq, Repr

/-- The call passes R226's checks, and the AAD bound's; one that does not issues no command at all. -/
def FacadeCall.accepted : FacadeCall → Bool
  | .gcmEncrypt key iv _ _ => keyLengthOk key && decide (1 ≤ iv.length)
  | .gcmDecrypt key iv _ _ authTag =>
    keyLengthOk key && decide (1 ≤ iv.length) && decide (1 ≤ authTag.length ∧ authTag.length ≤ 16)
  | .ccmEncrypt key iv plaintext aad t =>
    keyLengthOk key && ccmNonceOk iv && ccmTagLengthOk t && ccmMessageOk iv plaintext && ccmAadOk aad
  | .ccmDecrypt key iv ciphertext aad authTag =>
    keyLengthOk key && ccmNonceOk iv && ccmTagLengthOk authTag.length && ccmMessageOk iv ciphertext && ccmAadOk aad

/-- The call run on the block, its result left aside. -/
def runCall (c : FacadeCall) : HostM Unit := do
  match c with
  | .gcmEncrypt key iv plaintext aad => let _ ← gcmEncrypt key iv plaintext aad
  | .gcmDecrypt key iv ciphertext aad authTag => let _ ← gcmDecrypt key iv ciphertext aad authTag
  | .ccmEncrypt key iv plaintext aad t => let _ ← ccmEncrypt key iv plaintext aad t
  | .ccmDecrypt key iv ciphertext aad authTag => let _ ← ccmDecrypt key iv ciphertext aad authTag

/-- The key and the nonce that an accepted call uses up: an encryption those it encrypts under, a decryption none, since
they are those of the message it opens. DESIGN CHOICE (log 28): the spec does not say which calls use a nonce. -/
def FacadeCall.sealsUnder : FacadeCall → Option (List Byte × List Byte)
  | .gcmEncrypt key iv _ _ => some (key, iv)
  | .ccmEncrypt key iv _ _ _ => some (key, iv)
  | .gcmDecrypt _ _ _ _ _ => none
  | .ccmDecrypt _ _ _ _ _ => none

/-- A call's GCM message keeps the data bound; CCM has its own (R231), which the facade enforces. -/
def FacadeCall.dataOk : FacadeCall → Bool
  | .gcmEncrypt _ _ plaintext _ => gcmDataOk plaintext
  | .gcmDecrypt _ _ ciphertext _ _ => gcmDataOk ciphertext
  | .ccmEncrypt _ _ _ _ _ => true
  | .ccmDecrypt _ _ _ _ _ => true

/-- Duty 5: no nonce is used twice under one key, in the messages a host encrypts by whatever program (R290). -/
def freshNonces (uses : List (List Byte × List Byte)) : Bool := decide uses.Nodup

/-- Duty 5: every GCM message within its bound, and no nonce reused. A call that R226 rejects issues no command, so it
sends no message and uses no nonce. DESIGN CHOICE (log 28): the spec does not say so of its nonce. -/
def conformingCalls (calls : List FacadeCall) : Bool :=
  let sent := calls.filter FacadeCall.accepted
  sent.all FacadeCall.dataOk && freshNonces (sent.filterMap FacadeCall.sealsUnder)

/-- Duty 7: the plaintext a host may trust, which is none unless the tag was authentic (R228, R238). -/
def DecryptionResult.trusted (r : DecryptionResult) : Option (List Byte) :=
  if r.authOk then some r.plaintext else none

end Sys2Proof.Machine
end

