-- ==== Sys2Proof/Safety.lean ====
section
/-! DEFINITION. The terms claims use: the block's invariants, the rules' tables of errors and phases, events taken now, and
safe schedules. -/

namespace Sys2Proof.Safety

open Sys2Proof.Machine

/-- The machine takes event `e` now: one step with `e` in front of the schedule. -/
def after (e : Event) (s : State) : Host.Outcome State Fault Refusal := step { s with schedule := e :: s.schedule }

/-- The host reads the word at offset `off` of the window. -/
def readAt (off : Nat) : Event := .bus (.read .word (Config.base + off))

/-- The host writes `v` at offset `off` of the window. -/
def writeAt (off : Nat) (v : Word) : Event := .bus (.write .word (Config.base + off) v)

/-- An offset of the window (spec/20_memory.md R61, R66). -/
abbrev IsOffset (off : Nat) : Prop := off % 4 = 0 ∧ off < 0x100

/-- `f` on the next state, if there is one. -/
def onNext (f : State → State) : Host.Outcome State Fault Refusal → Host.Outcome State Fault Refusal
  | .next s => .next (f s)
  | .fault r => .fault r
  | .refused r => .refused r

/-- PHASE != IDLE implies KEY_VALID = 1 (spec/10_state.md R55). -/
abbrev PhaseNeedsKey (s : State) : Prop := s.phase ≠ .idle → s.keyValid = true

/-- KEY_VALID = 0 if and only if NR = 0; KEY256 = 1 if and only if NR = 14 (R56). -/
abbrev KeyFlagsAgree (s : State) : Prop :=
  (s.keyValid = false ↔ s.nr = .zero) ∧ (s.key256 = true ↔ s.nr = .fourteen)

/-- RK holds the words w[0..4·NR+3] once a key is expanded (R48). -/
abbrev ScheduleComplete (s : State) : Prop := s.keyValid = true → s.rk.length = 4 * (roundCount s.nr + 1)

/-- While a command is in flight DONE, ERRCODE and AUTH_OK are 0 (R25, R26, spec/20_memory.md R67). -/
abbrev BusyIsClean (s : State) : Prop :=
  s.busy = true → s.done = false ∧ s.errcode = .ok ∧ s.authOk = false

/-- AUTH_OK and a nonzero ERRCODE are results of a completed command (R28, R33), and never of the same one. -/
abbrev ResultsAreDone (s : State) : Prop :=
  (s.authOk = true → s.done = true ∧ s.errcode = .ok) ∧ (s.errcode ≠ .ok → s.done = true)

/-- The block's invariant. -/
abbrev Inv (s : State) : Prop :=
  PhaseNeedsKey s ∧ KeyFlagsAgree s ∧ ScheduleComplete s ∧ BusyIsClean s ∧ ResultsAreDone s

/-- Every piece of the block's state has the value the spec gives it after reset (spec/70_reset_and_hazards.md R280). RK,
which has none, is left out. -/
abbrev HasResetValues (s : State) : Prop :=
  (s.busy = false ∧ s.done = false ∧ s.authOk = false ∧ s.keyValid = false ∧ s.key256 = false ∧ s.ovr = false ∧
    s.phase = .idle ∧ s.errcode = .ok ∧ statusWord s = 0#32) ∧
  (s.keylen = 16#6 ∧ s.dlen = 16#5 ∧ s.taglen = 16#5 ∧ (∀ i : Fin 8, s.key[i] = 0#32)) ∧
  (s.din = 0#128 ∧ s.dout = 0#128 ∧ s.exptag = 0#128 ∧ s.tag = 0#128 ∧ s.mac = 0#128 ∧ s.y = 0#128 ∧ s.ctr = 0#128) ∧
  (s.lenA = 0#64 ∧ s.lenC = 0#64 ∧ s.nr = .zero ∧ s.h = 0#128 ∧ s.j0 = 0#128 ∧ s.ivsave = 0#128 ∧ s.lenIv = 0#64 ∧
    s.pend = 0#32)

/-- The result registers' offsets: DOUT, and TAG up to LENC_LO (R20, R286). -/
abbrev IsResultOffset (off : Nat) : Prop := (0x050 ≤ off ∧ off < 0x060) ∨ (0x070 ≤ off ∧ off < 0x0C0)

/-- The current value of the word at an offset of the window, as R20 lays it out (R67). -/
def visibleValue (s : State) (off : Nat) : Word :=
  if off = 0x000 then 0x41454144#32
  else if off = 0x004 then statusWord s
  else if off = 0x00C then s.keylen.setWidth 32
  else if off = 0x010 then s.dlen.setWidth 32
  else if off = 0x014 then s.taglen.setWidth 32
  else if 0x040 ≤ off ∧ off < 0x050 then blockWord s.din ((off - 0x040) / 4)
  else if 0x050 ≤ off ∧ off < 0x060 then blockWord s.dout ((off - 0x050) / 4)
  else if 0x060 ≤ off ∧ off < 0x070 then blockWord s.exptag ((off - 0x060) / 4)
  else if 0x070 ≤ off ∧ off < 0x080 then blockWord s.tag ((off - 0x070) / 4)
  else if 0x080 ≤ off ∧ off < 0x090 then blockWord s.mac ((off - 0x080) / 4)
  else if 0x090 ≤ off ∧ off < 0x0A0 then blockWord s.y ((off - 0x090) / 4)
  else if 0x0A0 ≤ off ∧ off < 0x0B0 then blockWord s.ctr ((off - 0x0A0) / 4)
  else if off = 0x0B0 then s.lenA.extractLsb' 32 32
  else if off = 0x0B4 then s.lenA.extractLsb' 0 32
  else if off = 0x0B8 then s.lenC.extractLsb' 32 32
  else if off = 0x0BC then s.lenC.extractLsb' 0 32
  else 0#32

/-- The phases a command is allowed in; none where any is (spec/43_gcm.md R182). -/
def allowedPhases : Instr → Option (List Phase)
  | .gcmIv => some [.ivOpen]
  | .gcmIvFinal => some [.ivOpen, .ivClosed]
  | .gcmAad => some [.aadOpen]
  | .gcmEnc | .gcmDec => some [.aadOpen, .aadClosed, .dataOpen]
  | .gcmFinal => some [.aadOpen, .aadClosed, .dataOpen, .dataClosed]
  | .ghashLoadh | .ghashClear | .ghashBlock => some [.idle]
  | .nop | .keyExpand | .aesEnc | .gcmInit | .cbcmacInit | .cbcmacBlock | .cbcmacFinal => none

/-- PHASE after a command that succeeds in phase `p` with DLEN = `n` (R182). -/
def nextPhase (n : Nat) (p : Phase) : Instr → Phase
  | .gcmInit => .ivOpen
  | .gcmIv => if n = 16 then .ivOpen else .ivClosed
  | .gcmIvFinal => .aadOpen
  | .gcmAad => if n = 16 then .aadOpen else .aadClosed
  | .gcmEnc | .gcmDec => if n = 16 then .dataOpen else .dataClosed
  | .gcmFinal | .keyExpand | .ghashLoadh | .ghashClear | .ghashBlock => .idle
  | .nop | .aesEnc | .cbcmacInit | .cbcmacBlock | .cbcmacFinal => p

/-- Whether the cause of error `c` holds for command `i` (spec/60_exceptions.md R253-R258). ILLEGAL_CMD never is a
command's. -/
def causeHolds (i : Instr) (s : State) : ErrCode → Bool
  | .ok | .illegalCmd => false
  | .sequence => match allowedPhases i with
    | some ps => !decide (s.phase ∈ ps)
    | none => false
  | .noKey => decide (i ∈ [.aesEnc, .gcmInit, .cbcmacBlock]) && s.keyValid == false
  | .invalidKeyLength => decide (i = .keyExpand) && !decide (s.keylen.toNat ∈ [16, 32])
  | .invalidDlen => decide (i ∈ [.gcmIv, .gcmAad, .gcmEnc, .gcmDec]) && !decide (1 ≤ s.dlen.toNat ∧ s.dlen.toNat ≤ 16)
  | .invalidTagLength => decide (i ∈ [.gcmFinal, .cbcmacFinal]) && !decide (1 ≤ s.taglen.toNat ∧ s.taglen.toNat ≤ 16)
  | .invalidNonceLength => decide (i = .gcmIvFinal) && s.lenIv == 0#64

/-- The priority of the errors (R259). -/
def errorPriority : List ErrCode :=
  [.illegalCmd, .sequence, .noKey, .invalidKeyLength, .invalidDlen, .invalidTagLength, .invalidNonceLength]

/-- The code command `i` reports in state `s`: the first whose cause holds, in the order of R259, or OK. -/
def reportedError (i : Instr) (s : State) : ErrCode := (errorPriority.find? (causeHolds i s)).getD .ok

/-- Command `i` on each block in turn, DIN being written before each. -/
def feed (i : Instr) : List Block → State → Host.Outcome State Fault Refusal
  | [], s => .next s
  | x :: xs, s =>
    match exec i { s with din := x } with
    | .next t => feed i xs t
    | .fault r => .fault r
    | .refused r => .refused r

/-- The GCM engine's own registers, written anew. -/
def withGcmRegs (phase : Phase) (y h j0 ctr ivsave : Block) (lenA lenC lenIv : Count) (s : State) : State :=
  { s with phase := phase, y := y, h := h, j0 := j0, ctr := ctr, ivsave := ivsave, lenA := lenA, lenC := lenC,
           lenIv := lenIv }

/-- What no bus access reads back, written anew: the key, its schedule, H, J0, IVSAVE, LEN_IV and PEND
(spec/20_memory.md R73, spec/60_exceptions.md R266). -/
def withSecrets (key : Vector Word 8) (rk : List Word) (h j0 ivsave : Block) (lenIv : Count) (pend : Word) (s : State) :
    State :=
  { s with key := key, rk := rk, h := h, j0 := j0, ivsave := ivsave, lenIv := lenIv, pend := pend }

/-- Every event still to come is one the port can express. -/
abbrev ScheduleSafe (s : State) : Prop := ∀ e ∈ s.schedule, e.wellFormed

end Sys2Proof.Safety
end

