-- ==== Sys2Proof/Certificates/Slice0/Obligations.lean ====
section
/-! DEFINITION. The statements for the provers, from the numbered rules of spec/. -/

open Sys2Proof Sys2Proof.Machine Sys2Proof.Safety

/-! ## Encoding and decoding -/

/-- R90, R91, R94: decoding a command's word gives the command, and a word that decodes is the command's word. -/
def Obligations.DecodeInvertsEncode : Prop :=
  (∀ i : Instr, decode (encode i) = .ok i) ∧ (∀ (w : Word) (i : Instr), decode w = .ok i → encode i = w)

/-- R91, R95: a word is a command exactly when RSV is 0 and OPC is one of the sixteen values. -/
def Obligations.DecoderAcceptsExactlyTheMap : Prop :=
  ∀ w : Word, (∃ i, decode w = .ok i) ↔
    w.extractLsb' 8 24 = 0#24 ∧
      w.extractLsb' 0 8 ∈ [0x00#8, 0x01, 0x02, 0x10, 0x11, 0x12, 0x20, 0x21, 0x22, 0x23, 0x24, 0x25, 0x26, 0x30, 0x31, 0x32]

/-- R94, R95: words written out from the spec's encoding, one of each family and three illegal ones. -/
def Obligations.SampleWordsDecode : Prop :=
  decode 0x00000000#32 = .ok .nop ∧ decode 0x00000001#32 = .ok .keyExpand ∧ decode 0x00000012#32 = .ok .ghashBlock ∧
  decode 0x00000026#32 = .ok .gcmFinal ∧ decode 0x00000031#32 = .ok .cbcmacBlock ∧
  decode 0x00000101#32 = .error .reservedBits ∧ decode 0x00000003#32 = .error .undefinedOpcode ∧
  decode 0x000000ff#32 = .error .undefinedOpcode

/-! ## Reset, the bus and the life of a command -/

/-- R280, R281: reset, at any time and whatever is in flight, sets every register to its reset value, and no completion
follows. -/
def Obligations.ResetSetsEveryRegister : Prop :=
  HasResetValues State.reset ∧
  ∀ s : State, ∃ t, after .reset s = .next t ∧ HasResetValues t ∧ after .engine t = .next t

/-- R282: what the host reads after reset. -/
def Obligations.ReadsAfterReset : Prop :=
  ∀ off, IsOffset off →
    ∃ v, after (readAt off) State.reset = .next { State.reset with returned := [v] } ∧
      v = if off = 0x000 then 0x41454144#32 else if off = 0x00C ∨ off = 0x010 ∨ off = 0x014 then 16#32 else 0#32

/-- R283: while BUSY = 0 nothing happens without the host: neither the engine's turn nor an empty schedule changes
anything, a command leaves the block so, and only a write to CMD makes it busy. That an empty schedule is the engine's turn
is the model's reading (log 2). -/
def Obligations.IdleBlockStaysIdle : Prop :=
  (∀ s : State, s.busy = false → after .engine s = .next s ∧ (s.schedule = [] → step s = .next s)) ∧
  (∀ (i : Instr) (s t : State), exec i s = .next t → t.busy = false) ∧
  ∀ s t : State, step s = .next t → s.busy = false → t.busy = true →
    ∃ v rest, s.schedule = writeAt 0x008 v :: rest

/-- R110: a write to CMD while BUSY = 0 accepts any word, and while BUSY = 1 it is dropped and sets OVR. -/
def Obligations.WriteToCmdIssuesCommand : Prop :=
  ∀ (s : State) (v : Word),
    (s.busy = false → after (writeAt 0x008 v) s =
      .next { s with pend := v, busy := true, done := false, errcode := .ok, authOk := false }) ∧
    (s.busy = true → after (writeAt 0x008 v) s = .next { s with ovr := true })

/-- R68: the effect of a bus write at every offset while BUSY = 0. -/
def Obligations.WriteWhileIdle : Prop :=
  ∀ (s : State) (v : Word), s.busy = false →
    after (writeAt 0x004 v) s = .next (if v.getLsbD 7 then { s with ovr := false } else s) ∧
    after (writeAt 0x008 v) s =
      .next { s with pend := v, busy := true, done := false, errcode := .ok, authOk := false } ∧
    after (writeAt 0x00C v) s = .next { s with keylen := v.extractLsb' 0 6 } ∧
    after (writeAt 0x010 v) s = .next { s with dlen := v.extractLsb' 0 5 } ∧
    after (writeAt 0x014 v) s = .next { s with taglen := v.extractLsb' 0 5 } ∧
    (∀ i : Fin 8, after (writeAt (0x020 + 4 * i) v) s = .next { s with key := s.key.set i v }) ∧
    (∀ i : Fin 4, ∃ d, after (writeAt (0x040 + 4 * i) v) s = .next { s with din := d } ∧
      ∀ j : Fin 4, blockWord d j = if j = i then v else blockWord s.din j) ∧
    (∀ i : Fin 4, ∃ d, after (writeAt (0x060 + 4 * i) v) s = .next { s with exptag := d } ∧
      ∀ j : Fin 4, blockWord d j = if j = i then v else blockWord s.exptag j) ∧
    (∀ off, IsOffset off → (off = 0 ∨ off = 0x018 ∨ off = 0x01C ∨ (0x050 ≤ off ∧ off < 0x060) ∨ 0x070 ≤ off) →
      after (writeAt off v) s = .next s)

/-- R69: a bus write while BUSY = 1 is dropped and sets OVR, but at STATUS, where it clears OVR if bit 7 is 1 and never
sets it. -/
def Obligations.WriteWhileBusy : Prop :=
  ∀ (s : State) (v : Word) (off : Nat), s.busy = true → IsOffset off →
    after (writeAt off v) s =
      .next (if off = 0x004 then (if v.getLsbD 7 then { s with ovr := false } else s) else { s with ovr := true })

/-- R67, R71: what a bus read returns at every offset, that it changes no state of the block, and what STATUS shows while
BUSY = 1. Of a result register read while BUSY = 1 nothing is said but that some word is returned. -/
def Obligations.ReadReturnsCurrentValue : Prop :=
  (∀ (s : State) (off : Nat), IsOffset off →
    ∃ v n, after (readAt off) s = .next { s with returned := v :: s.returned, freeReads := n } ∧
      (s.busy = false ∨ ¬ IsResultOffset off → v = visibleValue s off ∧ n = s.freeReads)) ∧
  (∀ s : State, BusyIsClean s → s.busy = true →
    (visibleValue s 0x004).getLsbD 0 = true ∧ (visibleValue s 0x004).extractLsb' 1 3 = 0#3 ∧
    (visibleValue s 0x004).extractLsb' 16 4 = 0#4 ∧ (visibleValue s 0x004).getLsbD 4 = s.keyValid ∧
    (visibleValue s 0x004).getLsbD 5 = s.key256 ∧ (visibleValue s 0x004).getLsbD 7 = s.ovr ∧
    (visibleValue s 0x004).extractLsb' 8 3 = phaseCode s.phase)

/-- R24, R27, R32, R251: the fields of the STATUS word, and the codes of PHASE and ERRCODE. -/
def Obligations.StatusWordLayout : Prop :=
  (∀ s : State,
    (statusWord s).getLsbD 0 = s.busy ∧ (statusWord s).getLsbD 1 = s.done ∧
    (statusWord s).getLsbD 2 = decide (s.errcode ≠ .ok) ∧ (statusWord s).getLsbD 3 = s.authOk ∧
    (statusWord s).getLsbD 4 = s.keyValid ∧ (statusWord s).getLsbD 5 = s.key256 ∧
    (statusWord s).getLsbD 6 = false ∧ (statusWord s).getLsbD 7 = s.ovr ∧
    (statusWord s).extractLsb' 8 3 = phaseCode s.phase ∧ (statusWord s).extractLsb' 11 5 = 0#5 ∧
    (statusWord s).extractLsb' 16 4 = errCodeValue s.errcode ∧ (statusWord s).extractLsb' 20 12 = 0#12) ∧
  [Phase.idle, .ivOpen, .ivClosed, .aadOpen, .aadClosed, .dataOpen, .dataClosed].map phaseCode = [0, 1, 2, 3, 4, 5, 6] ∧
  [ErrCode.ok, .illegalCmd, .sequence, .noKey, .invalidKeyLength, .invalidDlen, .invalidTagLength,
    .invalidNonceLength].map errCodeValue = [0, 1, 2, 3, 4, 5, 6, 7]

/-- R111, R112: at the engine's turn, with BUSY = 1 and a command in PEND, the step is exec of that command; with nothing
scheduled the turn is the engine's. withFetchWord places a word so that the next step runs it. The schedule and withFetchWord are the model's (logs 1-3). -/
def Obligations.StepRunsPendingCommand : Prop :=
  ∀ (s : State) (i : Instr),
    (s.busy = true → decode s.pend = .ok i →
      after .engine s = exec i s ∧ (s.schedule = [] → step s = exec i s)) ∧
    step (s.withFetchWord 32 (encode i).toNat) = exec i (s.accept (encode i))

/-- R252: a word that is no command completes with ILLEGAL_CMD and changes no other state. -/
def Obligations.IllegalWordReportsIllegalCmd : Prop :=
  ∀ s : State, s.busy = true →
    (s.pend.extractLsb' 8 24 ≠ 0#24 ∨ ∀ i : Instr, s.pend.extractLsb' 0 8 ≠ opcode i) →
    after .engine s = .next { s with errcode := .illegalCmd, busy := false, done := true }

/-- R118: every completion step has a successor, for every state and every PEND word; after it BUSY = 0 and DONE = 1, so the
next write to CMD is accepted, whether or not STATUS was read. -/
def Obligations.EveryCompletionSucceeds : Prop :=
  (∀ (i : Instr) (s : State), ∃ t, exec i s = .next t ∧ t.busy = false ∧ t.done = true) ∧
  ∀ (s : State) (v : Word), s.busy = true →
    ∃ t, after .engine s = .next t ∧ t.busy = false ∧ t.done = true ∧
      after (writeAt 0x008 v) t =
        .next { t with pend := v, busy := true, done := false, errcode := .ok, authOk := false }

/-- R113: a command that fails changes nothing but STATUS: at its completion, and over the whole of its life, from the
write of any word to CMD on (PEND being that word). -/
def Obligations.FailedCommandChangesOnlyStatus : Prop :=
  (∀ (i : Instr) (s t : State), exec i s = .next t → t.errcode ≠ .ok →
    t = { s with errcode := t.errcode, busy := false, done := true }) ∧
  ∀ (v : Word) (s t u : State), s.busy = false → after (writeAt 0x008 v) s = .next t → after .engine t = .next u →
    u.errcode ≠ .ok →
    u = { s with pend := v, errcode := u.errcode, authOk := false, busy := false, done := true }

/-- R259: the code a command reports is the first, in the order of R259, whose cause (R253-R258) holds; 0 if none does.
ILLEGAL_CMD is decided before any of these: a word that is no command reports it in every state. -/
def Obligations.FirstErrorIsReported : Prop :=
  (∀ (i : Instr) (s : State), ∃ t, exec i s = .next t ∧ t.errcode = reportedError i s) ∧
  (∀ s : State, s.busy = true → (∀ i : Instr, decode s.pend ≠ .ok i) →
    ∃ t, after .engine s = .next t ∧ t.errcode = .illegalCmd) ∧
  ∀ s : State, s.phase = .idle → s.dlen = 0 → ∃ t, exec .gcmAad s = .next t ∧ t.errcode = .sequence

/-- R117: KEY, KEYLEN, DLEN, TAGLEN, DIN and EXPTAG change only by a bus write or reset, and no command writes them. -/
def Obligations.InputRegistersChangeOnlyByWriteOrReset : Prop :=
  (∀ (i : Instr) (s t : State), exec i s = .next t →
    t.key = s.key ∧ t.keylen = s.keylen ∧ t.dlen = s.dlen ∧ t.taglen = s.taglen ∧ t.din = s.din ∧ t.exptag = s.exptag) ∧
  ∀ s t : State, step s = .next t →
    (t.key ≠ s.key ∨ t.keylen ≠ s.keylen ∨ t.dlen ≠ s.dlen ∨ t.taglen ≠ s.taglen ∨ t.din ≠ s.din ∨ t.exptag ≠ s.exptag) →
    ∃ rest, s.schedule = .reset :: rest ∨ ∃ width addr v, s.schedule = .bus (.write width addr v) :: rest

/-- R29: KEY_VALID is 1 once a KEY_EXPAND has completed without error, and by nothing else; only reset clears it; without
it every command that runs the cipher fails (those that only check PHASE do so by R55, hence its premise). -/
def Obligations.KeyValidUntilReset : Prop :=
  (∀ s t : State, step s = .next t →
    (s.keyValid = false → t.keyValid = true → s.busy = true ∧ s.pend = 0x00000001#32 ∧ t.errcode = .ok) ∧
    (s.keyValid = true → t.keyValid = false → ∃ rest, s.schedule = .reset :: rest)) ∧
  (∀ s t : State, exec .keyExpand s = .next t → t.errcode = .ok → t.keyValid = true) ∧
  (∀ s : State, PhaseNeedsKey s → s.keyValid = false →
    ∀ i ∈ [Instr.aesEnc, .gcmInit, .gcmEnc, .gcmDec, .gcmFinal, .cbcmacBlock],
      ∃ t, exec i s = .next t ∧ t.errcode ∈ [ErrCode.noKey, .sequence]) ∧
  ∀ s t : State, after .reset s = .next t → t.keyValid = false

/-- R28, R115: AUTH_OK becomes 1 only by a GCM_FINAL or CBCMAC_FINAL that completes without error and whose first TAGLEN tag
bytes equal EXPTAG's; accepting a command and reset clear it. -/
def Obligations.AuthOkOnlyAfterMatchingTag : Prop :=
  (∀ s t : State, step s = .next t → s.authOk = false → t.authOk = true →
    s.busy = true ∧ (s.pend = 0x00000026#32 ∨ s.pend = 0x00000032#32) ∧ t.errcode = .ok ∧
      ∀ k, k < s.taglen.toNat → byteOf t.tag k = byteOf s.exptag k) ∧
  (∀ (s : State) (v : Word), s.busy = false → ∃ t, after (writeAt 0x008 v) s = .next t ∧ t.authOk = false) ∧
  ∀ s t : State, after .reset s = .next t → t.authOk = false

/-- R31: OVR is set by a write away from STATUS while BUSY = 1, and cleared by a write to STATUS with bit 7 = 1 (bit 7 = 0
leaves it), or reset, and by nothing else; no command changes it. -/
def Obligations.OvrChangesOnlyByWriteOrReset : Prop :=
  (∀ (s : State) (off : Nat) (v : Word), IsOffset off →
    ∃ t, after (writeAt off v) s = .next t ∧
      (s.busy = true → off ≠ 0x004 → t.ovr = true) ∧
      (off = 0x004 → t.ovr = if v.getLsbD 7 then false else s.ovr)) ∧
  (∀ s t : State, after .reset s = .next t → t.ovr = false) ∧
  (∀ (i : Instr) (s t : State), exec i s = .next t → t.ovr = s.ovr) ∧
  ∀ s t : State, step s = .next t →
    (s.ovr = false → t.ovr = true → s.busy = true ∧ ∃ off v rest, off ≠ 0x004 ∧ s.schedule = writeAt off v :: rest) ∧
    (s.ovr = true → t.ovr = false →
      ∃ rest, s.schedule = .reset :: rest ∨ ∃ v, v.getLsbD 7 = true ∧ s.schedule = writeAt 0x004 v :: rest)

/-- R182: the phase machine. A command that succeeds was allowed in PHASE and moves it as the table says; one outside its
allowed set fails with SEQUENCE; one that fails leaves PHASE; the commands outside the table neither read nor write it. -/
def Obligations.PhaseMachineFollowsTable : Prop :=
  (∀ (i : Instr) (s : State), ∃ t, exec i s = .next t ∧
    ((∃ ps, allowedPhases i = some ps ∧ s.phase ∉ ps) → t.errcode = .sequence) ∧
    (t.errcode = .ok → t.phase = nextPhase s.dlen.toNat s.phase i) ∧
    (t.errcode ≠ .ok → t.phase = s.phase)) ∧
  ∀ (i : Instr) (s : State) (p : Phase), i ∈ [Instr.nop, .aesEnc, .cbcmacInit, .cbcmacBlock, .cbcmacFinal] →
    exec i { s with phase := p } = onNext (fun t => { t with phase := p }) (exec i s)

/-- R192: after a short chunk of the IV, the AAD or the data has been absorbed, another chunk of that section fails with
SEQUENCE, whatever DIN and DLEN are then. -/
def Obligations.ShortChunkClosesSection : Prop :=
  ∀ (i j : Instr) (s t : State) (d : Block) (n : BitVec 5),
    (i, j) ∈ [(Instr.gcmIv, Instr.gcmIv), (.gcmAad, .gcmAad), (.gcmEnc, .gcmEnc), (.gcmEnc, .gcmDec), (.gcmDec, .gcmEnc),
      (.gcmDec, .gcmDec)] →
    s.dlen ≠ 16 → exec i s = .next t → t.errcode = .ok →
    exec j { t with din := d, dlen := n } =
      .next { t with din := d, dlen := n, errcode := .sequence, busy := false, done := true }

/-- R39-R52, R57, R92: the only commands that write each register. No command writes OVR, PEND or the model's own fields
(logs 1, 6, 7). -/
def Obligations.EachRegisterHasItsWriters : Prop :=
  ∀ (i : Instr) (s t : State), exec i s = .next t →
    (t.dout ≠ s.dout → i ∈ [Instr.aesEnc, .gcmEnc, .gcmDec]) ∧
    (t.tag ≠ s.tag → i ∈ [Instr.gcmFinal, .cbcmacFinal]) ∧
    (t.authOk ≠ s.authOk → i ∈ [Instr.gcmFinal, .cbcmacFinal]) ∧
    (t.mac ≠ s.mac → i ∈ [Instr.cbcmacInit, .cbcmacBlock]) ∧
    (t.y ≠ s.y → i ∈ [Instr.ghashClear, .ghashBlock, .gcmInit, .gcmIv, .gcmIvFinal, .gcmAad, .gcmEnc, .gcmDec,
      .gcmFinal]) ∧
    (t.ctr ≠ s.ctr → i ∈ [Instr.gcmInit, .gcmIvFinal, .gcmEnc, .gcmDec]) ∧
    (t.lenA ≠ s.lenA → i ∈ [Instr.gcmInit, .gcmAad]) ∧
    (t.lenC ≠ s.lenC → i ∈ [Instr.gcmInit, .gcmEnc, .gcmDec]) ∧
    (t.rk ≠ s.rk ∨ t.nr ≠ s.nr ∨ t.keyValid ≠ s.keyValid ∨ t.key256 ≠ s.key256 → i = .keyExpand) ∧
    (t.h ≠ s.h → i ∈ [Instr.gcmInit, .ghashLoadh]) ∧
    (t.j0 ≠ s.j0 → i ∈ [Instr.gcmInit, .gcmIvFinal]) ∧
    (t.ivsave ≠ s.ivsave ∨ t.lenIv ≠ s.lenIv → i ∈ [Instr.gcmInit, .gcmIv]) ∧
    (t.phase ≠ s.phase → i ∈ [Instr.keyExpand, .gcmInit, .gcmIv, .gcmIvFinal, .gcmAad, .gcmEnc, .gcmDec, .gcmFinal]) ∧
    t.ovr = s.ovr ∧ t.pend = s.pend ∧ t.schedule = s.schedule ∧ t.returned = s.returned ∧ t.freeReads = s.freeReads

/-- R76, R100, R292: WAIT. However many STATUS reads come first, each sees BUSY = 1 and none disturbs the command in flight;
the engine's turn then completes it, and the next STATUS read sees BUSY = 0. -/
def Obligations.PollingWaitsForCompletion : Prop :=
  ∀ (polls : Nat) (s t : State), s.busy = true → after .engine s = .next t →
    (statusWord s).getLsbD 0 = true ∧ (statusWord t).getLsbD 0 = false ∧
    Sys2Proof.core.run (polls + 2)
        { s with schedule := List.replicate polls (readAt 0x004) ++ .engine :: readAt 0x004 :: s.schedule } =
      .next { t with returned := statusWord t :: (List.replicate polls (statusWord s) ++ s.returned) }

/-! ## Invariants, safety and noninterference -/

/-- R55, R56: the invariant holds at reset. -/
def Obligations.InvariantHoldsAtReset : Prop := Inv State.reset

/-- R55, R56, R25, R28, R33, R48: every step keeps the invariant: a phase other than IDLE needs a key, KEY_VALID and KEY256
agree with NR, the store holds the whole schedule, and STATUS shows results only of a completed command. -/
def Obligations.InvariantIsKeptByEveryStep : Prop := ∀ s t : State, Inv s → step s = .next t → Inv t

/-- R61, R65, R66, R118: while every event to come is one the port can express, no step stops, and that stays so. -/
def Obligations.SafeScheduleNeverStops : Prop :=
  ∀ s : State, ScheduleSafe s → ∃ t, step s = .next t ∧ ScheduleSafe t

/-- R65, R66, R61: an access the port cannot express is refused by name, and nothing else is. Which of the three names
comes first is the model's choice (log 10). -/
def Obligations.InexpressibleAccessIsRefused : Prop :=
  ∀ (s : State) (op : BusOp),
    (¬ (Config.base ≤ op.addr ∧ op.addr < Config.base + 0x100) → after (.bus op) s = .refused .outsideWindow) ∧
    (Config.base ≤ op.addr ∧ op.addr < Config.base + 0x100 → op.width ≠ .word →
      after (.bus op) s = .refused .subWordAccess) ∧
    (Config.base ≤ op.addr ∧ op.addr < Config.base + 0x100 → op.width = .word → (op.addr - Config.base) % 4 ≠ 0 →
      after (.bus op) s = .refused .misalignedAccess) ∧
    (op.wellFormed → ∃ t, after (.bus op) s = .next t)

/-- R48, R280, U1: RK before the first KEY_EXPAND cannot be observed. Two runs from states without a key that differ only in
RK go on alike for any number of steps: same reads, same state but for RK. -/
def Obligations.UnexpandedKeyScheduleIsUnobservable : Prop :=
  ∀ (n : Nat) (s t : State) (rk : List Word), Inv s → s.keyValid = false → Sys2Proof.core.run n s = .next t →
    ∃ t', Sys2Proof.core.run n { s with rk := rk } = .next t' ∧ t'.returned = t.returned ∧ { t' with rk := t.rk } = t ∧
      (t.keyValid = true → t' = t)

/-- R38, R48-R52, R73, R266: no bus read returns anything that depends on the key, RK, H, J0, IVSAVE, LEN_IV or PEND. -/
def Obligations.SecretsAreNotReadable : Prop :=
  ∀ (s : State) (off : Nat) (key : Vector Word 8) (rk : List Word) (h j0 ivsave : Block) (lenIv : Count) (pend : Word),
    IsOffset off →
    after (readAt off) (withSecrets key rk h j0 ivsave lenIv pend s) =
      onNext (withSecrets key rk h j0 ivsave lenIv pend) (after (readAt off) s)

/-- R214: the CBC-MAC commands neither read nor write the GCM engine's registers or DOUT, and the GCM commands neither read
nor write MAC. -/
def Obligations.CbcMacAndGcmAreIndependent : Prop :=
  (∀ (i : Instr) (s : State) (phase : Phase) (y h j0 ctr ivsave : Block) (lenA lenC lenIv : Count) (dout : Block),
    i ∈ [Instr.cbcmacInit, .cbcmacBlock, .cbcmacFinal] →
    exec i { withGcmRegs phase y h j0 ctr ivsave lenA lenC lenIv s with dout := dout } =
      onNext (fun t => { withGcmRegs phase y h j0 ctr ivsave lenA lenC lenIv t with dout := dout }) (exec i s)) ∧
  (∀ (i : Instr) (s : State) (mac : Block),
    i ∈ [Instr.gcmInit, .gcmIv, .gcmIvFinal, .gcmAad, .gcmEnc, .gcmDec, .gcmFinal] →
    exec i { s with mac := mac } = onNext (fun t => { t with mac := mac }) (exec i s))

/-! ## The commands' results: each completes, with the whole next state -/

/-- R114: NOP always succeeds and has no effect beyond completion; from an idle block, issuing it leaves every register
unchanged except DONE = 1, ERRCODE = 0 and AUTH_OK = 0 (and PEND, which captures the word). -/
def Obligations.NopOnlyCompletes : Prop :=
  decode 0x00000000#32 = .ok .nop ∧
  (∀ s : State, exec .nop s = .next { s with errcode := .ok, busy := false, done := true }) ∧
  ∀ s : State, s.busy = false →
    ∃ t, after (writeAt 0x008 0x00000000#32) s = .next t ∧
      after .engine t = .next { s with pend := 0#32, done := true, errcode := .ok, authOk := false }

/-- R147: KEY_EXPAND. -/
def Obligations.KeyExpandResult : Prop :=
  decode 0x00000001#32 = .ok .keyExpand ∧
  ∀ s : State,
    (s.keylen.toNat ≠ 16 → s.keylen.toNat ≠ 32 →
      exec .keyExpand s = .next { s with errcode := .invalidKeyLength, busy := false, done := true }) ∧
    (s.keylen.toNat = 16 → exec .keyExpand s =
      .next { s with
        rk := expandKey 4 [s.key[0], s.key[1], s.key[2], s.key[3]], nr := .ten, keyValid := true, key256 := false,
        phase := .idle, errcode := .ok, busy := false, done := true }) ∧
    (s.keylen.toNat = 32 → exec .keyExpand s =
      .next { s with
        rk := expandKey 8 [s.key[0], s.key[1], s.key[2], s.key[3], s.key[4], s.key[5], s.key[6], s.key[7]],
        nr := .fourteen, keyValid := true, key256 := true, phase := .idle, errcode := .ok, busy := false, done := true })

/-- R148: AES_ENC, in every PHASE and for every DLEN. -/
def Obligations.AesEncResult : Prop :=
  decode 0x00000002#32 = .ok .aesEnc ∧
  ∀ s : State,
    (s.keyValid = false → exec .aesEnc s = .next { s with errcode := .noKey, busy := false, done := true }) ∧
    (s.keyValid = true → exec .aesEnc s =
      .next { s with dout := aesCipher s.rk s.nr s.din, errcode := .ok, busy := false, done := true })

/-- R165, R166, R167: the three GHASH commands, which need no key and only run while PHASE = IDLE. -/
def Obligations.GhashCommandResults : Prop :=
  decode 0x00000010#32 = .ok .ghashLoadh ∧
  decode 0x00000011#32 = .ok .ghashClear ∧
  decode 0x00000012#32 = .ok .ghashBlock ∧
  ∀ s : State,
    (s.phase ≠ .idle → ∀ i ∈ [Instr.ghashLoadh, .ghashClear, .ghashBlock],
      exec i s = .next { s with errcode := .sequence, busy := false, done := true }) ∧
    (s.phase = .idle →
      exec .ghashLoadh s = .next { s with h := s.din, errcode := .ok, busy := false, done := true } ∧
      exec .ghashClear s = .next { s with y := 0#128, errcode := .ok, busy := false, done := true } ∧
      exec .ghashBlock s =
        .next { s with y := gmul (s.y ^^^ s.din) s.h, errcode := .ok, busy := false, done := true })

/-- R184: GCM_INIT, in every PHASE. -/
def Obligations.GcmInitResult : Prop :=
  decode 0x00000020#32 = .ok .gcmInit ∧
  ∀ s : State,
    (s.keyValid = false → exec .gcmInit s = .next { s with errcode := .noKey, busy := false, done := true }) ∧
    (s.keyValid = true → exec .gcmInit s =
      .next { s with
        h := aesCipher s.rk s.nr 0#128, y := 0#128, lenA := 0#64, lenC := 0#64, lenIv := 0#64, ivsave := 0#128,
        j0 := 0#128, ctr := 0#128, phase := .ivOpen, errcode := .ok, busy := false, done := true })

/-- R185: GCM_IV. -/
def Obligations.GcmIvResult : Prop :=
  decode 0x00000021#32 = .ok .gcmIv ∧
  ∀ s : State,
    (s.phase ≠ .ivOpen → exec .gcmIv s = .next { s with errcode := .sequence, busy := false, done := true }) ∧
    (s.phase = .ivOpen → (s.dlen.toNat < 1 ∨ 16 < s.dlen.toNat) →
      exec .gcmIv s = .next { s with errcode := .invalidDlen, busy := false, done := true }) ∧
    (s.phase = .ivOpen → 1 ≤ s.dlen.toNat → s.dlen.toNat ≤ 16 → exec .gcmIv s =
      .next { s with
        ivsave := if s.lenIv = 0#64 then mask16 s.din s.dlen.toNat else s.ivsave
        y := gmul (s.y ^^^ mask16 s.din s.dlen.toNat) s.h
        lenIv := s.lenIv + BitVec.ofNat 64 (8 * s.dlen.toNat)
        phase := if s.dlen.toNat = 16 then .ivOpen else .ivClosed
        errcode := .ok, busy := false, done := true })

/-- R186: GCM_IV_FINAL, with the 96-bit fast path. -/
def Obligations.GcmIvFinalResult : Prop :=
  decode 0x00000022#32 = .ok .gcmIvFinal ∧
  ∀ s : State,
    (s.phase ≠ .ivOpen → s.phase ≠ .ivClosed →
      exec .gcmIvFinal s = .next { s with errcode := .sequence, busy := false, done := true }) ∧
    (s.phase = .ivOpen ∨ s.phase = .ivClosed → s.lenIv = 0#64 →
      exec .gcmIvFinal s = .next { s with errcode := .invalidNonceLength, busy := false, done := true }) ∧
    (s.phase = .ivOpen ∨ s.phase = .ivClosed → s.lenIv ≠ 0#64 →
      ∃ j, exec .gcmIvFinal s =
        .next { s with j0 := j, y := 0#128, ctr := j, phase := .aadOpen, errcode := .ok, busy := false, done := true } ∧
      (s.lenIv = 96#64 →
        (∀ k, k < 12 → byteOf j k = byteOf s.ivsave k) ∧ byteOf j 12 = 0 ∧ byteOf j 13 = 0 ∧ byteOf j 14 = 0 ∧
          byteOf j 15 = 1) ∧
      (s.lenIv ≠ 96#64 → j = gmul (s.y ^^^ (0#64 ++ s.lenIv)) s.h))

/-- R187: GCM_AAD. -/
def Obligations.GcmAadResult : Prop :=
  decode 0x00000023#32 = .ok .gcmAad ∧
  ∀ s : State,
    (s.phase ≠ .aadOpen → exec .gcmAad s = .next { s with errcode := .sequence, busy := false, done := true }) ∧
    (s.phase = .aadOpen → (s.dlen.toNat < 1 ∨ 16 < s.dlen.toNat) →
      exec .gcmAad s = .next { s with errcode := .invalidDlen, busy := false, done := true }) ∧
    (s.phase = .aadOpen → 1 ≤ s.dlen.toNat → s.dlen.toNat ≤ 16 → exec .gcmAad s =
      .next { s with
        y := gmul (s.y ^^^ mask16 s.din s.dlen.toNat) s.h
        lenA := s.lenA + BitVec.ofNat 64 (8 * s.dlen.toNat)
        phase := if s.dlen.toNat = 16 then .aadOpen else .aadClosed
        errcode := .ok, busy := false, done := true })

/-- R188: GCM_ENC: the counter is incremented first, and GHASH takes the ciphertext. -/
def Obligations.GcmEncResult : Prop :=
  decode 0x00000024#32 = .ok .gcmEnc ∧
  ∀ s : State,
    (s.phase ∉ [Phase.aadOpen, .aadClosed, .dataOpen] →
      exec .gcmEnc s = .next { s with errcode := .sequence, busy := false, done := true }) ∧
    (s.phase ∈ [Phase.aadOpen, .aadClosed, .dataOpen] → (s.dlen.toNat < 1 ∨ 16 < s.dlen.toNat) →
      exec .gcmEnc s = .next { s with errcode := .invalidDlen, busy := false, done := true }) ∧
    (s.phase ∈ [Phase.aadOpen, .aadClosed, .dataOpen] → 1 ≤ s.dlen.toNat → s.dlen.toNat ≤ 16 →
      ∃ c, c = mask16 (s.din ^^^ aesCipher s.rk s.nr (inc32 s.ctr)) s.dlen.toNat ∧ exec .gcmEnc s =
        .next { s with
          ctr := inc32 s.ctr, dout := c, y := gmul (s.y ^^^ c) s.h
          lenC := s.lenC + BitVec.ofNat 64 (8 * s.dlen.toNat)
          phase := if s.dlen.toNat = 16 then .dataOpen else .dataClosed
          errcode := .ok, busy := false, done := true })

/-- R189: GCM_DEC: as GCM_ENC, but GHASH takes the supplied ciphertext. -/
def Obligations.GcmDecResult : Prop :=
  decode 0x00000025#32 = .ok .gcmDec ∧
  ∀ s : State,
    (s.phase ∉ [Phase.aadOpen, .aadClosed, .dataOpen] →
      exec .gcmDec s = .next { s with errcode := .sequence, busy := false, done := true }) ∧
    (s.phase ∈ [Phase.aadOpen, .aadClosed, .dataOpen] → (s.dlen.toNat < 1 ∨ 16 < s.dlen.toNat) →
      exec .gcmDec s = .next { s with errcode := .invalidDlen, busy := false, done := true }) ∧
    (s.phase ∈ [Phase.aadOpen, .aadClosed, .dataOpen] → 1 ≤ s.dlen.toNat → s.dlen.toNat ≤ 16 → exec .gcmDec s =
      .next { s with
        ctr := inc32 s.ctr
        dout := mask16 (s.din ^^^ aesCipher s.rk s.nr (inc32 s.ctr)) s.dlen.toNat
        y := gmul (s.y ^^^ mask16 s.din s.dlen.toNat) s.h
        lenC := s.lenC + BitVec.ofNat 64 (8 * s.dlen.toNat)
        phase := if s.dlen.toNat = 16 then .dataOpen else .dataClosed
        errcode := .ok, busy := false, done := true })

/-- R190, R260: GCM_FINAL: the tag over the length block, the comparison of its first TAGLEN bytes, and back to IDLE; a failed
comparison is no error. -/
def Obligations.GcmFinalResult : Prop :=
  decode 0x00000026#32 = .ok .gcmFinal ∧
  ∀ s : State,
    (s.phase ∉ [Phase.aadOpen, .aadClosed, .dataOpen, .dataClosed] →
      exec .gcmFinal s = .next { s with errcode := .sequence, busy := false, done := true }) ∧
    (s.phase ∈ [Phase.aadOpen, .aadClosed, .dataOpen, .dataClosed] → (s.taglen.toNat < 1 ∨ 16 < s.taglen.toNat) →
      exec .gcmFinal s = .next { s with errcode := .invalidTagLength, busy := false, done := true }) ∧
    (s.phase ∈ [Phase.aadOpen, .aadClosed, .dataOpen, .dataClosed] → 1 ≤ s.taglen.toNat → s.taglen.toNat ≤ 16 →
      ∃ hash tag auth, hash = gmul (s.y ^^^ (s.lenA ++ s.lenC)) s.h ∧ tag = aesCipher s.rk s.nr s.j0 ^^^ hash ∧
        (auth = true ↔ ∀ k, k < s.taglen.toNat → byteOf tag k = byteOf s.exptag k) ∧
        exec .gcmFinal s =
          .next { s with
            y := hash, tag := tag, authOk := auth, phase := .idle, errcode := .ok, busy := false, done := true })

/-- R211, R212, R213: the three CBC-MAC commands, in every PHASE. -/
def Obligations.CbcMacCommandResults : Prop :=
  decode 0x00000030#32 = .ok .cbcmacInit ∧
  decode 0x00000031#32 = .ok .cbcmacBlock ∧
  decode 0x00000032#32 = .ok .cbcmacFinal ∧
  ∀ s : State,
    exec .cbcmacInit s = .next { s with mac := 0#128, errcode := .ok, busy := false, done := true } ∧
    (s.keyValid = false → exec .cbcmacBlock s = .next { s with errcode := .noKey, busy := false, done := true }) ∧
    (s.keyValid = true → exec .cbcmacBlock s =
      .next { s with mac := aesCipher s.rk s.nr (s.mac ^^^ s.din), errcode := .ok, busy := false, done := true }) ∧
    (s.taglen.toNat < 1 ∨ 16 < s.taglen.toNat →
      exec .cbcmacFinal s = .next { s with errcode := .invalidTagLength, busy := false, done := true }) ∧
    (1 ≤ s.taglen.toNat → s.taglen.toNat ≤ 16 →
      ∃ auth, (auth = true ↔ ∀ k, k < s.taglen.toNat → byteOf (s.mac ^^^ s.din) k = byteOf s.exptag k) ∧
        exec .cbcmacFinal s =
          .next { s with tag := s.mac ^^^ s.din, authOk := auth, errcode := .ok, busy := false, done := true })

/-! ## The datapath -/

/-- R130, R132: gf8Mul is the product of polynomials over GF(2) modulo x^8 + x^4 + x^3 + x + 1. -/
def Obligations.Gf8MulIsPolynomialProduct : Prop :=
  ∀ a b : Byte,
    let p := fun c : Byte => ∑ k ∈ Finset.range 8, if c.getLsbD k then (Polynomial.X : Polynomial (ZMod 2)) ^ k else 0
    (Polynomial.X ^ 8 + Polynomial.X ^ 4 + Polynomial.X ^ 3 + Polynomial.X + 1 : Polynomial (ZMod 2)) ∣
      p (gf8Mul a b) - p a * p b

/-- R132, R133, R134: gf8Inv is an inverse, 0 for 0, and the SBOX table is the affine image of the inverse, bit by bit. -/
def Obligations.SboxIsAffineOfInverse : Prop :=
  (∀ a : Byte, a ≠ 0 → gf8Mul a (gf8Inv a) = 0x01#8) ∧ gf8Inv 0x00#8 = 0x00#8 ∧
  ∀ (x : Byte) (k : Fin 8),
    let b := gf8Inv x
    (sbox x).getLsbD k =
      (b.getLsbD k ^^ b.getLsbD ((k + 4) % 8) ^^ b.getLsbD ((k + 5) % 8) ^^ b.getLsbD ((k + 6) % 8) ^^
        b.getLsbD ((k + 7) % 8) ^^ (0x63#8).getLsbD k)

/-- R135-R139, R145: the state mapping and the four transformations, cell by cell, with the rules' examples. -/
def Obligations.AesTransformationsByCell : Prop :=
  (∀ a : Byte, gf8Mul 2 a = xtime a ∧ gf8Mul 3 a = xtime a ^^^ a) ∧
  shiftRows 0x000102030405060708090a0b0c0d0e0f#128 = 0x00050a0f04090e03080d02070c01060b#128 ∧
  mixColumns 0xdb135345db135345db135345db135345#128 = 0x8e4da1bc8e4da1bc8e4da1bc8e4da1bc#128 ∧
  ∀ (b : Block) (w : List Word) (rnd : Nat), ofCells (cell b) = b ∧
    ∀ c, c < 4 →
      (∀ r, r < 4 → cell b r c = byteOf b (r + 4 * c) ∧ cell (subBytes b) r c = sbox (cell b r c) ∧
        cell (shiftRows b) r c = cell b r ((c + r) % 4) ∧
        cell (addRoundKey w rnd b) r c = cell b r c ^^^ wordByte (w.getD (4 * rnd + c) 0) r) ∧
      cell (mixColumns b) 0 c =
        gf8Mul 2 (cell b 0 c) ^^^ gf8Mul 3 (cell b 1 c) ^^^ gf8Mul 1 (cell b 2 c) ^^^ gf8Mul 1 (cell b 3 c) ∧
      cell (mixColumns b) 1 c =
        gf8Mul 1 (cell b 0 c) ^^^ gf8Mul 2 (cell b 1 c) ^^^ gf8Mul 3 (cell b 2 c) ^^^ gf8Mul 1 (cell b 3 c) ∧
      cell (mixColumns b) 2 c =
        gf8Mul 1 (cell b 0 c) ^^^ gf8Mul 1 (cell b 1 c) ^^^ gf8Mul 2 (cell b 2 c) ^^^ gf8Mul 3 (cell b 3 c) ∧
      cell (mixColumns b) 3 c =
        gf8Mul 3 (cell b 0 c) ^^^ gf8Mul 1 (cell b 1 c) ^^^ gf8Mul 1 (cell b 2 c) ^^^ gf8Mul 2 (cell b 3 c)

/-- R143: the words of the key expansion satisfy the recurrence, for keys of 4 and of 8 words, with the rule's example. -/
def Obligations.KeyExpansionRecurrence : Prop :=
  (expandKey 4 [0x2b7e1516, 0x28aed2a6, 0xabf71588, 0x09cf4f3c]).getD 4 0 = 0xa0fafe17#32 ∧
  (expandKey 4 [0x2b7e1516, 0x28aed2a6, 0xabf71588, 0x09cf4f3c]).getD 43 0 = 0xb6630ca6#32 ∧
  ∀ (nk : Nat) (key : List Word), (nk = 4 ∨ nk = 8) → key.length = nk →
    let w := expandKey nk key
    w.length = 4 * (nk + 7) ∧ w.take nk = key ∧
    ∀ i, nk ≤ i → i < 4 * (nk + 7) →
      w.getD i 0 = w.getD (i - nk) 0 ^^^
        (if i % nk = 0 then subWord (rotWord (w.getD (i - 1) 0)) ^^^ rcon (i / nk)
         else if nk = 8 ∧ i % nk = 4 then subWord (w.getD (i - 1) 0) else w.getD (i - 1) 0)

/-- R143, R146, R148: worked examples of the spec: the FIPS-197 cipher examples for both key lengths, and the zero key. -/
def Obligations.AesKnownAnswers : Prop :=
  (expandKey 4 [0x2b7e1516, 0x28aed2a6, 0xabf71588, 0x09cf4f3c]).getD 43 0 = 0xb6630ca6#32 ∧
  aesCipher (expandKey 4 [0x00010203, 0x04050607, 0x08090a0b, 0x0c0d0e0f]) .ten 0x00112233445566778899aabbccddeeff#128 =
    0x69c4e0d86a7b0430d8cdb78070b4c55a#128 ∧
  aesCipher (expandKey 8 [0x00010203, 0x04050607, 0x08090a0b, 0x0c0d0e0f, 0x10111213, 0x14151617, 0x18191a1b, 0x1c1d1e1f])
    .fourteen 0x00112233445566778899aabbccddeeff#128 = 0x8ea2b7ca516745bfeafc49904b496089#128 ∧
  aesCipher (expandKey 4 [0, 0, 0, 0]) .ten 0 = 0x66e94bd4ef8a2c3b884cfa59ca342b2e#128

/-- R160, R161, R162: gmul is the product of polynomials over GF(2) modulo α^128 + α^7 + α^2 + α + 1, the coefficient of α^k
being bit x_k of the block. -/
def Obligations.GmulIsPolynomialProduct : Prop :=
  ∀ x y : Block,
    let p := fun b : Block =>
      ∑ k ∈ Finset.range 128, if b.getLsbD (127 - k) then (Polynomial.X : Polynomial (ZMod 2)) ^ k else 0
    (Polynomial.X ^ 128 + Polynomial.X ^ 7 + Polynomial.X ^ 2 + Polynomial.X + 1 : Polynomial (ZMod 2)) ∣
      p (gmul x y) - p x * p y

/-- R163: the laws of gmul that the rule lists: commutative, zero, identity, distribution over xor, associative; and the rule's corner case. -/
def Obligations.GmulObeysFieldLaws : Prop :=
  (∀ x y : Block, gmul x y = gmul y x) ∧ (∀ x : Block, gmul x 0#128 = 0#128) ∧
  (∀ y : Block, gmul 0x80000000000000000000000000000000#128 y = y) ∧
  (∀ x x' y : Block, gmul (x ^^^ x') y = gmul x y ^^^ gmul x' y) ∧
  (∀ x y z : Block, gmul (gmul x y) z = gmul x (gmul y z)) ∧
  gmul 1#128 1#128 = 0xe6080000000000000000000000000003#128

/-- R181: inc32 leaves bytes 0..11 and increments bytes 12..15, read big-endian, modulo 2^32. R290, R240 duty 5: J0 and the
counter blocks of a message of at most 2^32 - 2 data blocks all differ, and 2^32 increments come back to J0. -/
def Obligations.Inc32WrapsInLowWord : Prop :=
  (∀ b : Block, (∀ k, k < 12 → byteOf (inc32 b) k = byteOf b k) ∧
    (blockWord (inc32 b) 3).toNat = ((blockWord b 3).toNat + 1) % 2 ^ 32) ∧
  inc32 0xffffffffffffffffffffffffffffffff#128 = 0xffffffffffffffffffffffff00000000#128 ∧
  (∀ (j0 : Block) (i j : Nat), i < j → j ≤ maxDataBlocks → inc32^[i] j0 ≠ inc32^[j] j0) ∧
  ∀ (j0 : Block) (n : Nat), n = 2 ^ 32 → inc32^[n] j0 = j0

/-- R183: ct_eq compares the first n bytes, and no others. -/
def Obligations.CtEqComparesFirstBytes : Prop :=
  ∀ (t e : Block) (n : Nat), 1 ≤ n → n ≤ 16 → (ctEq t e n = true ↔ ∀ k, k < n → byteOf t k = byteOf e k)

/-- R11, R12, R62: bytes and words of a block, mask16, and the block of a byte string. -/
def Obligations.BlockBytesAndMask : Prop :=
  (∀ (f : Nat → Byte) (k : Nat), k < 16 → byteOf (ofBytes f) k = f k) ∧
  (∀ b : Block, ofBytes (byteOf b) = b) ∧
  (∀ (b : Block) (n k : Nat), 1 ≤ n → n ≤ 16 → k < 16 → byteOf (mask16 b n) k = if k < n then byteOf b k else 0) ∧
  (∀ (b : Block) (i r : Nat), i < 4 → r < 4 → wordByte (blockWord b i) r = byteOf b (4 * i + r)) ∧
  (∀ b : Block, blockOfWords (blockWord b 0) (blockWord b 1) (blockWord b 2) (blockWord b 3) = b)

/-! ## What command sequences compute -/

/-- R164: GHASH_CLEAR, then GHASH_BLOCK on each block in turn, gives GHASH_H of the blocks in Y, and touches nothing else but
DIN and STATUS. -/
def Obligations.GhashSequenceComputesGhash : Prop :=
  ∀ (xs : List Block) (s : State), s.phase = .idle →
    ∃ t u, exec .ghashClear s = .next t ∧ feed .ghashBlock xs t = .next u ∧ u.y = ghash s.h xs ∧
      u = { s with y := u.y, din := u.din, errcode := .ok, busy := false, done := true }

/-- R210: CBCMAC_INIT, then CBCMAC_BLOCK on each block in turn, gives CBCMAC of the blocks in MAC, and touches nothing else
but DIN and STATUS. -/
def Obligations.CbcMacSequenceComputesCbcMac : Prop :=
  ∀ (xs : List Block) (s : State), s.keyValid = true →
    ∃ t u, exec .cbcmacInit s = .next t ∧ feed .cbcmacBlock xs t = .next u ∧
      u.mac = xs.foldl (fun m x => aesCipher s.rk s.nr (m ^^^ x)) 0#128 ∧
      u = { s with mac := u.mac, din := u.din, errcode := .ok, busy := false, done := true }

/-- R226: the facade's checks, in order: whatever the state, the first input out of contract gives its error, and the
state it stops in is the one it was called in: it issued no command. -/
def Obligations.FacadeRejectsInOrder : Prop :=
  ∀ (key iv msg aad tag : List Byte) (t : Nat) (s : State),
    ((key.length ≠ 16 ∧ key.length ≠ 32) →
      (gcmEncrypt key iv msg aad).run s = .error (.rejected .invalidKeyLength s) ∧
      (gcmDecrypt key iv msg aad tag).run s = .error (.rejected .invalidKeyLength s) ∧
      (ccmEncrypt key iv msg aad t).run s = .error (.rejected .invalidKeyLength s) ∧
      (ccmDecrypt key iv msg aad tag).run s = .error (.rejected .invalidKeyLength s)) ∧
    ((key.length = 16 ∨ key.length = 32) →
      (iv.length = 0 → (gcmEncrypt key iv msg aad).run s = .error (.rejected .invalidNonceLength s) ∧
        (gcmDecrypt key iv msg aad tag).run s = .error (.rejected .invalidNonceLength s)) ∧
      (1 ≤ iv.length → (tag.length = 0 ∨ 16 < tag.length) →
        (gcmDecrypt key iv msg aad tag).run s = .error (.rejected .invalidTagLength s)) ∧
      ((iv.length < 7 ∨ 13 < iv.length) →
        (ccmEncrypt key iv msg aad t).run s = .error (.rejected .invalidNonceLength s) ∧
        (ccmDecrypt key iv msg aad tag).run s = .error (.rejected .invalidNonceLength s)) ∧
      (7 ≤ iv.length → iv.length ≤ 13 →
        (t ∉ [4, 6, 8, 10, 12, 14, 16] →
          (ccmEncrypt key iv msg aad t).run s = .error (.rejected .invalidTagLength s)) ∧
        (tag.length ∉ [4, 6, 8, 10, 12, 14, 16] →
          (ccmDecrypt key iv msg aad tag).run s = .error (.rejected .invalidTagLength s)) ∧
        (2 ^ (8 * (15 - iv.length)) ≤ msg.length →
          (t ∈ [4, 6, 8, 10, 12, 14, 16] →
            (ccmEncrypt key iv msg aad t).run s = .error (.rejected .messageTooLong s)) ∧
          (tag.length ∈ [4, 6, 8, 10, 12, 14, 16] →
            (ccmDecrypt key iv msg aad tag).run s = .error (.rejected .messageTooLong s)))))

/-- R180, R191, R227: the host procedure gcm.encrypt, run on the block from any state with BUSY = 0, returns exactly GCM's
ciphertext and tag. The length bounds are be_8's (R12); a message that keeps R240's duty 5 meets the one on the data, and of
longer ones the block's behaviour stays defined (U15; logs 25, 27). -/
def Obligations.GcmEncryptComputesGcm : Prop :=
  ∀ (key iv pt aad : List Byte) (s : State), s.busy = false → (key.length = 16 ∨ key.length = 32) →
    1 ≤ iv.length → 8 * iv.length < 2 ^ 64 → 8 * pt.length < 2 ^ 64 → 8 * aad.length < 2 ^ 64 →
    ∃ u, (gcmEncrypt key iv pt aad).run s =
      .ok (⟨(gcmSeal key iv pt aad).1, (gcmSeal key iv pt aad).2⟩, u) ∧ u.busy = false ∧ u.phase = .idle

/-- R180, R191, R228, R229: gcm.decrypt returns the plaintext in every case, and auth_ok exactly when the first len(tag) bytes
of the recomputed tag are the supplied tag. The length bounds are be_8's (R12); a message that keeps R240's duty 5 meets the
one on the data (U15; logs 25, 27). -/
def Obligations.GcmDecryptComputesGcm : Prop :=
  ∀ (key iv ct aad tag : List Byte) (s : State), s.busy = false → (key.length = 16 ∨ key.length = 32) →
    1 ≤ iv.length → 1 ≤ tag.length → tag.length ≤ 16 →
    8 * iv.length < 2 ^ 64 → 8 * ct.length < 2 ^ 64 → 8 * aad.length < 2 ^ 64 →
    ∃ u, (gcmDecrypt key iv ct aad tag).run s =
      .ok (⟨(gcmOpen key iv ct aad tag).1, (gcmOpen key iv ct aad tag).2⟩, u) ∧ u.busy = false ∧ u.phase = .idle

/-- R230-R237: ccm.encrypt, run on the block from any state with BUSY = 0, returns the CCM ciphertext and tag: CBC-MAC over
B0, the formatted AAD and the padded plaintext, masked with S0. -/
def Obligations.CcmEncryptComputesCcm : Prop :=
  ∀ (key n pt aad : List Byte) (t : Nat) (s : State), s.busy = false → (key.length = 16 ∨ key.length = 32) →
    7 ≤ n.length → n.length ≤ 13 → t ∈ [4, 6, 8, 10, 12, 14, 16] → pt.length < 2 ^ (8 * (15 - n.length)) →
    aad.length < 2 ^ 64 →
    ∃ u, (ccmEncrypt key n pt aad t).run s =
      .ok (⟨(ccmSeal key n pt aad t).1, (ccmSeal key n pt aad t).2⟩, u) ∧ u.busy = false

/-- R230-R238: ccm.decrypt returns the plaintext in every case, and auth_ok exactly when the recomputed tag is the supplied
one. -/
def Obligations.CcmDecryptComputesCcm : Prop :=
  ∀ (key n ct aad tag : List Byte) (s : State), s.busy = false → (key.length = 16 ∨ key.length = 32) →
    7 ≤ n.length → n.length ≤ 13 → tag.length ∈ [4, 6, 8, 10, 12, 14, 16] → ct.length < 2 ^ (8 * (15 - n.length)) →
    aad.length < 2 ^ 64 →
    ∃ u, (ccmDecrypt key n ct aad tag).run s =
      .ok (⟨(ccmOpen key n ct aad tag).1, (ccmOpen key n ct aad tag).2⟩, u) ∧ u.busy = false
end

