-- ==== Sys2Proof/Laws/Bits.lean ====
section
/-! SUPPORT. Bytes, words and blocks, bit by bit: what each assembling function's bits are, and that taking apart and
putting together are inverse. -/

namespace Sys2Proof.Machine

/-- Bit `k` of byte `i` of a block. -/
theorem byteOf_getLsbD (b : Block) (i k : Nat) (hk : k < 8) :
    (byteOf b i).getLsbD k = b.getLsbD (8 * (15 - i) + k) := by
  simp [byteOf, hk]

/-- Bit `k` of byte `i` of a word. -/
theorem wordByte_getLsbD (w : Word) (i k : Nat) (hk : k < 8) :
    (wordByte w i).getLsbD k = w.getLsbD (8 * (3 - i) + k) := by
  simp [wordByte, hk]

/-- Bit `k` of word `i` of a block. -/
theorem blockWord_getLsbD (b : Block) (i k : Nat) (hk : k < 32) :
    (blockWord b i).getLsbD k = b.getLsbD (32 * (3 - i) + k) := by
  simp [blockWord, hk]

/-- The bits of four words put together. -/
theorem blockOfWords_getLsbD (w0 w1 w2 w3 : Word) (k : Nat) :
    (blockOfWords w0 w1 w2 w3).getLsbD k =
      if k < 32 then w3.getLsbD k
      else if k < 64 then w2.getLsbD (k - 32)
      else if k < 96 then w1.getLsbD (k - 64)
      else w0.getLsbD (k - 96) := by
  have h3 : (blockOfWords w0 w1 w2 w3).getLsbD k = _ :=
    BitVec.getLsbD_append (x := w0 ++ w1 ++ w2) (y := w3) (i := k)
  rw [h3, BitVec.getLsbD_append, BitVec.getLsbD_append]
  by_cases h : k < 32
  · simp [h]
  · by_cases h' : k < 64
    · have : k - 32 < 32 := by omega
      simp [h, h', this]
    · by_cases h'' : k < 96
      · have : ¬ k - 32 < 32 := by omega
        have : k - 32 - 32 < 32 := by omega
        have : k - 64 < 32 := by omega
        simp [*, show k - 32 - 32 = k - 64 by omega]
      · have : ¬ k - 32 < 32 := by omega
        have : ¬ k - 32 - 32 < 32 := by omega
        simp [*, show k - 32 - 32 - 32 = k - 96 by omega]

/-- Word `i` of four words put together. -/
theorem blockWord_blockOfWords (w0 w1 w2 w3 : Word) (i : Nat) (hi : i < 4) :
    blockWord (blockOfWords w0 w1 w2 w3) i = [w0, w1, w2, w3].getD i 0 := by
  apply BitVec.eq_of_getLsbD_eq
  intro k hk
  rw [blockWord_getLsbD _ _ _ hk, blockOfWords_getLsbD]
  interval_cases i
  · simp [show ¬ 32 * (3 - 0) + k < 32 by omega, show ¬ 32 * (3 - 0) + k < 64 by omega,
      show ¬ 32 * (3 - 0) + k < 96 by omega]
  · simp [show ¬ 32 * (3 - 1) + k < 32 by omega, show ¬ 32 * (3 - 1) + k < 64 by omega,
      show 32 * (3 - 1) + k < 96 by omega]
  · simp [show ¬ 32 * (3 - 2) + k < 32 by omega, show 32 * (3 - 2) + k < 64 by omega]
  · simp [hk]

/-- Word `j` of a 128-bit register after the host wrote its word `i`. -/
theorem blockWord_setBlockWord (b : Block) (i j : Nat) (v : Word) (hj : j < 4) :
    blockWord (setBlockWord b i v) j = if j = i then v else blockWord b j := by
  unfold setBlockWord
  rw [blockWord_blockOfWords _ _ _ _ _ hj]
  interval_cases j <;> simp

/-- Two blocks with the same four words are the same block. -/
theorem block_ext_words {a b : Block} (h : ∀ i, i < 4 → blockWord a i = blockWord b i) : a = b := by
  apply BitVec.eq_of_getLsbD_eq
  intro k hk
  have hw := congrArg (fun w : Word => w.getLsbD (k % 32)) (h (3 - k / 32) (by omega))
  rw [blockWord_getLsbD _ _ _ (by omega), blockWord_getLsbD _ _ _ (by omega),
    show 32 * (3 - (3 - k / 32)) + k % 32 = k by omega] at hw
  exact hw

/-- Two blocks with the same sixteen bytes are the same block. -/
theorem block_ext_bytes {a b : Block} (h : ∀ i, i < 16 → byteOf a i = byteOf b i) : a = b := by
  apply BitVec.eq_of_getLsbD_eq
  intro k hk
  have hw := congrArg (fun w : Byte => w.getLsbD (k % 8)) (h (15 - k / 8) (by omega))
  rw [byteOf_getLsbD _ _ _ (by omega), byteOf_getLsbD _ _ _ (by omega),
    show 8 * (15 - (15 - k / 8)) + k % 8 = k by omega] at hw
  exact hw

/-- The accumulator of `ofBytes` after `n` bytes: byte `j` of them stands `n - 1 - j` bytes up. -/
theorem ofBytes_acc_getLsbD (f : Nat → Byte) (n k : Nat) (hn : n ≤ 16) (hk : k < 128) :
    ((List.range n).foldl (fun (acc : Block) i => (acc <<< 8) ||| (f i).setWidth 128) 0).getLsbD k =
      (decide (k < 8 * n) && (f (n - 1 - k / 8)).getLsbD (k % 8)) := by
  induction n generalizing k with
  | zero => simp
  | succ n ih =>
    rw [List.range_succ, List.foldl_append]
    simp only [List.foldl_cons, List.foldl_nil, BitVec.getLsbD_or, BitVec.getLsbD_shiftLeft, BitVec.getLsbD_setWidth, hk]
    by_cases h8 : k < 8
    · have : k < 8 * (n + 1) := by omega
      simp [h8, this, show k / 8 = 0 by omega, show k % 8 = k by omega]
    · rw [ih (k - 8) (by omega) (by omega)]
      have h1 : (f n).getLsbD k = false := BitVec.getLsbD_of_ge _ _ (by omega)
      have h2 : (k - 8 < 8 * n) = (k < 8 * (n + 1)) := by apply propext; omega
      have h3 : n - 1 - (k - 8) / 8 = n + 1 - 1 - k / 8 := by omega
      have h4 : (k - 8) % 8 = k % 8 := by omega
      simp [h8, h1, h2, h3, h4]

/-- Bit `k` of the block of sixteen bytes. -/
theorem ofBytes_getLsbD (f : Nat → Byte) (k : Nat) (hk : k < 128) :
    (ofBytes f).getLsbD k = (f (15 - k / 8)).getLsbD (k % 8) := by
  have h := ofBytes_acc_getLsbD f 16 k (by omega) hk
  simp only [show k < 8 * 16 by omega, decide_true, Bool.true_and] at h
  exact h

/-- Byte `i` of the block whose bytes are `f`. -/
theorem byteOf_ofBytes (f : Nat → Byte) (i : Nat) (hi : i < 16) : byteOf (ofBytes f) i = f i := by
  apply BitVec.eq_of_getLsbD_eq
  intro k hk
  rw [byteOf_getLsbD _ _ _ hk, ofBytes_getLsbD _ _ (by omega)]
  congr 2 <;> omega

/-- Byte `i` of mask16(B, n). -/
theorem byteOf_mask16 (b : Block) (n i : Nat) (hi : i < 16) :
    byteOf (mask16 b n) i = if i < n then byteOf b i else 0 := byteOf_ofBytes _ _ hi

/-- Cell (r, c) of the block whose cells are `f`. -/
theorem cell_ofCells (f : Nat → Nat → Byte) (r c : Nat) (hr : r < 4) (hc : c < 4) : cell (ofCells f) r c = f r c := by
  unfold cell ofCells
  rw [byteOf_ofBytes _ _ (by omega)]
  congr 1 <;> omega

/-- The comparison's accumulator is 0 exactly when every byte pair is equal. -/
theorem ctEq_acc_eq_zero (t e : Block) (n : Nat) :
    (List.range n).foldl (fun (acc : Byte) i => acc ||| (byteOf t i ^^^ byteOf e i)) 0#8 = 0#8 ↔
      ∀ k, k < n → byteOf t k = byteOf e k := by
  induction n with
  | zero => simp
  | succ n ih =>
    rw [List.range_succ, List.foldl_append]
    simp only [List.foldl_cons, List.foldl_nil, BitVec.or_eq_zero_iff, BitVec.xor_eq_zero_iff, ih]
    constructor
    · intro ⟨h, hn⟩ k hk
      by_cases hk' : k = n
      · subst hk'; exact hn
      · exact h k (by omega)
    · intro h
      exact ⟨fun k hk => h k (by omega), h n (by omega)⟩

/-- Bit `k` of inc32(CB). -/
theorem inc32_getLsbD (b : Block) (k : Nat) :
    (inc32 b).getLsbD k =
      if k < 32 then (b.extractLsb' 0 32 + 1#32).getLsbD k else (b.extractLsb' 32 96).getLsbD (k - 32) :=
  BitVec.getLsbD_append (x := b.extractLsb' 32 96) (y := b.extractLsb' 0 32 + 1#32) (i := k)

/-- Bit `k` of the J0 of a 96-bit IV. -/
theorem j0Of96_getLsbD (b : Block) (k : Nat) :
    (j0Of96 b).getLsbD k = if k < 32 then (1#32).getLsbD k else (b.extractLsb' 32 96).getLsbD (k - 32) :=
  BitVec.getLsbD_append (x := b.extractLsb' 32 96) (y := 1#32) (i := k)

end Sys2Proof.Machine
end

