-- ==== Sys2Proof/Laws/Decode.lean ====
section
/-! SUPPORT. What the decoder and the encoder do, field by field. -/

namespace Sys2Proof

/-- OPC of a command's word. -/
theorem opcField_encode (i : Instr) : opcField (encode i) = opcode i := by cases i <;> rfl

/-- RSV of a command's word. -/
theorem rsvField_encode (i : Instr) : rsvField (encode i) = 0 := by cases i <;> rfl

/-- A word whose RSV is 0 is 0x000000 followed by its OPC. -/
theorem word_of_opcField {w : Word} (h : rsvField w = 0) : w = 0#24 ++ opcField w := by
  apply BitVec.eq_of_getLsbD_eq
  intro k hk
  have happ : (0#24 ++ opcField w : Word).getLsbD k = _ :=
    BitVec.getLsbD_append (x := 0#24) (y := opcField w) (i := k)
  rw [happ]
  by_cases h8 : k < 8
  · simp [h8, opcField]
  · have hr : (rsvField w).getLsbD (k - 8) = false := by rw [h]; simp
    simp only [rsvField, BitVec.getLsbD_extractLsb', show k - 8 < 24 by omega, decide_true, Bool.true_and,
      show 8 + (k - 8) = k by omega] at hr
    simp [h8, hr]

/-- The opcode map gives a command exactly for its own OPC. -/
theorem lookup_opcodeMap (o : Byte) (i : Instr) : opcodeMap.lookup o = some i ↔ o = opcode i := by
  constructor
  · intro h
    have hmem : (o, i) ∈ opcodeMap := by
      obtain ⟨l₁, l₂, hl, -⟩ := List.lookup_eq_some_iff.mp h
      rw [hl]
      simp
    have hall : ∀ p ∈ opcodeMap, p.1 = opcode p.2 := by decide
    exact hall _ hmem
  · rintro rfl
    cases i <;> rfl

/-- No two rows of the opcode map share an OPC. -/
theorem opcodeMap_nodup : (opcodeMap.map Prod.fst).Nodup := by decide

/-- When a word decodes to a command. -/
theorem decode_ok_iff {w : Word} {i : Instr} : decode w = .ok i ↔ rsvField w = 0 ∧ opcField w = opcode i := by
  unfold decode
  by_cases h0 : rsvField w = 0
  · rw [if_pos h0]
    cases h : opcodeMap.lookup (opcField w) with
    | none =>
      constructor
      · intro hd; cases hd
      · rintro ⟨-, he⟩
        rw [(lookup_opcodeMap _ i).mpr he] at h
        cases h
    | some j =>
      have hj := (lookup_opcodeMap _ j).mp h
      constructor
      · intro hd; cases hd; exact ⟨h0, hj⟩
      · rintro ⟨-, he⟩
        have hs := (lookup_opcodeMap _ i).mpr he
        rw [h] at hs
        exact congrArg Except.ok (Option.some.inj hs)
  · rw [if_neg h0]
    constructor
    · intro h; cases h
    · intro h; exact absurd h.1 h0

end Sys2Proof
end

