-- ==== Sys2Proof/Laws/Ops.lean ====
section
/-! SUPPORT. Everything the shared operations can do, said once: completion with its checks, and which effect each command
completes with. -/

namespace Sys2Proof.Machine

/-- The first failing check decides. -/
@[simp] theorem firstError_cons (b : Bool) (c : ErrCode) (rest : List (Bool × ErrCode)) :
    firstError ((b, c) :: rest) = if b then c else firstError rest := rfl

/-- With no check left nothing failed. -/
@[simp] theorem firstError_nil : firstError [] = .ok := rfl

/-- A completion either applies the effect or writes the first failing check's code. -/
theorem complete_cases (checks : List (Bool × ErrCode)) (effect : State → State) (s : State) :
    (firstError checks = .ok ∧ complete checks effect s = .next (effect s).succeed) ∨
      (firstError checks ≠ .ok ∧ complete checks effect s = .next (s.raiseError (firstError checks))) := by
  unfold complete
  by_cases h : firstError checks = .ok
  · exact .inl ⟨h, if_pos h⟩
  · exact .inr ⟨h, if_neg h⟩

/-- The checks each command makes, in order. -/
def checksOf (s : State) : Instr → List (Bool × ErrCode)
  | .nop | .cbcmacInit => []
  | .keyExpand => [(badKeyLength s, .invalidKeyLength)]
  | .aesEnc | .gcmInit | .cbcmacBlock => [(lacksKey s, .noKey)]
  | .ghashLoadh | .ghashClear | .ghashBlock => [(outOfPhase [.idle] s, .sequence)]
  | .gcmIv => [(outOfPhase [.ivOpen] s, .sequence), (badDataLength s, .invalidDlen)]
  | .gcmIvFinal => [(outOfPhase [.ivOpen, .ivClosed] s, .sequence), (emptyNonce s, .invalidNonceLength)]
  | .gcmAad => [(outOfPhase [.aadOpen] s, .sequence), (badDataLength s, .invalidDlen)]
  | .gcmEnc | .gcmDec =>
    [(outOfPhase [.aadOpen, .aadClosed, .dataOpen] s, .sequence), (badDataLength s, .invalidDlen)]
  | .gcmFinal =>
    [(outOfPhase [.aadOpen, .aadClosed, .dataOpen, .dataClosed] s, .sequence), (badTagLength s, .invalidTagLength)]
  | .cbcmacFinal => [(badTagLength s, .invalidTagLength)]

/-- The effect each command has when no check fails. -/
def effectOf : Instr → State → State
  | .nop => id
  | .keyExpand => keyExpandEffect
  | .aesEnc => aesEncEffect
  | .ghashLoadh => ghashLoadhEffect
  | .ghashClear => ghashClearEffect
  | .ghashBlock => ghashBlockEffect
  | .gcmInit => gcmInitEffect
  | .gcmIv => gcmIvEffect
  | .gcmIvFinal => gcmIvFinalEffect
  | .gcmAad => gcmAadEffect
  | .gcmEnc => gcmEncEffect
  | .gcmDec => gcmDecEffect
  | .gcmFinal => gcmFinalEffect
  | .cbcmacInit => cbcmacInitEffect
  | .cbcmacBlock => cbcmacBlockEffect
  | .cbcmacFinal => cbcmacFinalEffect

/-- Every command is one completion with its checks and its effect. -/
theorem exec_eq_complete (i : Instr) (s : State) : exec i s = complete (checksOf s i) (effectOf i) s := by
  cases i <;> rfl

/-- A command answers one of two next states: its effect's, or the one that reports its first failing check. -/
theorem exec_cases (i : Instr) (s : State) :
    (firstError (checksOf s i) = .ok ∧ exec i s = .next (effectOf i s).succeed) ∨
      (firstError (checksOf s i) ≠ .ok ∧ exec i s = .next (s.raiseError (firstError (checksOf s i)))) := by
  rw [exec_eq_complete]
  exact complete_cases _ _ _

/-- What a next state of a command is. -/
theorem exec_next_cases {i : Instr} {s t : State} (h : exec i s = .next t) :
    (firstError (checksOf s i) = .ok ∧ t = (effectOf i s).succeed) ∨
      (firstError (checksOf s i) ≠ .ok ∧ t = s.raiseError (firstError (checksOf s i))) := by
  rcases exec_cases i s with ⟨hc, he⟩ | ⟨hc, he⟩
  · rw [he] at h; cases h; exact .inl ⟨hc, rfl⟩
  · rw [he] at h; cases h; exact .inr ⟨hc, rfl⟩

/-- No effect writes an input register or a field that is not the engine's. -/
theorem effectOf_frame (i : Instr) (s : State) :
    (effectOf i s).toInputRegs = s.toInputRegs ∧ (effectOf i s).toSurroundings = s.toSurroundings ∧
      (effectOf i s).ovr = s.ovr := by
  cases i <;> exact ⟨rfl, rfl, rfl⟩

end Sys2Proof.Machine
end

