-- ==== Sys2Proof/Laws/State.lean ====
section
/-! SUPPORT. One lemma per field per named update of the state, so that no later proof unfolds an update. -/

namespace Sys2Proof.Machine

section accept

@[simp] theorem State_accept_busy (v : Word) (s : State) : (s.accept v).busy = true := rfl
@[simp] theorem State_accept_done (v : Word) (s : State) : (s.accept v).done = false := rfl
@[simp] theorem State_accept_authOk (v : Word) (s : State) : (s.accept v).authOk = false := rfl
@[simp] theorem State_accept_keyValid (v : Word) (s : State) : (s.accept v).keyValid = s.keyValid := rfl
@[simp] theorem State_accept_key256 (v : Word) (s : State) : (s.accept v).key256 = s.key256 := rfl
@[simp] theorem State_accept_ovr (v : Word) (s : State) : (s.accept v).ovr = s.ovr := rfl
@[simp] theorem State_accept_phase (v : Word) (s : State) : (s.accept v).phase = s.phase := rfl
@[simp] theorem State_accept_errcode (v : Word) (s : State) : (s.accept v).errcode = .ok := rfl
@[simp] theorem State_accept_pend (v : Word) (s : State) : (s.accept v).pend = v := rfl
@[simp] theorem State_accept_keylen (v : Word) (s : State) : (s.accept v).keylen = s.keylen := rfl
@[simp] theorem State_accept_dlen (v : Word) (s : State) : (s.accept v).dlen = s.dlen := rfl
@[simp] theorem State_accept_taglen (v : Word) (s : State) : (s.accept v).taglen = s.taglen := rfl
@[simp] theorem State_accept_key (v : Word) (s : State) : (s.accept v).key = s.key := rfl
@[simp] theorem State_accept_din (v : Word) (s : State) : (s.accept v).din = s.din := rfl
@[simp] theorem State_accept_exptag (v : Word) (s : State) : (s.accept v).exptag = s.exptag := rfl
@[simp] theorem State_accept_dout (v : Word) (s : State) : (s.accept v).dout = s.dout := rfl
@[simp] theorem State_accept_tag (v : Word) (s : State) : (s.accept v).tag = s.tag := rfl
@[simp] theorem State_accept_mac (v : Word) (s : State) : (s.accept v).mac = s.mac := rfl
@[simp] theorem State_accept_y (v : Word) (s : State) : (s.accept v).y = s.y := rfl
@[simp] theorem State_accept_ctr (v : Word) (s : State) : (s.accept v).ctr = s.ctr := rfl
@[simp] theorem State_accept_lenA (v : Word) (s : State) : (s.accept v).lenA = s.lenA := rfl
@[simp] theorem State_accept_lenC (v : Word) (s : State) : (s.accept v).lenC = s.lenC := rfl
@[simp] theorem State_accept_rk (v : Word) (s : State) : (s.accept v).rk = s.rk := rfl
@[simp] theorem State_accept_nr (v : Word) (s : State) : (s.accept v).nr = s.nr := rfl
@[simp] theorem State_accept_h (v : Word) (s : State) : (s.accept v).h = s.h := rfl
@[simp] theorem State_accept_j0 (v : Word) (s : State) : (s.accept v).j0 = s.j0 := rfl
@[simp] theorem State_accept_ivsave (v : Word) (s : State) : (s.accept v).ivsave = s.ivsave := rfl
@[simp] theorem State_accept_lenIv (v : Word) (s : State) : (s.accept v).lenIv = s.lenIv := rfl
@[simp] theorem State_accept_schedule (v : Word) (s : State) : (s.accept v).schedule = s.schedule := rfl
@[simp] theorem State_accept_returned (v : Word) (s : State) : (s.accept v).returned = s.returned := rfl
@[simp] theorem State_accept_freeReads (v : Word) (s : State) : (s.accept v).freeReads = s.freeReads := rfl

end accept

section raiseError

@[simp] theorem State_raiseError_busy (c : ErrCode) (s : State) : (s.raiseError c).busy = false := rfl
@[simp] theorem State_raiseError_done (c : ErrCode) (s : State) : (s.raiseError c).done = true := rfl
@[simp] theorem State_raiseError_authOk (c : ErrCode) (s : State) : (s.raiseError c).authOk = s.authOk := rfl
@[simp] theorem State_raiseError_keyValid (c : ErrCode) (s : State) : (s.raiseError c).keyValid = s.keyValid := rfl
@[simp] theorem State_raiseError_key256 (c : ErrCode) (s : State) : (s.raiseError c).key256 = s.key256 := rfl
@[simp] theorem State_raiseError_ovr (c : ErrCode) (s : State) : (s.raiseError c).ovr = s.ovr := rfl
@[simp] theorem State_raiseError_phase (c : ErrCode) (s : State) : (s.raiseError c).phase = s.phase := rfl
@[simp] theorem State_raiseError_errcode (c : ErrCode) (s : State) : (s.raiseError c).errcode = c := rfl
@[simp] theorem State_raiseError_pend (c : ErrCode) (s : State) : (s.raiseError c).pend = s.pend := rfl
@[simp] theorem State_raiseError_keylen (c : ErrCode) (s : State) : (s.raiseError c).keylen = s.keylen := rfl
@[simp] theorem State_raiseError_dlen (c : ErrCode) (s : State) : (s.raiseError c).dlen = s.dlen := rfl
@[simp] theorem State_raiseError_taglen (c : ErrCode) (s : State) : (s.raiseError c).taglen = s.taglen := rfl
@[simp] theorem State_raiseError_key (c : ErrCode) (s : State) : (s.raiseError c).key = s.key := rfl
@[simp] theorem State_raiseError_din (c : ErrCode) (s : State) : (s.raiseError c).din = s.din := rfl
@[simp] theorem State_raiseError_exptag (c : ErrCode) (s : State) : (s.raiseError c).exptag = s.exptag := rfl
@[simp] theorem State_raiseError_dout (c : ErrCode) (s : State) : (s.raiseError c).dout = s.dout := rfl
@[simp] theorem State_raiseError_tag (c : ErrCode) (s : State) : (s.raiseError c).tag = s.tag := rfl
@[simp] theorem State_raiseError_mac (c : ErrCode) (s : State) : (s.raiseError c).mac = s.mac := rfl
@[simp] theorem State_raiseError_y (c : ErrCode) (s : State) : (s.raiseError c).y = s.y := rfl
@[simp] theorem State_raiseError_ctr (c : ErrCode) (s : State) : (s.raiseError c).ctr = s.ctr := rfl
@[simp] theorem State_raiseError_lenA (c : ErrCode) (s : State) : (s.raiseError c).lenA = s.lenA := rfl
@[simp] theorem State_raiseError_lenC (c : ErrCode) (s : State) : (s.raiseError c).lenC = s.lenC := rfl
@[simp] theorem State_raiseError_rk (c : ErrCode) (s : State) : (s.raiseError c).rk = s.rk := rfl
@[simp] theorem State_raiseError_nr (c : ErrCode) (s : State) : (s.raiseError c).nr = s.nr := rfl
@[simp] theorem State_raiseError_h (c : ErrCode) (s : State) : (s.raiseError c).h = s.h := rfl
@[simp] theorem State_raiseError_j0 (c : ErrCode) (s : State) : (s.raiseError c).j0 = s.j0 := rfl
@[simp] theorem State_raiseError_ivsave (c : ErrCode) (s : State) : (s.raiseError c).ivsave = s.ivsave := rfl
@[simp] theorem State_raiseError_lenIv (c : ErrCode) (s : State) : (s.raiseError c).lenIv = s.lenIv := rfl
@[simp] theorem State_raiseError_schedule (c : ErrCode) (s : State) : (s.raiseError c).schedule = s.schedule := rfl
@[simp] theorem State_raiseError_returned (c : ErrCode) (s : State) : (s.raiseError c).returned = s.returned := rfl
@[simp] theorem State_raiseError_freeReads (c : ErrCode) (s : State) : (s.raiseError c).freeReads = s.freeReads := rfl

end raiseError

section succeed

@[simp] theorem State_succeed_busy (s : State) : (s.succeed).busy = false := rfl
@[simp] theorem State_succeed_done (s : State) : (s.succeed).done = true := rfl
@[simp] theorem State_succeed_authOk (s : State) : (s.succeed).authOk = s.authOk := rfl
@[simp] theorem State_succeed_keyValid (s : State) : (s.succeed).keyValid = s.keyValid := rfl
@[simp] theorem State_succeed_key256 (s : State) : (s.succeed).key256 = s.key256 := rfl
@[simp] theorem State_succeed_ovr (s : State) : (s.succeed).ovr = s.ovr := rfl
@[simp] theorem State_succeed_phase (s : State) : (s.succeed).phase = s.phase := rfl
@[simp] theorem State_succeed_errcode (s : State) : (s.succeed).errcode = .ok := rfl
@[simp] theorem State_succeed_pend (s : State) : (s.succeed).pend = s.pend := rfl
@[simp] theorem State_succeed_keylen (s : State) : (s.succeed).keylen = s.keylen := rfl
@[simp] theorem State_succeed_dlen (s : State) : (s.succeed).dlen = s.dlen := rfl
@[simp] theorem State_succeed_taglen (s : State) : (s.succeed).taglen = s.taglen := rfl
@[simp] theorem State_succeed_key (s : State) : (s.succeed).key = s.key := rfl
@[simp] theorem State_succeed_din (s : State) : (s.succeed).din = s.din := rfl
@[simp] theorem State_succeed_exptag (s : State) : (s.succeed).exptag = s.exptag := rfl
@[simp] theorem State_succeed_dout (s : State) : (s.succeed).dout = s.dout := rfl
@[simp] theorem State_succeed_tag (s : State) : (s.succeed).tag = s.tag := rfl
@[simp] theorem State_succeed_mac (s : State) : (s.succeed).mac = s.mac := rfl
@[simp] theorem State_succeed_y (s : State) : (s.succeed).y = s.y := rfl
@[simp] theorem State_succeed_ctr (s : State) : (s.succeed).ctr = s.ctr := rfl
@[simp] theorem State_succeed_lenA (s : State) : (s.succeed).lenA = s.lenA := rfl
@[simp] theorem State_succeed_lenC (s : State) : (s.succeed).lenC = s.lenC := rfl
@[simp] theorem State_succeed_rk (s : State) : (s.succeed).rk = s.rk := rfl
@[simp] theorem State_succeed_nr (s : State) : (s.succeed).nr = s.nr := rfl
@[simp] theorem State_succeed_h (s : State) : (s.succeed).h = s.h := rfl
@[simp] theorem State_succeed_j0 (s : State) : (s.succeed).j0 = s.j0 := rfl
@[simp] theorem State_succeed_ivsave (s : State) : (s.succeed).ivsave = s.ivsave := rfl
@[simp] theorem State_succeed_lenIv (s : State) : (s.succeed).lenIv = s.lenIv := rfl
@[simp] theorem State_succeed_schedule (s : State) : (s.succeed).schedule = s.schedule := rfl
@[simp] theorem State_succeed_returned (s : State) : (s.succeed).returned = s.returned := rfl
@[simp] theorem State_succeed_freeReads (s : State) : (s.succeed).freeReads = s.freeReads := rfl

end succeed

section applyReset

@[simp] theorem State_applyReset_busy (s : State) : (s.applyReset).busy = State.reset.busy := rfl
@[simp] theorem State_applyReset_done (s : State) : (s.applyReset).done = State.reset.done := rfl
@[simp] theorem State_applyReset_authOk (s : State) : (s.applyReset).authOk = State.reset.authOk := rfl
@[simp] theorem State_applyReset_keyValid (s : State) : (s.applyReset).keyValid = State.reset.keyValid := rfl
@[simp] theorem State_applyReset_key256 (s : State) : (s.applyReset).key256 = State.reset.key256 := rfl
@[simp] theorem State_applyReset_ovr (s : State) : (s.applyReset).ovr = State.reset.ovr := rfl
@[simp] theorem State_applyReset_phase (s : State) : (s.applyReset).phase = State.reset.phase := rfl
@[simp] theorem State_applyReset_errcode (s : State) : (s.applyReset).errcode = State.reset.errcode := rfl
@[simp] theorem State_applyReset_pend (s : State) : (s.applyReset).pend = State.reset.pend := rfl
@[simp] theorem State_applyReset_keylen (s : State) : (s.applyReset).keylen = State.reset.keylen := rfl
@[simp] theorem State_applyReset_dlen (s : State) : (s.applyReset).dlen = State.reset.dlen := rfl
@[simp] theorem State_applyReset_taglen (s : State) : (s.applyReset).taglen = State.reset.taglen := rfl
@[simp] theorem State_applyReset_key (s : State) : (s.applyReset).key = State.reset.key := rfl
@[simp] theorem State_applyReset_din (s : State) : (s.applyReset).din = State.reset.din := rfl
@[simp] theorem State_applyReset_exptag (s : State) : (s.applyReset).exptag = State.reset.exptag := rfl
@[simp] theorem State_applyReset_dout (s : State) : (s.applyReset).dout = State.reset.dout := rfl
@[simp] theorem State_applyReset_tag (s : State) : (s.applyReset).tag = State.reset.tag := rfl
@[simp] theorem State_applyReset_mac (s : State) : (s.applyReset).mac = State.reset.mac := rfl
@[simp] theorem State_applyReset_y (s : State) : (s.applyReset).y = State.reset.y := rfl
@[simp] theorem State_applyReset_ctr (s : State) : (s.applyReset).ctr = State.reset.ctr := rfl
@[simp] theorem State_applyReset_lenA (s : State) : (s.applyReset).lenA = State.reset.lenA := rfl
@[simp] theorem State_applyReset_lenC (s : State) : (s.applyReset).lenC = State.reset.lenC := rfl
@[simp] theorem State_applyReset_rk (s : State) : (s.applyReset).rk = State.reset.rk := rfl
@[simp] theorem State_applyReset_nr (s : State) : (s.applyReset).nr = State.reset.nr := rfl
@[simp] theorem State_applyReset_h (s : State) : (s.applyReset).h = State.reset.h := rfl
@[simp] theorem State_applyReset_j0 (s : State) : (s.applyReset).j0 = State.reset.j0 := rfl
@[simp] theorem State_applyReset_ivsave (s : State) : (s.applyReset).ivsave = State.reset.ivsave := rfl
@[simp] theorem State_applyReset_lenIv (s : State) : (s.applyReset).lenIv = State.reset.lenIv := rfl
@[simp] theorem State_applyReset_schedule (s : State) : (s.applyReset).schedule = s.schedule := rfl
@[simp] theorem State_applyReset_returned (s : State) : (s.applyReset).returned = s.returned := rfl
@[simp] theorem State_applyReset_freeReads (s : State) : (s.applyReset).freeReads = s.freeReads := rfl

end applyReset

section busRead

@[simp] theorem State_busRead_busy (r : Reg) (s : State) : (busRead r s).busy = s.busy := rfl
@[simp] theorem State_busRead_done (r : Reg) (s : State) : (busRead r s).done = s.done := rfl
@[simp] theorem State_busRead_authOk (r : Reg) (s : State) : (busRead r s).authOk = s.authOk := rfl
@[simp] theorem State_busRead_keyValid (r : Reg) (s : State) : (busRead r s).keyValid = s.keyValid := rfl
@[simp] theorem State_busRead_key256 (r : Reg) (s : State) : (busRead r s).key256 = s.key256 := rfl
@[simp] theorem State_busRead_ovr (r : Reg) (s : State) : (busRead r s).ovr = s.ovr := rfl
@[simp] theorem State_busRead_phase (r : Reg) (s : State) : (busRead r s).phase = s.phase := rfl
@[simp] theorem State_busRead_errcode (r : Reg) (s : State) : (busRead r s).errcode = s.errcode := rfl
@[simp] theorem State_busRead_pend (r : Reg) (s : State) : (busRead r s).pend = s.pend := rfl
@[simp] theorem State_busRead_keylen (r : Reg) (s : State) : (busRead r s).keylen = s.keylen := rfl
@[simp] theorem State_busRead_dlen (r : Reg) (s : State) : (busRead r s).dlen = s.dlen := rfl
@[simp] theorem State_busRead_taglen (r : Reg) (s : State) : (busRead r s).taglen = s.taglen := rfl
@[simp] theorem State_busRead_key (r : Reg) (s : State) : (busRead r s).key = s.key := rfl
@[simp] theorem State_busRead_din (r : Reg) (s : State) : (busRead r s).din = s.din := rfl
@[simp] theorem State_busRead_exptag (r : Reg) (s : State) : (busRead r s).exptag = s.exptag := rfl
@[simp] theorem State_busRead_dout (r : Reg) (s : State) : (busRead r s).dout = s.dout := rfl
@[simp] theorem State_busRead_tag (r : Reg) (s : State) : (busRead r s).tag = s.tag := rfl
@[simp] theorem State_busRead_mac (r : Reg) (s : State) : (busRead r s).mac = s.mac := rfl
@[simp] theorem State_busRead_y (r : Reg) (s : State) : (busRead r s).y = s.y := rfl
@[simp] theorem State_busRead_ctr (r : Reg) (s : State) : (busRead r s).ctr = s.ctr := rfl
@[simp] theorem State_busRead_lenA (r : Reg) (s : State) : (busRead r s).lenA = s.lenA := rfl
@[simp] theorem State_busRead_lenC (r : Reg) (s : State) : (busRead r s).lenC = s.lenC := rfl
@[simp] theorem State_busRead_rk (r : Reg) (s : State) : (busRead r s).rk = s.rk := rfl
@[simp] theorem State_busRead_nr (r : Reg) (s : State) : (busRead r s).nr = s.nr := rfl
@[simp] theorem State_busRead_h (r : Reg) (s : State) : (busRead r s).h = s.h := rfl
@[simp] theorem State_busRead_j0 (r : Reg) (s : State) : (busRead r s).j0 = s.j0 := rfl
@[simp] theorem State_busRead_ivsave (r : Reg) (s : State) : (busRead r s).ivsave = s.ivsave := rfl
@[simp] theorem State_busRead_lenIv (r : Reg) (s : State) : (busRead r s).lenIv = s.lenIv := rfl
@[simp] theorem State_busRead_schedule (r : Reg) (s : State) : (busRead r s).schedule = s.schedule := rfl
@[simp] theorem State_busRead_returned (r : Reg) (s : State) : (busRead r s).returned = readWord s r :: s.returned := rfl
@[simp] theorem State_busRead_freeReads (r : Reg) (s : State) : (busRead r s).freeReads = if readIsFree s r then s.freeReads + 1 else s.freeReads := rfl

end busRead

section placeCommand

@[simp] theorem State_placeCommand_busy (v : Word) (s : State) : (placeCommand v s).busy = true := rfl
@[simp] theorem State_placeCommand_done (v : Word) (s : State) : (placeCommand v s).done = false := rfl
@[simp] theorem State_placeCommand_authOk (v : Word) (s : State) : (placeCommand v s).authOk = false := rfl
@[simp] theorem State_placeCommand_keyValid (v : Word) (s : State) : (placeCommand v s).keyValid = s.keyValid := rfl
@[simp] theorem State_placeCommand_key256 (v : Word) (s : State) : (placeCommand v s).key256 = s.key256 := rfl
@[simp] theorem State_placeCommand_ovr (v : Word) (s : State) : (placeCommand v s).ovr = s.ovr := rfl
@[simp] theorem State_placeCommand_phase (v : Word) (s : State) : (placeCommand v s).phase = s.phase := rfl
@[simp] theorem State_placeCommand_errcode (v : Word) (s : State) : (placeCommand v s).errcode = .ok := rfl
@[simp] theorem State_placeCommand_pend (v : Word) (s : State) : (placeCommand v s).pend = v := rfl
@[simp] theorem State_placeCommand_keylen (v : Word) (s : State) : (placeCommand v s).keylen = s.keylen := rfl
@[simp] theorem State_placeCommand_dlen (v : Word) (s : State) : (placeCommand v s).dlen = s.dlen := rfl
@[simp] theorem State_placeCommand_taglen (v : Word) (s : State) : (placeCommand v s).taglen = s.taglen := rfl
@[simp] theorem State_placeCommand_key (v : Word) (s : State) : (placeCommand v s).key = s.key := rfl
@[simp] theorem State_placeCommand_din (v : Word) (s : State) : (placeCommand v s).din = s.din := rfl
@[simp] theorem State_placeCommand_exptag (v : Word) (s : State) : (placeCommand v s).exptag = s.exptag := rfl
@[simp] theorem State_placeCommand_dout (v : Word) (s : State) : (placeCommand v s).dout = s.dout := rfl
@[simp] theorem State_placeCommand_tag (v : Word) (s : State) : (placeCommand v s).tag = s.tag := rfl
@[simp] theorem State_placeCommand_mac (v : Word) (s : State) : (placeCommand v s).mac = s.mac := rfl
@[simp] theorem State_placeCommand_y (v : Word) (s : State) : (placeCommand v s).y = s.y := rfl
@[simp] theorem State_placeCommand_ctr (v : Word) (s : State) : (placeCommand v s).ctr = s.ctr := rfl
@[simp] theorem State_placeCommand_lenA (v : Word) (s : State) : (placeCommand v s).lenA = s.lenA := rfl
@[simp] theorem State_placeCommand_lenC (v : Word) (s : State) : (placeCommand v s).lenC = s.lenC := rfl
@[simp] theorem State_placeCommand_rk (v : Word) (s : State) : (placeCommand v s).rk = s.rk := rfl
@[simp] theorem State_placeCommand_nr (v : Word) (s : State) : (placeCommand v s).nr = s.nr := rfl
@[simp] theorem State_placeCommand_h (v : Word) (s : State) : (placeCommand v s).h = s.h := rfl
@[simp] theorem State_placeCommand_j0 (v : Word) (s : State) : (placeCommand v s).j0 = s.j0 := rfl
@[simp] theorem State_placeCommand_ivsave (v : Word) (s : State) : (placeCommand v s).ivsave = s.ivsave := rfl
@[simp] theorem State_placeCommand_lenIv (v : Word) (s : State) : (placeCommand v s).lenIv = s.lenIv := rfl
@[simp] theorem State_placeCommand_schedule (v : Word) (s : State) : (placeCommand v s).schedule = .engine :: s.schedule := rfl
@[simp] theorem State_placeCommand_returned (v : Word) (s : State) : (placeCommand v s).returned = s.returned := rfl
@[simp] theorem State_placeCommand_freeReads (v : Word) (s : State) : (placeCommand v s).freeReads = s.freeReads := rfl

end placeCommand

end Sys2Proof.Machine
end

