-- ==== Sys2Proof/Laws/Step.lean ====
section
/-! SUPPORT. Everything one step can do: the window's accesses, the engine's turn, and the inversion of `step`. -/

namespace Sys2Proof.Machine

open Sys2Proof.Safety

/-- A claim about every offset of the window is a claim about its 64 words. -/
theorem offset_cases {P : Nat → Prop} (h : ∀ k, k < 64 → P (4 * k)) (off : Nat) (ho : IsOffset off) : P off := by
  have hk : off = 4 * (off / 4) := by have := ho.1; omega
  rw [hk]
  exact h _ (by have := ho.2; omega)

/-- An access the port can express addresses its offset. -/
theorem accessOffset_ok {off : Nat} (ho : IsOffset off) : accessOffset .word (Config.base + off) = .ok off := by
  simp [accessOffset, ho.1, ho.2]

/-- When an access addresses an offset. -/
theorem accessOffset_eq_ok {width : AccessWidth} {addr off : Nat} (h : accessOffset width addr = .ok off) :
    width = .word ∧ addr = Config.base + off ∧ IsOffset off := by
  unfold accessOffset at h
  split at h
  · rename_i hw
    split at h
    · rename_i hword
      split at h
      · rename_i hal
        cases h
        exact ⟨hword, by omega, hal, by omega⟩
      · cases h
    · cases h
  · cases h

/-- The host reads a word of the window now. -/
theorem after_readAt {off : Nat} (ho : IsOffset off) (s : State) :
    after (readAt off) s = .next (busRead (regAt off) s) := by
  simp only [after, step, readAt, applyEvent, busAccess, accessOffset_ok ho]

/-- The host writes a word of the window now. -/
theorem after_writeAt {off : Nat} (ho : IsOffset off) (v : Word) (s : State) :
    after (writeAt off v) s = .next (busWrite (regAt off) v s) := by
  simp only [after, step, writeAt, applyEvent, busAccess, accessOffset_ok ho]

/-- The engine's turn now. -/
theorem after_engine (s : State) : after .engine s = engineTurn s := rfl

/-- Reset now. -/
theorem after_reset (s : State) : after .reset s = .next s.applyReset := rfl

/-- What the engine's turn can do. -/
theorem engineTurn_cases {s t : State} (h : engineTurn s = .next t) :
    (s.busy = false ∧ t = s) ∨
      (s.busy = true ∧ ∃ i, decode s.pend = .ok i ∧ exec i s = .next t) ∨
      (s.busy = true ∧ (∀ i, decode s.pend ≠ .ok i) ∧ t = s.raiseError .illegalCmd) := by
  unfold engineTurn at h
  split at h
  · rename_i hb
    unfold execPending at h
    split at h
    · rename_i i hi
      exact .inr (.inl ⟨hb, i, hi, h⟩)
    · rename_i e he
      cases h
      exact .inr (.inr ⟨hb, fun i hi => (by rw [he] at hi; cases hi), rfl⟩)
  · rename_i hb
    cases h
    exact .inl ⟨by simpa using hb, rfl⟩

/-- What a bus access can do. -/
theorem busAccess_cases {op : BusOp} {s t : State} (h : busAccess op s = .next t) :
    (∃ off, op = .read .word (Config.base + off) ∧ IsOffset off ∧ t = busRead (regAt off) s) ∨
      (∃ off v, op = .write .word (Config.base + off) v ∧ IsOffset off ∧ t = busWrite (regAt off) v s) := by
  cases op with
  | read width addr =>
    simp only [busAccess] at h
    split at h
    · rename_i off ho
      obtain ⟨rfl, rfl, hoff⟩ := accessOffset_eq_ok ho
      cases h
      exact .inl ⟨off, rfl, hoff, rfl⟩
    · cases h
  | write width addr v =>
    simp only [busAccess] at h
    split at h
    · rename_i off ho
      obtain ⟨rfl, rfl, hoff⟩ := accessOffset_eq_ok ho
      cases h
      exact .inr ⟨off, v, rfl, hoff, rfl⟩
    · cases h

/-- What one step can do: the engine's turn, a read, a write, or a reset. -/
theorem step_cases {s t : State} (h : step s = .next t) :
    (s.schedule = [] ∧ engineTurn s = .next t) ∨
      ∃ rest,
        (s.schedule = .engine :: rest ∧ engineTurn { s with schedule := rest } = .next t) ∨
        (∃ off, s.schedule = readAt off :: rest ∧ IsOffset off ∧
          t = busRead (regAt off) { s with schedule := rest }) ∨
        (∃ off v, s.schedule = writeAt off v :: rest ∧ IsOffset off ∧
          t = busWrite (regAt off) v { s with schedule := rest }) ∨
        (s.schedule = .reset :: rest ∧ t = ({ s with schedule := rest } : State).applyReset) := by
  unfold step at h
  split at h
  · rename_i hs
    exact .inl ⟨hs, h⟩
  · rename_i e rest hs
    refine .inr ⟨rest, ?_⟩
    cases e with
    | engine => exact .inl ⟨hs, h⟩
    | reset =>
      simp only [applyEvent] at h
      cases h
      exact .inr (.inr (.inr ⟨hs, rfl⟩))
    | bus op =>
      rcases busAccess_cases h with ⟨off, rfl, ho, ht⟩ | ⟨off, v, rfl, ho, ht⟩
      · exact .inr (.inl ⟨off, hs, ho, ht⟩)
      · exact .inr (.inr (.inl ⟨off, v, hs, ho, ht⟩))

/-- A bus write's whole effect on the state is one of these. -/
theorem busWrite_cases (r : Reg) (v : Word) (s : State) :
    (busWrite r v s = s) ∨ (r = .status ∧ v.getLsbD 7 = true ∧ busWrite r v s = { s with ovr := false }) ∨
      (s.busy = true ∧ r ≠ .status ∧ busWrite r v s = { s with ovr := true }) ∨
      (s.busy = false ∧ r = .cmd ∧ busWrite r v s = s.accept v) ∨
      (s.busy = false ∧ ∃ keylen dlen taglen key din exptag,
        busWrite r v s =
          { s with keylen := keylen, dlen := dlen, taglen := taglen, key := key, din := din, exptag := exptag }) := by
  have hstatus : ∀ u : State, u = writeStatus v s → u = s ∨ (v.getLsbD 7 = true ∧ u = { s with ovr := false }) := by
    rintro u rfl
    unfold writeStatus
    split
    · rename_i h7; exact .inr ⟨h7, rfl⟩
    · exact .inl rfl
  by_cases hr : r = .status
  · subst hr
    rcases hstatus (busWrite .status v s) (by unfold busWrite; split <;> rfl) with h | ⟨h7, h⟩
    · exact .inl h
    · exact .inr (.inl ⟨rfl, h7, h⟩)
  · rcases Bool.eq_false_or_eq_true s.busy with hb | hb
    · have hw : busWrite r v s = writeBusy r v s := by simp [busWrite, hb]
      rw [hw]
      refine .inr (.inr (.inl ⟨hb, hr, ?_⟩))
      cases r <;> first | rfl | exact absurd rfl hr
    · have hw : busWrite r v s = writeIdle r v s := by simp [busWrite, hb]
      rw [hw]
      cases r with
      | status => exact absurd rfl hr
      | cmd => exact .inr (.inr (.inr (.inl ⟨hb, rfl, rfl⟩)))
      | keylen => exact .inr (.inr (.inr (.inr ⟨hb, _, _, _, _, _, _, rfl⟩)))
      | dlen => exact .inr (.inr (.inr (.inr ⟨hb, _, _, _, _, _, _, rfl⟩)))
      | taglen => exact .inr (.inr (.inr (.inr ⟨hb, _, _, _, _, _, _, rfl⟩)))
      | key i => exact .inr (.inr (.inr (.inr ⟨hb, _, _, _, _, _, _, rfl⟩)))
      | din i => exact .inr (.inr (.inr (.inr ⟨hb, _, _, _, _, _, _, rfl⟩)))
      | exptag i => exact .inr (.inr (.inr (.inr ⟨hb, _, _, _, _, _, _, rfl⟩)))
      | id | dout | tag | mac | ghash | ctr | lenaHi | lenaLo | lencHi | lencLo | reserved => exact .inl rfl

/-- A run of one step more goes on from the step's next state. -/
theorem run_succ (M : Host.Core) (n : Nat) (s u : M.State) (h : M.step s = .next u) : M.run (n + 1) s = M.run n u := by
  simp only [Host.Core.run, h]

/-- A run that answers a next state took a first step to one. -/
theorem run_succ_inv (M : Host.Core) (n : Nat) (s t : M.State) (h : M.run (n + 1) s = .next t) :
    ∃ u, M.step s = .next u ∧ M.run n u = .next t := by
  cases hs : M.step s with
  | next u => exact ⟨u, rfl, (run_succ M n s u hs).symm.trans h⟩
  | fault r => simp only [Host.Core.run, hs] at h; cases h
  | refused r => simp only [Host.Core.run, hs] at h; cases h

/-- A run of this machine goes on from the step's next state. -/
theorem run_succ_of_step {n : Nat} {s u : State} (h : step s = .next u) :
    Sys2Proof.core.run (n + 1) s = Sys2Proof.core.run n u := run_succ Sys2Proof.core n s u h

/-- A run of this machine that answers a next state took a first step to one. -/
theorem run_succ_next {n : Nat} {s t : State} (h : Sys2Proof.core.run (n + 1) s = .next t) :
    ∃ u, step s = .next u ∧ Sys2Proof.core.run n u = .next t := run_succ_inv Sys2Proof.core n s t h

end Sys2Proof.Machine
end

