-- ==== Sys2Proof/Laws/Host.lean ====
section
/-! SUPPORT. What each host operation and pseudo-instruction does when it runs on an idle block. -/

namespace Sys2Proof.Machine

open Sys2Proof.Safety

/-- A host event that takes the machine to `t`. -/
theorem hostEvent_run {e : Event} {s t : State} (h : after e s = .next t) : (hostEvent e).run s = .ok ((), t) := by
  unfold after at h
  change hostEvent e s = _
  unfold hostEvent
  rw [h]

/-- WR is the bus write. -/
theorem wr_run {off : Nat} (ho : IsOffset off) (v : Word) (s : State) :
    (wr off v).run s = .ok ((), busWrite (regAt off) v s) := hostEvent_run (after_writeAt ho v s)

/-- RD is the bus read, and answers the word read. -/
theorem rd_run {off : Nat} (ho : IsOffset off) (s : State) :
    (rd off).run s = .ok (readWord s (regAt off), busRead (regAt off) s) := by
  unfold rd
  rw [StateT.run_bind, show (hostEvent (.bus (HostOp.toBusOp ⟨.R, off, 0⟩))).run s = _ from
    hostEvent_run (after_readAt ho s)]
  rfl

/-- A read of an idle block answers the register's value and only adds it to the log of reads. -/
theorem rd_run_idle {off : Nat} (ho : IsOffset off) {s : State} (hb : s.busy = false) :
    (rd off).run s =
      .ok (regValue s (regAt off), { s with returned := regValue s (regAt off) :: s.returned }) := by
  rw [rd_run ho]
  have hf : readIsFree s (regAt off) = false := by simp [readIsFree, hb]
  simp [busRead, readWord, hf]

/-- A STATUS read answers STATUS at any time, and only adds it to the log of reads. -/
theorem rd_status_run (s : State) :
    (rd 0x004).run s = .ok (statusWord s, { s with returned := statusWord s :: s.returned }) := by
  rw [rd_run (by decide)]
  have hr : regAt 0x004 = .status := rfl
  have hf : readIsFree s .status = false := by simp [readIsFree, isResult]
  simp [hr, busRead, readWord, hf, regValue]

/-- Bit 0 of a vector that ends in a flag is the flag. -/
theorem getLsbD_append_ofBool_zero {n : Nat} (x : BitVec n) (b : Bool) : (x ++ BitVec.ofBool b).getLsbD 0 = b := by
  rw [BitVec.getLsbD_append]
  cases b <;> simp

/-- The bits above a flag at the end are the vector's. -/
theorem getLsbD_append_ofBool_succ {n : Nat} (x : BitVec n) (b : Bool) (k : Nat) :
    (x ++ BitVec.ofBool b).getLsbD (k + 1) = x.getLsbD k := by
  rw [BitVec.getLsbD_append]
  simp

/-- Bit 0 of STATUS is BUSY. -/
theorem statusWord_busy (s : State) : (statusWord s).getLsbD 0 = s.busy := getLsbD_append_ofBool_zero _ _

/-- Bit 2 of STATUS is ERR. -/
theorem statusWord_err (s : State) : (statusWord s).getLsbD 2 = errFlag s :=
  (getLsbD_append_ofBool_succ _ _ 1).trans ((getLsbD_append_ofBool_succ _ _ 0).trans (getLsbD_append_ofBool_zero _ _))

/-- Bit 3 of STATUS is AUTH_OK. -/
theorem statusWord_authOk (s : State) : (statusWord s).getLsbD 3 = s.authOk :=
  (getLsbD_append_ofBool_succ _ _ 2).trans ((getLsbD_append_ofBool_succ _ _ 1).trans
    ((getLsbD_append_ofBool_succ _ _ 0).trans (getLsbD_append_ofBool_zero _ _)))

/-- A command's checks read neither STATUS's result bits nor the log of reads. -/
theorem checksOf_accept_returned (i : Instr) (v : Word) (l : List Word) (s : State) :
    checksOf { s.accept v with returned := l } i = checksOf s i := by cases i <;> rfl

/-- A command's effect leaves the log of reads alone. -/
theorem effectOf_returned (i : Instr) (l : List Word) (s : State) :
    effectOf i { s with returned := l } = { effectOf i s with returned := l } := by cases i <;> rfl

/-- WAIT after a command was accepted: the command completes, and the reads meanwhile only lengthen the log. -/
theorem waitLoop_run (i : Instr) (polls : Nat) (s : State) (l : List Word)
    (hc : firstError (checksOf s i) = .ok) :
    ∃ w l', (waitLoop polls).run { s.accept (encode i) with returned := l } =
      .ok (w, { (effectOf i (s.accept (encode i))).succeed with returned := l' }) := by
  induction polls generalizing l with
  | zero =>
    have hdec : decode (encode i) = .ok i := decode_ok_iff.mpr ⟨rsvField_encode i, opcField_encode i⟩
    have he : after .engine { s.accept (encode i) with returned := l } =
        .next { (effectOf i (s.accept (encode i))).succeed with returned := l } := by
      rw [after_engine]
      unfold engineTurn execPending
      rw [if_pos (show ({ s.accept (encode i) with returned := l } : State).busy = true from rfl),
        show decode ({ s.accept (encode i) with returned := l } : State).pend = .ok i from hdec]
      simp only
      rw [exec_eq_complete, checksOf_accept_returned, complete, if_pos hc, effectOf_returned]
      rfl
    refine ⟨statusWord { (effectOf i (s.accept (encode i))).succeed with returned := l },
      statusWord { (effectOf i (s.accept (encode i))).succeed with returned := l } :: l, ?_⟩
    unfold waitLoop
    rw [StateT.run_bind, hostEvent_run he]
    exact rd_status_run _
  | succ n ih =>
    obtain ⟨w, l', h⟩ := ih (statusWord { s.accept (encode i) with returned := l } :: l)
    refine ⟨w, l', ?_⟩
    unfold waitLoop
    rw [StateT.run_bind, rd_status_run]
    have hb : (statusWord { s.accept (encode i) with returned := l }).getLsbD 0 = true := by
      rw [statusWord_busy]
      rfl
    change (if (statusWord { s.accept (encode i) with returned := l }).getLsbD 0 = true then waitLoop n
      else pure (statusWord { s.accept (encode i) with returned := l })).run _ = _
    rw [if_pos hb]
    exact h

/-- CHECK of a command whose checks hold: the block is idle again, the command has had its effect, and the log of reads is
longer. -/
theorem check_run (i : Instr) (s : State) (hb : s.busy = false) (hc : firstError (checksOf s i) = .ok) :
    ∃ l, (check i).run s = .ok ((), { (effectOf i (s.accept (encode i))).succeed with returned := l }) := by
  have hw : busWrite (regAt 0x008) (encode i) s = s.accept (encode i) := by
    rw [show regAt 0x008 = .cmd from rfl, busWrite, if_neg (by simp [hb])]
    rfl
  obtain ⟨w, l, hwait⟩ := waitLoop_run i
    (Config.busyPolls (s.accept (encode i)).pend (roundCount (s.accept (encode i)).nr)) s s.returned hc
  have hcmd : (cmd i).run s = .ok ((), { (effectOf i (s.accept (encode i))).succeed with returned := l }) := by
    unfold cmd
    rw [StateT.run_bind, wr_run (by decide), hw]
    change (do let _ ← wait; pure ()).run (s.accept (encode i)) = _
    rw [StateT.run_bind]
    have hwt : wait.run (s.accept (encode i)) =
        .ok (w, { (effectOf i (s.accept (encode i))).succeed with returned := l }) := hwait
    rw [hwt]
    rfl
  refine ⟨statusWord { (effectOf i (s.accept (encode i))).succeed with returned := l } :: l, ?_⟩
  unfold check
  rw [StateT.run_bind, hcmd]
  change (do let v ← rd 0x004; if v.getLsbD 2 then stopWith (HostStop.commandError v) else pure ()).run _ = _
  rw [StateT.run_bind, rd_status_run]
  have herr : (statusWord { (effectOf i (s.accept (encode i))).succeed with returned := l }).getLsbD 2 = false := by
    rw [statusWord_err]
    rfl
  change (if (statusWord { (effectOf i (s.accept (encode i))).succeed with returned := l }).getLsbD 2 = true then _
    else _ : HostM Unit).run _ = _
  rw [if_neg (by rw [herr]; decide)]
  rfl

/-- Four words of a block written at one after the other make the block. -/
theorem setBlockWord_all (a b : Block) :
    setBlockWord (setBlockWord (setBlockWord (setBlockWord a 0 (blockWord b 0)) 1 (blockWord b 1)) 2 (blockWord b 2)) 3
      (blockWord b 3) = b := by
  apply block_ext_words
  intro i hi
  simp only [blockWord_setBlockWord _ _ _ _ hi]
  interval_cases i <;> rfl

/-- Four words of a block put together make the block. -/
theorem blockOfWords_blockWord (b : Block) :
    blockOfWords (blockWord b 0) (blockWord b 1) (blockWord b 2) (blockWord b 3) = b := by
  apply block_ext_words
  intro i hi
  rw [blockWord_blockOfWords _ _ _ _ _ hi]
  interval_cases i <;> rfl

/-- A write to a register of an idle block. -/
theorem wr_run_idle {off : Nat} (ho : IsOffset off) (v : Word) {s : State} (hb : s.busy = false) :
    (wr off v).run s = .ok ((), writeIdle (regAt off) v s) := by
  rw [wr_run ho, busWrite, if_neg (by simp [hb])]

/-- WR128 of DIN. -/
theorem wr128_din_run (b : Block) {s : State} (hb : s.busy = false) :
    (wr128 0x040 b).run s = .ok ((), { s with din := b }) := by
  unfold wr128
  rw [StateT.run_bind, wr_run_idle (by decide) _ hb]
  change (do wr (0x040 + 4) _; wr (0x040 + 8) _; wr (0x040 + 12) _).run _ = _
  rw [StateT.run_bind, wr_run_idle (by decide) _ (by exact hb)]
  change (do wr (0x040 + 8) _; wr (0x040 + 12) _).run _ = _
  rw [StateT.run_bind, wr_run_idle (by decide) _ (by exact hb)]
  change (wr (0x040 + 12) _).run _ = _
  rw [wr_run_idle (by decide) _ (by exact hb)]
  have h := setBlockWord_all s.din b
  exact congrArg (fun d => Except.ok ((), { s with din := d })) h

/-- WR128 of EXPTAG. -/
theorem wr128_exptag_run (b : Block) {s : State} (hb : s.busy = false) :
    (wr128 0x060 b).run s = .ok ((), { s with exptag := b }) := by
  unfold wr128
  rw [StateT.run_bind, wr_run_idle (by decide) _ hb]
  change (do wr (0x060 + 4) _; wr (0x060 + 8) _; wr (0x060 + 12) _).run _ = _
  rw [StateT.run_bind, wr_run_idle (by decide) _ (by exact hb)]
  change (do wr (0x060 + 8) _; wr (0x060 + 12) _).run _ = _
  rw [StateT.run_bind, wr_run_idle (by decide) _ (by exact hb)]
  change (wr (0x060 + 12) _).run _ = _
  rw [wr_run_idle (by decide) _ (by exact hb)]
  have h := setBlockWord_all s.exptag b
  exact congrArg (fun d => Except.ok ((), { s with exptag := d })) h

/-- RD128 of DOUT. -/
theorem rd128_dout_run {s : State} (hb : s.busy = false) :
    ∃ l, (rd128 0x050).run s = .ok (s.dout, { s with returned := l }) := by
  refine ⟨blockWord s.dout 3 :: blockWord s.dout 2 :: blockWord s.dout 1 :: blockWord s.dout 0 :: s.returned, ?_⟩
  unfold rd128
  rw [StateT.run_bind, rd_run_idle (by decide) hb]
  change (do let w1 ← rd (0x050 + 4); let w2 ← rd (0x050 + 8); let w3 ← rd (0x050 + 12)
             pure (blockOfWords _ w1 w2 w3)).run _ = _
  rw [StateT.run_bind, rd_run_idle (by decide) (by exact hb)]
  change (do let w2 ← rd (0x050 + 8); let w3 ← rd (0x050 + 12); pure (blockOfWords _ _ w2 w3)).run _ = _
  rw [StateT.run_bind, rd_run_idle (by decide) (by exact hb)]
  change (do let w3 ← rd (0x050 + 12); pure (blockOfWords _ _ _ w3)).run _ = _
  rw [StateT.run_bind, rd_run_idle (by decide) (by exact hb)]
  exact congrArg (fun d => Except.ok (d, _)) (blockOfWords_blockWord s.dout)

/-- RD128 of TAG. -/
theorem rd128_tag_run {s : State} (hb : s.busy = false) :
    ∃ l, (rd128 0x070).run s = .ok (s.tag, { s with returned := l }) := by
  refine ⟨blockWord s.tag 3 :: blockWord s.tag 2 :: blockWord s.tag 1 :: blockWord s.tag 0 :: s.returned, ?_⟩
  unfold rd128
  rw [StateT.run_bind, rd_run_idle (by decide) hb]
  change (do let w1 ← rd (0x070 + 4); let w2 ← rd (0x070 + 8); let w3 ← rd (0x070 + 12)
             pure (blockOfWords _ w1 w2 w3)).run _ = _
  rw [StateT.run_bind, rd_run_idle (by decide) (by exact hb)]
  change (do let w2 ← rd (0x070 + 8); let w3 ← rd (0x070 + 12); pure (blockOfWords _ _ w2 w3)).run _ = _
  rw [StateT.run_bind, rd_run_idle (by decide) (by exact hb)]
  change (do let w3 ← rd (0x070 + 12); pure (blockOfWords _ _ _ w3)).run _ = _
  rw [StateT.run_bind, rd_run_idle (by decide) (by exact hb)]
  exact congrArg (fun d => Except.ok (d, _)) (blockOfWords_blockWord s.tag)

end Sys2Proof.Machine
end

