-- ==== Sys2Proof/Laws/Facade.lean ====
section
/-! SUPPORT. Chunks of byte strings, and one chunk's passage through the block. -/

namespace Sys2Proof.Machine

/-- No bytes, no chunks, whatever the fuel. -/
theorem chunksFrom_nil (n : Nat) : chunksFrom n [] = [] := by cases n <;> rfl

/-- Any fuel that covers the length gives the same chunks. -/
theorem chunksFrom_fuel (n m : Nat) (l : List Byte) (hn : l.length ≤ n) (hm : l.length ≤ m) :
    chunksFrom n l = chunksFrom m l := by
  induction n generalizing m l with
  | zero =>
    have hl : l = [] := by simpa using hn
    rw [hl, chunksFrom_nil, chunksFrom_nil]
  | succ n ih =>
    cases m with
    | zero =>
      have hl : l = [] := by simpa using hm
      rw [hl, chunksFrom_nil, chunksFrom_nil]
    | succ m =>
      unfold chunksFrom
      split
      · rfl
      · rename_i hne
        have hl : l.length ≠ 0 := by cases l <;> simp at *
        congr 1
        apply ih <;> simp only [List.length_drop] <;> omega

/-- The chunks of no bytes. -/
theorem chunks_nil : chunks [] = [] := rfl

/-- The chunks of some bytes: the first sixteen, then the chunks of the rest. -/
theorem chunks_cons {l : List Byte} (h : l ≠ []) : chunks l = l.take 16 :: chunks (l.drop 16) := by
  cases l with
  | nil => exact absurd rfl h
  | cons a l =>
    unfold chunks
    conv => lhs; unfold chunksFrom
    simp only [List.length_cons, List.isEmpty_cons, Bool.false_eq_true, if_false, List.cons.injEq, true_and]
    apply chunksFrom_fuel <;> simp

/-- Induction over the chunks of a byte string. -/
theorem chunks_induction {P : List Byte → Prop} (hnil : P []) (hcons : ∀ l, l ≠ [] → P (l.drop 16) → P l)
    (l : List Byte) : P l := by
  induction hn : l.length using Nat.strong_induction_on generalizing l with
  | _ n ih =>
    by_cases h : l = []
    · rw [h]; exact hnil
    · apply hcons l h
      apply ih (l.drop 16).length _ _ rfl
      have hl : l.length ≠ 0 := by simpa using h
      simp only [List.length_drop]
      omega

/-- The blocks of some padded bytes: the first sixteen, zero filled, then those of the rest. -/
theorem padBlocks_cons {l : List Byte} (h : l ≠ []) :
    padBlocks l = blockOfBytes (l.take 16) :: padBlocks (l.drop 16) := by
  unfold padBlocks
  rw [chunks_cons h]
  rfl

/-- Byte `i` of a zero-filled block. -/
theorem byteOf_blockOfBytes (l : List Byte) (i : Nat) (hi : i < 16) : byteOf (blockOfBytes l) i = l.getD i 0 :=
  byteOf_ofBytes _ _ hi

/-- A zero-filled block is its own mask. -/
theorem mask16_blockOfBytes (l : List Byte) : mask16 (blockOfBytes l) l.length = blockOfBytes l := by
  apply block_ext_bytes
  intro i hi
  rw [byteOf_mask16 _ _ _ hi, byteOf_blockOfBytes _ _ hi]
  split
  · rfl
  · rename_i hl
    exact (List.getD_eq_default _ _ (by omega)).symm

/-- DLEN after the host wrote a chunk's length to it. -/
theorem dlen_of_chunk (n : Nat) (h : n ≤ 16) : ((BitVec.ofNat 32 n).extractLsb' 0 5).toNat = n := by
  simp only [BitVec.extractLsb'_toNat, BitVec.toNat_ofNat, Nat.shiftRight_zero]
  omega

/-- The counts of a chunk and of the rest add up to the whole's. -/
theorem bitCount_take_drop (l : List Byte) : bitCount (l.take 16).length + bitCount (l.drop 16).length = bitCount l.length := by
  unfold bitCount
  rw [← BitVec.ofNat_add]
  congr 1
  simp only [List.length_take, List.length_drop]
  omega

/-- The state after a chunk's block and length were written. -/
def withChunk (c : List Byte) (s : State) : State :=
  { s with din := blockOfBytes c, dlen := (BitVec.ofNat 32 c.length).extractLsb' 0 5 }

/-- One chunk written and a chunk command checked, in a phase that allows it. -/
theorem chunk_run (i : Instr) (c : List Byte) (s : State) (hb : s.busy = false)
    (h1 : 1 ≤ c.length) (h16 : c.length ≤ 16)
    (hp : outOfPhase [.ivOpen] s = false ∧ i = .gcmIv ∨ outOfPhase [.aadOpen] s = false ∧ i = .gcmAad ∨
      outOfPhase [.aadOpen, .aadClosed, .dataOpen] s = false ∧ (i = .gcmEnc ∨ i = .gcmDec)) :
    ∃ l, (do wr128 0x040 (blockOfBytes c); wr 0x010 (BitVec.ofNat 32 c.length); check i : HostM Unit).run s =
      .ok ((), { (effectOf i ((withChunk c s).accept (encode i))).succeed with returned := l }) := by
  rw [StateT.run_bind, wr128_din_run _ hb]
  change ∃ l, (do wr 0x010 (BitVec.ofNat 32 c.length); check i : HostM Unit).run _ = _
  rw [StateT.run_bind, wr_run_idle (by decide) _ (by exact hb)]
  refine check_run i _ (by exact hb) ?_
  change firstError (checksOf (withChunk c s) i) = .ok
  have hd : badDataLength (withChunk c s) = false := by
    have hlen : dataLen (withChunk c s) = c.length := dlen_of_chunk _ h16
    simp only [badDataLength, hlen, decide_eq_false_iff_not]
    omega
  have hph : ∀ ps, outOfPhase ps (withChunk c s) = outOfPhase ps s := fun _ => rfl
  rcases hp with ⟨hp, rfl⟩ | ⟨hp, rfl⟩ | ⟨hp, rfl | rfl⟩ <;>
    simp only [checksOf, firstError_cons, firstError_nil, hd, hph, hp, Bool.false_eq_true, if_false]

end Sys2Proof.Machine
end

