-- ==== Sys2Proof/Laws/HostDuties.lean ====
section
/-! SUPPORT. What keeping the host's duties gives, and what the data bound says of lengths. -/

namespace Sys2Proof.Machine

/-- A write that keeps duty 1 is not lost: it never sets OVR. -/
theorem keepsWait_write {off : Nat} {v : Word} {s : State} (h : keepsWait ⟨.W, off, v⟩ s = true)
    (ho : (busWrite (regAt off) v s).ovr = true) : s.ovr = true := by
  rcases busWrite_cases (regAt off) v s with hw | ⟨-, -, hw⟩ | ⟨hb, hr, -⟩ | ⟨-, -, hw⟩ | ⟨-, _, _, _, _, _, _, hw⟩
  · rwa [hw] at ho
  · rw [hw] at ho; cases ho
  · simp [keepsWait, hb, hr] at h
  · rw [hw] at ho; exact ho
  · rw [hw] at ho; exact ho

/-- A read that keeps duty 1 returns the register's value, never a free one. -/
theorem keepsWait_read {off : Nat} {v : Word} {s : State} (h : keepsWait ⟨.R, off, v⟩ s = true) :
    readWord s (regAt off) = regValue s (regAt off) := by
  have hf : readIsFree s (regAt off) = false := by
    unfold keepsWait at h
    unfold readIsFree
    cases hb : s.busy <;> simp_all
  simp [readWord, hf]

/-- A command that is no cipher command and is not KEY_EXPAND neither reads nor writes the expanded key. -/
theorem effectOf_of_not_runsCipher {i : Instr} (hc : runsCipher i = false) (hk : i ≠ .keyExpand) (s : State)
    (rk : List Word) (nr : Rounds) :
    effectOf i { s with rk := rk, nr := nr } = { effectOf i s with rk := rk, nr := nr } := by
  cases i <;> first | exact absurd rfl hk | exact absurd hc Bool.noConfusion | rfl

/-- A cipher command that keeps duty 3 never fails for want of a key. -/
theorem keepsKey_keyValid {i : Instr} {s : State} (hc : runsCipher i = true) (h : keepsKey i s = true) :
    s.keyValid = true := by
  simp [keepsKey, hc] at h
  exact h.1

/-- A result register that a command does not overwrite reads the same after its effect (R287's table). -/
theorem regValue_effectOf_of_not_overwrites {i : Instr} {r : Reg} (hr : isResult r = true) (ho : overwrites i r = false)
    (s : State) : regValue (effectOf i s) r = regValue s r := by
  cases r <;> first | exact absurd hr Bool.noConfusion | skip
  all_goals cases i <;> first | exact absurd ho Bool.noConfusion | rfl

/-- A chunk that keeps duty 4 never fails: its phase and its length are in order. -/
theorem keepsChunks_succeeds {i : Instr} {s : State} (hi : i ∈ [.gcmIv, .gcmAad, .gcmEnc, .gcmDec])
    (h : keepsChunks i s = true) : firstError (checksOf s i) = .ok := by
  simp only [List.mem_cons, List.not_mem_nil, or_false] at hi
  rcases hi with rfl | rfl | rfl | rfl <;>
    simp_all [keepsChunks, checksOf, outOfPhase, firstError_cons, firstError_nil]

/-- What the host knows is so: whatever happens next, a host that has seen its last command settled has an idle block. -/
theorem settled_idle {t : HostTurn} {v : HostView} {s s' : State} (hv : v.settled = true → s.busy = false)
    (h : applyEvent t.event s = .next s') (hs : (t.seen v s).settled = true) : s'.busy = false := by
  cases t with
  | reset => cases h; rfl
  | engine =>
    rcases engineTurn_cases h with ⟨hb, rfl⟩ | ⟨hb, -⟩ | ⟨hb, -⟩
    · exact hb
    all_goals exact absurd (hv hs) (by simp [hb])
  | access a =>
    obtain ⟨⟨dir, off, data⟩, wants⟩ := a
    change busAccess _ s = _ at h
    cases dir with
    | R =>
      have hb : s.busy = false := by
        simp only [HostTurn.seen, HostView.after, HostView.readStatus] at hs
        split at hs
        · split at hs
          · exact hv hs
          · simpa using ‹¬s.busy = true›
        · exact hv hs
      rcases busAccess_cases h with ⟨off', -, -, rfl⟩ | ⟨_, _, hop, -⟩
      · exact hb
      · cases hop
    | W =>
      rcases busAccess_cases h with ⟨_, hop, -⟩ | ⟨off', w, hop, -, rfl⟩
      · cases hop
      · obtain rfl : off = off' := Nat.add_left_cancel (BusOp.write.inj hop).2.1
        have hcmd : regAt off ≠ .cmd := by
          intro hc
          simp [HostTurn.seen, HostView.after, HostView.issue, issuesCommand, hc] at hs
        have hb : s.busy = false := hv (by simpa [HostTurn.seen, HostView.after, issuesCommand, hcmd] using hs)
        rcases busWrite_cases (regAt off) w s with hw | ⟨-, -, hw⟩ | ⟨hb', -⟩ | ⟨-, hc, -⟩ | ⟨-, _, _, _, _, _, _, hw⟩
        · rw [hw]; exact hb
        · rw [hw]; exact hb
        · rw [hb] at hb'; cases hb'
        · exact absurd hc hcmd
        · rw [hw]; exact hb

/-- `require` stops where its check fails, in the state it was called in, and does nothing else. -/
theorem require_bind_run {α : Type} (ok : Bool) (e : FacadeError) (f : Unit → HostM α) (s : State) :
    (require ok e >>= f).run s = if ok then (f ()).run s else .error (.rejected e s) := by
  cases ok <;> rfl

/-- A call that R226's checks reject stops in the state it was made in: it issues no command. -/
theorem runCall_of_not_accepted {c : FacadeCall} (h : c.accepted = false) (s : State) :
    ∃ e, (runCall c).run s = .error (.rejected e s) := by
  cases c with
  | gcmEncrypt key iv plaintext aad =>
    simp only [FacadeCall.accepted] at h
    simp only [runCall, gcmEncrypt, bind_assoc, require_bind_run]
    split_ifs <;> first | exact ⟨_, rfl⟩ | simp_all
  | gcmDecrypt key iv ciphertext aad authTag =>
    simp only [FacadeCall.accepted] at h
    simp only [runCall, gcmDecrypt, bind_assoc, require_bind_run]
    split_ifs <;> first | exact ⟨_, rfl⟩ | simp_all
  | ccmEncrypt key iv plaintext aad t =>
    simp only [FacadeCall.accepted] at h
    simp only [runCall, ccmEncrypt, ccmValidate, bind_assoc, require_bind_run]
    split_ifs <;> first | exact ⟨_, rfl⟩ | simp_all
  | ccmDecrypt key iv ciphertext aad authTag =>
    simp only [FacadeCall.accepted] at h
    simp only [runCall, ccmDecrypt, ccmValidate, bind_assoc, require_bind_run]
    split_ifs <;> first | exact ⟨_, rfl⟩ | simp_all

/-- The number of chunks of a byte string. -/
theorem length_chunks (l : List Byte) : (chunks l).length = (l.length + 15) / 16 := by
  induction l using chunks_induction with
  | hnil => rfl
  | hcons l hl ih =>
    have hlen : l.length ≠ 0 := by simpa using hl
    rw [chunks_cons hl, List.length_cons, ih, List.length_drop]
    omega

/-- The data bound of duty 5 in bytes. -/
theorem gcmDataOk_iff (data : List Byte) : gcmDataOk data = true ↔ data.length ≤ 16 * (2 ^ 32 - 2) := by
  simp only [gcmDataOk, decide_eq_true_iff, length_chunks, maxDataBlocks]
  omega

/-- Data within duty 5's bound have a bit length that fits 64 bits: the statements about whole GCM messages hold of them. -/
theorem gcmDataOk_bits {data : List Byte} (h : gcmDataOk data = true) : 8 * data.length < 2 ^ 64 := by
  have := (gcmDataOk_iff data).mp h
  omega

/-- A data command within the bound adds one to the message's data blocks, so counting LEN_C counts them. -/
theorem dataBlocks_of_data {i : Instr} {s t : State} (hi : i = .gcmEnc ∨ i = .gcmDec) (hl : keepsDataLimit i s = true)
    (hfull : s.lenC.toNat % 128 = 0) (h : exec i s = .next t) (he : t.errcode = .ok) :
    dataBlocks t = dataBlocks s + 1 := by
  have hb : dataBlocks s < 2 ^ 32 - 2 := by rcases hi with rfl | rfl <;> exact of_decide_eq_true hl
  rcases exec_next_cases h with ⟨hc, rfl⟩ | ⟨hc, rfl⟩
  · have hd : badDataLength s = false := by
      rcases hi with rfl | rfl <;>
        (simp only [checksOf, firstError_cons, firstError_nil] at hc
         cases hp : outOfPhase [.aadOpen, .aadClosed, .dataOpen] s <;> cases hd : badDataLength s <;> simp_all)
    have hlenC : (effectOf i s).succeed.lenC = s.lenC + bitCount (dataLen s) := by rcases hi with rfl | rfl <;> rfl
    simp only [badDataLength, decide_eq_false_iff_not] at hd
    simp only [dataBlocks] at hb ⊢
    rw [hlenC, BitVec.toNat_add, bitCount, BitVec.toNat_ofNat]
    omega
  · exact absurd he hc

end Sys2Proof.Machine
end

