-- ==== Sys2Proof/Laws/PerInstr.lean ====
section
/-! SUPPORT. The facts about commands as syntax, one lemma per constructor. -/

namespace Sys2Proof.Laws.EncodedWord

/-- A command is listed, well formed, and its word has RSV = 0 and its own OPC (spec/30_encoding.md R90, R94). -/
def Statement (i : Instr) : Prop :=
  i ∈ Instr.all ∧ i.wellFormed = true ∧ rsvField (encode i) = 0 ∧ opcField (encode i) = opcode i

theorem nop : Statement .nop := by unfold Statement; decide
theorem keyExpand : Statement .keyExpand := by unfold Statement; decide
theorem aesEnc : Statement .aesEnc := by unfold Statement; decide
theorem ghashLoadh : Statement .ghashLoadh := by unfold Statement; decide
theorem ghashClear : Statement .ghashClear := by unfold Statement; decide
theorem ghashBlock : Statement .ghashBlock := by unfold Statement; decide
theorem gcmInit : Statement .gcmInit := by unfold Statement; decide
theorem gcmIv : Statement .gcmIv := by unfold Statement; decide
theorem gcmIvFinal : Statement .gcmIvFinal := by unfold Statement; decide
theorem gcmAad : Statement .gcmAad := by unfold Statement; decide
theorem gcmEnc : Statement .gcmEnc := by unfold Statement; decide
theorem gcmDec : Statement .gcmDec := by unfold Statement; decide
theorem gcmFinal : Statement .gcmFinal := by unfold Statement; decide
theorem cbcmacInit : Statement .cbcmacInit := by unfold Statement; decide
theorem cbcmacBlock : Statement .cbcmacBlock := by unfold Statement; decide
theorem cbcmacFinal : Statement .cbcmacFinal := by unfold Statement; decide

end Sys2Proof.Laws.EncodedWord
end

