-- ==== Sys2Proof/Tests/Slice0.lean ====
section
/-! SUPPORT. Tests against the spec's own words and examples, and for every statement with hypotheses a state that meets
them. -/

namespace Sys2Proof.Tests

open Sys2Proof.Machine Sys2Proof.Safety

/-! ## Ill-formed terms -/

theorem test_wf_instr : ∀ i ∈ Instr.all, i.wellFormed = true := by decide
theorem test_wf_hostOp : HostOp.wellFormed ⟨.W, 0x0FC, 0⟩ = true := by decide
theorem test_wf_hostOp_misaligned : HostOp.wellFormed ⟨.R, 0x042, 0⟩ = false := by decide
theorem test_wf_hostOp_beyond : HostOp.wellFormed ⟨.W, 0x100, 0⟩ = false := by decide
theorem test_wf_bus_byte : ¬ BusOp.wellFormed (.read .byte Config.base) := fun h => absurd h.1 (by decide)
theorem test_wf_bus_half : ¬ BusOp.wellFormed (.write .half Config.base 0) := fun h => absurd h.1 (by decide)
theorem test_wf_bus_beyond : ¬ BusOp.wellFormed (.read .word (Config.base + 0x100)) := fun h =>
  absurd h.2.1.2 (Nat.lt_irrefl _)
theorem test_wf_bus_misaligned : ¬ BusOp.wellFormed (.read .word (Config.base + 2)) := by
  intro h
  have h4 := h.2.2
  rw [show (BusOp.read .word (Config.base + 2)).addr = Config.base + 2 from rfl, Nat.add_sub_cancel_left] at h4
  exact absurd h4 (by decide)
theorem test_wf_event : ¬ Event.wellFormed (.bus (.read .byte Config.base)) := test_wf_bus_byte

/-! ## Decoding: every row of R94 written out, and illegal words of R95 -/

theorem test_decode_control_aes :
    decode 0x00000000 = .ok .nop ∧ decode 0x00000001 = .ok .keyExpand ∧ decode 0x00000002 = .ok .aesEnc := by decide
theorem test_decode_ghash :
    decode 0x00000010 = .ok .ghashLoadh ∧ decode 0x00000011 = .ok .ghashClear ∧ decode 0x00000012 = .ok .ghashBlock := by
  decide
theorem test_decode_gcm :
    decode 0x00000020 = .ok .gcmInit ∧ decode 0x00000021 = .ok .gcmIv ∧ decode 0x00000022 = .ok .gcmIvFinal ∧
    decode 0x00000023 = .ok .gcmAad ∧ decode 0x00000024 = .ok .gcmEnc ∧ decode 0x00000025 = .ok .gcmDec ∧
    decode 0x00000026 = .ok .gcmFinal := by decide
theorem test_decode_cbcmac :
    decode 0x00000030 = .ok .cbcmacInit ∧ decode 0x00000031 = .ok .cbcmacBlock ∧ decode 0x00000032 = .ok .cbcmacFinal := by
  decide
theorem test_decode_illegal :
    decode 0x00000003 = .error .undefinedOpcode ∧ decode 0x00000013 = .error .undefinedOpcode ∧
    decode 0x00000027 = .error .undefinedOpcode ∧ decode 0x00000033 = .error .undefinedOpcode ∧
    decode 0x000000FF = .error .undefinedOpcode ∧ decode 0x00000101 = .error .reservedBits ∧
    decode 0x80000000 = .error .reservedBits := by decide
theorem test_decodeTableWord : decodeTableWord 32 0x24 = some .gcmEnc ∧ decodeTableWord 32 0x124 = none := by decide

/-! ## Commands: one step each -/

/-- A field of the next state. -/
def field {α : Type} (f : State → α) : Host.Outcome State Fault Refusal → Option α
  | .next s => some (f s)
  | .fault _ => none
  | .refused _ => none

/-- The block with command `i` in flight. -/
def inFlight (i : Instr) (s : State) : State := s.accept (encode i)

/-- The block after KEY_EXPAND of a 16-byte key. -/
def keyed (k0 k1 k2 k3 : Word) (s : State) : State :=
  { s with rk := expandKey 4 [k0, k1, k2, k3], nr := .ten, keyValid := true }

/-- The block with the all-zero 16-byte key. -/
def zeroKeyed : State := keyed 0 0 0 0 State.reset

/-- H of the all-zero 16-byte key (R148's example). -/
def zeroKeyH : Block := 0x66e94bd4ef8a2c3b884cfa59ca342b2e

/-- Test case 2 of R188 up to its data: the all-zero key and twelve zero bytes of IV. -/
def zeroMessage : State := { zeroKeyed with h := zeroKeyH, j0 := 1, ctr := 1, phase := .aadOpen }

theorem test_nop : field (fun t => (t.errcode, t.busy, t.done)) (exec .nop (inFlight .nop State.reset)) =
    some (.ok, false, true) := by decide
theorem test_keyExpand_example :
    field (fun t => (t.rk.getD 4 0, t.rk.getD 43 0, t.nr))
      (exec .keyExpand { State.reset with key := #v[0x2b7e1516, 0x28aed2a6, 0xabf71588, 0x09cf4f3c, 0, 0, 0, 0] }) =
    some (0xa0fafe17, 0xb6630ca6, .ten) := by decide +kernel
theorem test_keyExpand_24 : field (fun t => t.errcode) (exec .keyExpand { State.reset with keylen := 24 }) =
    some .invalidKeyLength := by decide
theorem test_aesEnc_fips197 :
    field (fun t => t.dout) (exec .aesEnc { keyed 0x00010203 0x04050607 0x08090a0b 0x0c0d0e0f State.reset with
      din := 0x00112233445566778899aabbccddeeff }) = some 0x69c4e0d86a7b0430d8cdb78070b4c55a := by decide +kernel
theorem test_aesEnc_noKey : field (fun t => t.errcode) (exec .aesEnc State.reset) = some .noKey := by decide
theorem test_ghashLoadh : field (fun t => t.h) (exec .ghashLoadh { State.reset with din := zeroKeyH }) = some zeroKeyH := by decide
theorem test_ghashLoadh_phase : field (fun t => t.errcode) (exec .ghashLoadh { State.reset with phase := .ivOpen }) =
    some .sequence := by decide
theorem test_ghashClear : field (fun t => t.y) (exec .ghashClear { State.reset with y := zeroKeyH }) = some 0 := by decide
theorem test_ghashClear_phase : field (fun t => t.errcode) (exec .ghashClear { State.reset with phase := .dataClosed }) =
    some .sequence := by decide
theorem test_ghashBlock_example :
    field (fun t => t.y) (exec .ghashBlock { State.reset with h := zeroKeyH, din := 0x0388dace60b6a392f328c2b971b2fe78 }) =
    some 0x5e2ec746917062882c85b0685353deb7 := by decide +kernel
theorem test_gcmInit_example : field (fun t => (t.h, t.phase)) (exec .gcmInit zeroKeyed) = some (zeroKeyH, .ivOpen) := by
  decide +kernel
theorem test_gcmInit_noKey : field (fun t => t.errcode) (exec .gcmInit State.reset) = some .noKey := by decide
theorem test_gcmIv_example :
    field (fun t => (t.ivsave, t.lenIv, t.phase))
      (exec .gcmIv { State.reset with
        din := 0xcafebabefacedbaddecaf88800000000, dlen := 12, phase := .ivOpen }) =
    some (0xcafebabefacedbaddecaf88800000000, 96, .ivClosed) := by decide +kernel
theorem test_gcmIv_dlen0 : field (fun t => t.errcode) (exec .gcmIv { State.reset with dlen := 0, phase := .ivOpen }) =
    some .invalidDlen := by decide
theorem test_gcmIvFinal_fast :
    field (fun t => (t.j0, t.ctr, t.phase)) (exec .gcmIvFinal { State.reset with lenIv := 96, phase := .ivClosed }) =
    some (1, 1, .aadOpen) := by decide +kernel
theorem test_gcmIvFinal_empty : field (fun t => t.errcode) (exec .gcmIvFinal { State.reset with phase := .ivOpen }) =
    some .invalidNonceLength := by decide
theorem test_gcmAad_example :
    field (fun t => (t.y, t.lenA, t.phase)) (exec .gcmAad { zeroMessage with dlen := 1 }) = some (0, 8, .aadClosed) := by
  decide +kernel
theorem test_gcmAad_phase : field (fun t => t.errcode) (exec .gcmAad { State.reset with phase := .dataOpen }) =
    some .sequence := by decide
theorem test_gcmEnc_example :
    field (fun t => (t.dout, t.ctr, t.phase)) (exec .gcmEnc zeroMessage) =
    some (0x0388dace60b6a392f328c2b971b2fe78, 2, .dataOpen) := by decide +kernel
theorem test_gcmEnc_dlen17 : field (fun t => t.errcode) (exec .gcmEnc { State.reset with dlen := 17, phase := .dataOpen }) =
    some .invalidDlen := by decide
theorem test_gcmDec_example :
    field (fun t => (t.dout, t.y)) (exec .gcmDec { zeroMessage with din := 0x0388dace60b6a392f328c2b971b2fe78 }) =
    some (0, 0x5e2ec746917062882c85b0685353deb7) := by decide +kernel
theorem test_gcmDec_phase : field (fun t => t.errcode) (exec .gcmDec { State.reset with phase := .dataClosed }) =
    some .sequence := by decide
theorem test_gcmFinal_example :
    field (fun t => (t.tag, t.authOk, t.phase))
      (exec .gcmFinal { zeroMessage with exptag := 0x58e2fccefa7e3061367f1d57a4e7455a }) =
    some (0x58e2fccefa7e3061367f1d57a4e7455a, true, .idle) := by decide +kernel
theorem test_gcmFinal_taglen0 : field (fun t => t.errcode) (exec .gcmFinal { State.reset with taglen := 0, phase := .aadOpen }) =
    some .invalidTagLength := by decide
theorem test_cbcmacInit : field (fun t => t.mac) (exec .cbcmacInit { State.reset with mac := zeroKeyH, phase := .dataOpen }) =
    some 0 := by decide
theorem test_cbcmacBlock_example :
    field (fun t => t.mac) (exec .cbcmacBlock zeroKeyed) = some zeroKeyH ∧
    field (fun t => t.mac) (exec .cbcmacBlock { zeroKeyed with mac := zeroKeyH }) = some 0xf795bd4a52e29ed713d313fa20e98dbc := by
  decide +kernel
theorem test_cbcmacBlock_noKey : field (fun t => t.errcode) (exec .cbcmacBlock State.reset) = some .noKey := by decide
theorem test_cbcmacFinal_example :
    field (fun t => (t.tag, t.authOk))
      (exec .cbcmacFinal { State.reset with
        mac := 0x67c99240c7d51048b4c9bcec10ae0215, din := 0x2f8a00bb06658919c3a040a6eaed1a7f,
        exptag := 0x484392fbc1b099510000000000000000, taglen := 8 }) =
    some (0x484392fbc1b099517769fc4afa43186a, true) := by decide +kernel
theorem test_cbcmacFinal_taglen17 : field (fun t => t.errcode) (exec .cbcmacFinal { State.reset with taglen := 17 }) =
    some .invalidTagLength := by decide

/-! ## The machine around the commands -/

theorem test_withFetchWord : field (fun t => (t.errcode, t.busy)) (step (State.reset.withFetchWord 32 0x02)) =
    some (.noKey, false) := by decide
theorem test_withFetchWord_illegal : field (fun t => t.errcode) (step (State.reset.withFetchWord 32 0x103)) = some .illegalCmd := by
  decide
theorem test_statusWord : statusWord { State.reset with errcode := .noKey, done := true } = 0x00030006 := by decide
theorem test_inc32 : inc32 0xffffffffffffffffffffffffffffffff = 0xffffffffffffffffffffffff00000000 := by decide
theorem test_gmul_example : gmul 0x80000000000000000000000000000000 zeroKeyH = zeroKeyH := by decide +kernel
theorem test_ccmB0 : blockOfBytes (ccmB0 [0x10, 0x11, 0x12, 0x13, 0x14, 0x15, 0x16, 0x17, 0x18, 0x19, 0x1a, 0x1b] 8 20 24) =
    0x5a101112131415161718191a1b000018 := by decide +kernel
theorem test_ccmCounterBlock :
    ccmCounterBlock [0x10, 0x11, 0x12, 0x13, 0x14, 0x15, 0x16, 0x17, 0x18, 0x19, 0x1a, 0x1b] 2 =
    0x02101112131415161718191a1b000002 := by decide +kernel

/-! ## Witnesses: for each statement with hypotheses, what meets them -/

/-- The block with a command in flight and nothing else. -/
def busyReset : State := inFlight .nop State.reset

theorem test_witness_DecodeInvertsEncode : decode 0x00000026 = .ok .gcmFinal := by decide
theorem test_witness_ReadsAfterReset :
    IsOffset 0x000 ∧ IsOffset 0x004 ∧ IsOffset 0x00C ∧ IsOffset 0x010 ∧ IsOffset 0x014 ∧ IsOffset 0x0FC := by decide
theorem test_witness_IdleBlockStaysIdle : State.reset.busy = false ∧ State.reset.schedule = [] := by decide
theorem test_witness_IdleBlockStaysIdle_accept :
    ∃ t, step { State.reset with schedule := [writeAt 0x008 0] } = .next t ∧ State.reset.busy = false ∧ t.busy = true :=
  ⟨_, after_writeAt (by decide) 0 State.reset, rfl, rfl⟩
theorem test_witness_WriteToCmdIssuesCommand : State.reset.busy = false ∧ busyReset.busy = true := by decide
theorem test_witness_WriteWhileIdle :
    State.reset.busy = false ∧
    ∀ off ∈ [0x000, 0x018, 0x01C, 0x050, 0x05C, 0x070, 0x0FC],
      IsOffset off ∧ (off = 0 ∨ off = 0x018 ∨ off = 0x01C ∨ (0x050 ≤ off ∧ off < 0x060) ∨ 0x070 ≤ off) := by decide
theorem test_witness_WriteWhileBusy : busyReset.busy = true ∧ IsOffset 0x000 ∧ IsOffset 0x004 ∧ IsOffset 0x0FC := by decide
theorem test_witness_ReadReturnsCurrentValue :
    State.reset.busy = false ∧ busyReset.busy = true ∧ BusyIsClean busyReset ∧
    ∀ off ∈ [0x000, 0x004, 0x04C, 0x060, 0x06C, 0x0C0, 0x0FC], IsOffset off ∧ ¬ IsResultOffset off := by decide
theorem test_witness_StepRunsPendingCommand :
    busyReset.busy = true ∧ decode busyReset.pend = .ok .nop ∧ busyReset.schedule = [] := by decide
theorem test_witness_IllegalWordReportsIllegalCmd :
    (State.reset.accept 0x00000100).busy = true ∧ (State.reset.accept 0x00000100).pend.extractLsb' 8 24 ≠ 0#24 ∧
    ∀ i ∈ Instr.all, (State.reset.accept 0x00000003).pend.extractLsb' 0 8 ≠ opcode i := by decide
theorem test_witness_EveryCompletionSucceeds : busyReset.busy = true := by decide
theorem test_witness_FailedCommandChangesOnlyStatus :
    ∃ t, exec .aesEnc (inFlight .aesEnc State.reset) = .next t ∧ t.errcode ≠ .ok := ⟨_, rfl, by decide⟩
theorem test_witness_FailedCommandChangesOnlyStatus_life :
    State.reset.busy = false ∧ ∃ t u, after (writeAt 0x008 0x00000100) State.reset = .next t ∧
      after .engine t = .next u ∧ u.errcode ≠ .ok :=
  ⟨rfl, _, _, after_writeAt (by decide) 0x00000100 State.reset, rfl, by decide⟩
theorem test_witness_FirstErrorIsReported :
    (State.reset.accept 0x00000003).busy = true ∧ (∀ i ∈ Instr.all, decode (State.reset.accept 0x00000003).pend ≠ .ok i) ∧
    ({ State.reset with dlen := 0 } : State).phase = .idle ∧ ({ State.reset with dlen := 0 } : State).dlen = 0 := by decide
theorem test_witness_KeyValidUntilReset_more :
    (∃ t, exec .keyExpand State.reset = .next t ∧ t.errcode = .ok) ∧ PhaseNeedsKey State.reset ∧
    State.reset.keyValid = false ∧ ∃ t, after .reset busyReset = .next t := ⟨⟨_, rfl, rfl⟩, by decide, rfl, _, rfl⟩
theorem test_witness_InputRegistersChangeOnlyByWriteOrReset :
    (∃ t, exec .nop busyReset = .next t) ∧
    ∃ t, step { State.reset with keylen := 32, schedule := [.reset] } = .next t ∧
      t.keylen ≠ ({ State.reset with keylen := 32, schedule := [.reset] } : State).keylen :=
  ⟨⟨_, rfl⟩, _, rfl, by decide⟩
theorem test_witness_KeyValidUntilReset :
    (∃ t, step (inFlight .keyExpand State.reset) = .next t ∧ (inFlight .keyExpand State.reset).keyValid = false ∧
      t.keyValid = true) ∧
    ∃ t, step { State.reset with keyValid := true, schedule := [.reset] } = .next t ∧ t.keyValid = false :=
  ⟨⟨_, rfl, rfl, rfl⟩, _, rfl, rfl⟩
theorem test_witness_AuthOkOnlyAfterMatchingTag :
    (∃ t, step (inFlight .cbcmacFinal State.reset) = .next t ∧ (inFlight .cbcmacFinal State.reset).authOk = false ∧
      t.authOk = true) ∧ State.reset.busy = false := ⟨⟨_, rfl, rfl, by decide⟩, rfl⟩
theorem test_witness_OvrChangesOnlyByWriteOrReset :
    (∃ t, step { busyReset with schedule := [writeAt 0x0FC 0] } = .next t ∧ busyReset.ovr = false ∧ t.ovr = true) ∧
    ∃ t, step { State.reset with ovr := true, schedule := [.reset] } = .next t ∧ t.ovr = false :=
  ⟨⟨_, after_writeAt (by decide) 0 busyReset, rfl, rfl⟩, _, rfl, rfl⟩
theorem test_witness_OvrChangesOnlyByWriteOrReset_clear :
    ∃ t, step { State.reset with ovr := true, schedule := [writeAt 0x004 0x80] } = .next t ∧ t.ovr = false :=
  ⟨_, after_writeAt (by decide) 0x80 { State.reset with ovr := true }, rfl⟩
theorem test_witness_PhaseMachineFollowsTable :
    allowedPhases .gcmIv = some [.ivOpen] ∧ State.reset.phase ∉ [Phase.ivOpen] ∧
    (∃ t, exec .gcmIv State.reset = .next t ∧ t.errcode ≠ .ok) ∧ ∃ t, exec .keyExpand State.reset = .next t ∧
      t.errcode = .ok := ⟨rfl, by decide, ⟨_, rfl, by decide⟩, _, rfl, rfl⟩
theorem test_witness_ShortChunkClosesSection :
    (∀ n ∈ [1, 15], ∃ t, exec .gcmAad { zeroMessage with dlen := n } = .next t ∧ t.errcode = .ok) ∧
    ({ zeroMessage with dlen := 15 } : State).dlen ≠ 16 := by
  refine ⟨fun n hn => ?_, by decide⟩
  rcases List.mem_cons.mp hn with rfl | hn
  · exact ⟨_, rfl, rfl⟩
  · rw [List.mem_singleton] at hn
    subst hn
    exact ⟨_, rfl, rfl⟩
theorem test_witness_EachRegisterHasItsWriters :
    ∃ t, exec .ghashLoadh { State.reset with din := 1 } = .next t ∧ t.h ≠ State.reset.h := ⟨_, rfl, by decide⟩
theorem test_witness_PollingWaitsForCompletion : busyReset.busy = true ∧ ∃ t, after .engine busyReset = .next t :=
  ⟨rfl, _, rfl⟩
theorem test_witness_InvariantIsKeptByEveryStep :
    Inv State.reset ∧ Inv busyReset ∧ (∃ t, step State.reset = .next t) ∧ ∃ t, step busyReset = .next t :=
  ⟨by decide, by decide, ⟨_, rfl⟩, _, rfl⟩
theorem test_witness_SafeScheduleNeverStops : ScheduleSafe { State.reset with schedule := [.engine, readAt 0x0FC, .reset] } := by
  simp [ScheduleSafe, Event.wellFormed, BusOp.wellFormed, readAt, BusOp.width, BusOp.addr]
theorem test_witness_InexpressibleAccessIsRefused :
    ¬ (Config.base ≤ (BusOp.read .word (Config.base + 0x100)).addr ∧
      (BusOp.read .word (Config.base + 0x100)).addr < Config.base + 0x100) ∧
    (Config.base ≤ (BusOp.read .byte (Config.base + 0x0FF)).addr ∧
      (BusOp.read .byte (Config.base + 0x0FF)).addr < Config.base + 0x100 ∧
      (BusOp.read .byte (Config.base + 0x0FF)).width ≠ .word) ∧
    (Config.base ≤ (BusOp.read .word (Config.base + 1)).addr ∧
      (BusOp.read .word (Config.base + 1)).addr < Config.base + 0x100 ∧
      ((BusOp.read .word (Config.base + 1)).addr - Config.base) % 4 ≠ 0) ∧
    BusOp.wellFormed (.write .word (Config.base + 0x0FC) 1) := by
  simp [BusOp.wellFormed, BusOp.width, BusOp.addr]
theorem test_witness_UnexpandedKeyScheduleIsUnobservable :
    Inv State.reset ∧ State.reset.keyValid = false ∧ ∃ t, Sys2Proof.core.run 3 State.reset = .next t :=
  ⟨by decide, rfl, State.reset, rfl⟩
theorem test_witness_SecretsAreNotReadable : IsOffset 0x020 ∧ IsOffset 0x0FC := by decide
theorem test_witness_NopOnlyCompletes : State.reset.busy = false := rfl
theorem test_witness_KeyExpandResult :
    (State.reset.keylen.toNat = 16) ∧ ({ State.reset with keylen := 32 } : State).keylen.toNat = 32 ∧
    ∀ n ∈ [(0 : BitVec 6), 15, 17, 31, 33, 63], n.toNat ≠ 16 ∧ n.toNat ≠ 32 := by decide
theorem test_witness_keyed : State.reset.keyValid = false ∧ zeroKeyed.keyValid = true := by decide
theorem test_witness_GhashCommandResults :
    State.reset.phase = .idle ∧ ({ State.reset with phase := .ivOpen } : State).phase ≠ .idle := by decide
theorem test_witness_GcmIvResult :
    State.reset.phase ≠ .ivOpen ∧ ({ State.reset with phase := .ivOpen } : State).phase = .ivOpen ∧
    (∀ n ∈ [(0 : BitVec 5), 17, 31], n.toNat < 1 ∨ 16 < n.toNat) ∧
    ∀ n ∈ [(1 : BitVec 5), 15, 16], 1 ≤ n.toNat ∧ n.toNat ≤ 16 := by decide
theorem test_witness_GcmIvFinalResult :
    State.reset.phase ≠ .ivOpen ∧ State.reset.phase ≠ .ivClosed ∧
    ({ State.reset with phase := .ivOpen } : State).lenIv = 0#64 ∧
    ({ State.reset with phase := .ivClosed, lenIv := 8 } : State).lenIv ≠ 0#64 ∧
    ({ State.reset with phase := .ivClosed, lenIv := 8 } : State).lenIv ≠ 96#64 ∧
    ({ State.reset with phase := .ivClosed, lenIv := 96 } : State).lenIv = 96#64 := by decide
theorem test_witness_GcmAadResult :
    State.reset.phase ≠ .aadOpen ∧ zeroMessage.phase = .aadOpen ∧ 1 ≤ zeroMessage.dlen.toNat ∧ zeroMessage.dlen.toNat ≤ 16 ∧
    16 < ({ zeroMessage with dlen := 17 } : State).dlen.toNat := by decide
theorem test_witness_GcmEncDecResult :
    State.reset.phase ∉ [Phase.aadOpen, .aadClosed, .dataOpen] ∧ zeroMessage.phase ∈ [Phase.aadOpen, .aadClosed, .dataOpen] ∧
    ({ zeroMessage with phase := .dataOpen } : State).phase ∈ [Phase.aadOpen, .aadClosed, .dataOpen] ∧
    1 ≤ zeroMessage.dlen.toNat ∧ zeroMessage.dlen.toNat ≤ 16 ∧
    16 < ({ zeroMessage with dlen := 17 } : State).dlen.toNat := by decide
theorem test_witness_GcmFinalResult :
    State.reset.phase ∉ [Phase.aadOpen, .aadClosed, .dataOpen, .dataClosed] ∧
    ({ zeroMessage with phase := .dataClosed } : State).phase ∈ [Phase.aadOpen, .aadClosed, .dataOpen, .dataClosed] ∧
    State.reset.taglen.toNat ≤ 16 ∧ 16 < ({ State.reset with taglen := 17 } : State).taglen.toNat := by decide
theorem test_witness_CbcMacCommandResults :
    (∀ n ∈ [(0 : BitVec 5), 17], n.toNat < 1 ∨ 16 < n.toNat) ∧ ∀ n ∈ [(1 : BitVec 5), 16], 1 ≤ n.toNat ∧ n.toNat ≤ 16 := by
  decide
theorem test_witness_SboxIsAffineOfInverse : (0x01#8) ≠ 0 ∧ (0xff#8) ≠ 0 := by decide
theorem test_witness_AesTransformationsByCell : (0 < 4) ∧ (3 < 4) := by decide
theorem test_witness_KeyExpansionRecurrence :
    ([1, 2, 3, 4] : List Word).length = 4 ∧ ([1, 2, 3, 4, 5, 6, 7, 8] : List Word).length = 8 ∧
    4 ≤ 43 ∧ 43 < 4 * (4 + 7) ∧ 8 ≤ 59 ∧ 59 < 4 * (8 + 7) := by decide
theorem test_witness_Inc32WrapsInLowWord :
    (0 < maxDataBlocks ∧ maxDataBlocks ≤ maxDataBlocks) ∧ (0 < 1 ∧ 1 ≤ maxDataBlocks) ∧ 4294967296 = 2 ^ 32 := by decide
theorem test_witness_CtEqComparesFirstBytes :
    (1 ≤ 1 ∧ 1 ≤ 16) ∧ ctEq (0x5800 <<< 112) (0x5801 <<< 112) 1 = true ∧ ctEq (0x5800 <<< 112) (0x5801 <<< 112) 2 = false := by
  decide
theorem test_witness_BlockBytesAndMask : (15 < 16) ∧ (3 < 4) ∧ (1 ≤ 1 ∧ 1 ≤ 16) ∧ (1 ≤ 16 ∧ 16 ≤ 16) := by decide
theorem test_witness_GhashSequenceComputesGhash : State.reset.phase = .idle := by decide
theorem test_witness_CbcMacSequenceComputesCbcMac : zeroKeyed.keyValid = true := by decide

/-- `n` zero bytes. -/
def zeros (n : Nat) : List Byte := List.replicate n 0

/-- Their number. -/
theorem zeros_length (n : Nat) : (zeros n).length = n := List.length_replicate

theorem test_witness_FacadeRejectsInOrder :
    ((zeros 24).length ≠ 16 ∧ (zeros 24).length ≠ 32) ∧ (zeros 16).length = 16 ∧ (zeros 32).length = 32 ∧
    (zeros 0).length = 0 ∧ 16 < (zeros 17).length ∧ (zeros 6).length < 7 ∧ 13 < (zeros 14).length ∧
    7 ≤ (zeros 7).length ∧ (zeros 13).length ≤ 13 ∧ 5 ∉ [4, 6, 8, 10, 12, 14, 16] ∧ 18 ∉ [4, 6, 8, 10, 12, 14, 16] ∧
    4 ∈ [4, 6, 8, 10, 12, 14, 16] ∧ 2 ^ (8 * (15 - (zeros 13).length)) ≤ (zeros 65536).length := by
  simp only [zeros_length]; decide
theorem test_witness_GcmEncryptComputesGcm :
    State.reset.busy = false ∧ (zeros 16).length = 16 ∧ (zeros 32).length = 32 ∧ 1 ≤ (zeros 1).length ∧
    8 * (zeros 12).length < 2 ^ 64 ∧ 8 * (zeros 0).length < 2 ^ 64 := by
  simp only [zeros_length]; decide
theorem test_witness_GcmDecryptComputesGcm :
    State.reset.busy = false ∧ ((zeros 16).length = 16 ∨ (zeros 16).length = 32) ∧ 1 ≤ (zeros 1).length ∧
    (zeros 16).length ≤ 16 ∧ 8 * (zeros 1).length < 2 ^ 64 ∧ 8 * (zeros 17).length < 2 ^ 64 := by
  simp only [zeros_length]; decide
theorem test_witness_CcmEncryptComputesCcm :
    State.reset.busy = false ∧ ((zeros 32).length = 16 ∨ (zeros 32).length = 32) ∧ 7 ≤ (zeros 7).length ∧ (zeros 13).length ≤ 13 ∧ 16 ∈ [4, 6, 8, 10, 12, 14, 16] ∧
    (zeros 65535).length < 2 ^ (8 * (15 - (zeros 13).length)) ∧ (zeros 0).length < 2 ^ 64 := by
  simp only [zeros_length]; decide
theorem test_witness_CcmDecryptComputesCcm :
    State.reset.busy = false ∧ ((zeros 16).length = 16 ∨ (zeros 16).length = 32) ∧ 7 ≤ (zeros 12).length ∧
    (zeros 12).length ≤ 13 ∧ (zeros 4).length ∈ [4, 6, 8, 10, 12, 14, 16] ∧ (zeros 0).length < 2 ^ 64 ∧
    (zeros 24).length < 2 ^ (8 * (15 - (zeros 12).length)) := by
  simp only [zeros_length]; decide

/-! ## R240's duties -/

/-- R285: while the block is busy only STATUS may be written, and no result register read. -/
theorem test_duty_wait :
    conformingAccess ⟨.W, 0x004, 1⟩ busyReset = true ∧ conformingAccess ⟨.W, 0x010, 16⟩ busyReset = false ∧
    conformingAccess ⟨.R, 0x00C, 0⟩ busyReset = true ∧ conformingAccess ⟨.R, 0x050, 0⟩ busyReset = false := by decide
/-- R288, R289: no cipher command before a key, no new key within a message, no chunk after a short one. -/
theorem test_duty_key_and_chunks :
    conformingAccess ⟨.W, 0x008, 0x24⟩ State.reset = false ∧ conformingAccess ⟨.W, 0x008, 0x24⟩ zeroMessage = true ∧
    (∀ i ∈ [Instr.aesEnc, .gcmInit, .gcmEnc, .gcmDec, .gcmFinal, .cbcmacBlock], keepsKey i State.reset = false) ∧
    keepsCommandDuties .keyExpand zeroMessage = false ∧
    keepsCommandDuties .gcmAad zeroMessage = true ∧
    keepsCommandDuties .gcmAad { zeroMessage with phase := .aadClosed } = false := by decide
/-- R288: a chain under one key, then one under the next, and a chain whose key is changed before its second block. -/
theorem test_duty_mac_key :
    keepsMacKey [.keyExpand, .cbcmacInit, .cbcmacBlock, .cbcmacFinal, .keyExpand, .cbcmacInit, .cbcmacBlock] = true ∧
    keepsMacKey [.keyExpand, .cbcmacInit, .cbcmacBlock, .keyExpand, .cbcmacBlock] = false ∧
    keepsMacKey [.keyExpand, .cbcmacBlock, .keyExpand, .cbcmacFinal] = false := by decide
/-- R290: the data block with number 2^32 - 2 is the last. -/
theorem test_duty_data_limit :
    keepsDataLimit .gcmEnc { zeroMessage with lenC := 128 * (2 ^ 32 - 3) } = true ∧
    keepsDataLimit .gcmEnc { zeroMessage with lenC := 128 * (2 ^ 32 - 2) } = false := by decide
/-- R290: one nonce, one encryption under a key. By log 28 opening a message is no second use of its nonce, and a call that
R226 rejects is none. -/
theorem test_duty_nonce :
    conformingCalls [.gcmEncrypt (zeros 16) [2] [] [], .gcmEncrypt (zeros 16) [2] [] []] = false ∧
    conformingCalls [.gcmEncrypt (zeros 16) [2] [] [], .gcmDecrypt (zeros 16) [2] [] [] [3],
      .gcmEncrypt (zeros 16) [3] [] []] = true ∧
    conformingCalls [.ccmEncrypt (zeros 16) (zeros 7) [] [] 5, .ccmEncrypt (zeros 16) (zeros 7) [] [] 4] = true := by decide
/-- R289: no AAD after data, no IV after its section, no empty and no long chunk, though the earlier chunks were whole. -/
theorem test_duty_chunks :
    keepsChunks .gcmAad { zeroMessage with phase := .dataOpen, lenA := 8 } = false ∧ keepsChunks .gcmIv zeroMessage = false ∧
    (∀ n ∈ [(0 : BitVec 5), 17, 31], keepsChunks .gcmAad { zeroMessage with dlen := n } = false) ∧
    (∀ n ∈ [(1 : BitVec 5), 16], keepsChunks .gcmEnc { zeroMessage with dlen := n } = true) := by decide

/-- A read of the word at `off`. -/
def reading (off : Nat) : HostTurn := .access ⟨⟨.R, off, 0⟩, []⟩

/-- CBCMAC_FINAL, whose tag's first word the host wants, then `between`, then CBCMAC_FINAL again. -/
def macRun (between : List HostTurn) : List HostTurn :=
  .access ⟨⟨.W, 0x008, 0x32⟩, [.tag 0]⟩ :: between ++ [.access ⟨⟨.W, 0x008, 0x32⟩, []⟩, .engine, reading 0x004]

/-- R285-R287: STATUS is polled until BUSY = 0 and the tag read before the next command that writes TAG. -/
theorem test_duty_run : conformingRun (macRun [reading 0x004, .engine, reading 0x004, reading 0x070]) {} State.reset = true := by
  simp only [macRun, reading, List.cons_append, List.nil_append, conformingRun, HostTurn.event, HostOp.toBusOp, applyEvent,
    busAccess, accessOffset_ok (show IsOffset 0x004 by decide), accessOffset_ok (show IsOffset 0x008 by decide),
    accessOffset_ok (show IsOffset 0x070 by decide)]
  decide
/-- A run that does not wait, one that leaves the tag unread, and one that ends on a command not looked at. -/
theorem test_duty_run_broken :
    conformingRun (macRun [.engine, reading 0x070, reading 0x004]) {} State.reset = false ∧
    conformingRun (macRun [.engine, reading 0x004]) {} State.reset = false ∧
    conformingRun [.access ⟨⟨.W, 0x008, 0⟩, []⟩, .engine] {} State.reset = false := by
  simp only [macRun, reading, List.cons_append, List.nil_append, conformingRun, HostTurn.event, HostOp.toBusOp, applyEvent,
    busAccess, accessOffset_ok (show IsOffset 0x004 by decide), accessOffset_ok (show IsOffset 0x008 by decide),
    accessOffset_ok (show IsOffset 0x070 by decide)]
  decide

end Sys2Proof.Tests
end

section
/-! PROOF. The bytes and words of a block (spec/00_scope.md R11, R12, spec/20_memory.md R62): two more inverse laws, and the
statement about them. -/

namespace Sys2Proof.Machine

/-- The bytes of a block, put together again, make the block. -/
theorem ofBytes_byteOf (b : Block) : ofBytes (byteOf b) = b :=
  block_ext_bytes fun i hi => byteOf_ofBytes (byteOf b) i hi

/-- Byte `r` of word `i` of a block is byte `4 * i + r` of the block (R62). -/
theorem wordByte_blockWord (b : Block) (i r : Nat) (hi : i < 4) (hr : r < 4) :
    wordByte (blockWord b i) r = byteOf b (4 * i + r) := by
  apply BitVec.eq_of_getLsbD_eq
  intro k hk
  have hbit : 32 * (3 - i) + (8 * (3 - r) + k) = 8 * (15 - (4 * i + r)) + k := by omega
  rw [wordByte_getLsbD _ _ _ hk, blockWord_getLsbD _ _ _ (by omega), byteOf_getLsbD _ _ _ hk, hbit]

/-- Settles O53: the bytes and the words of a block determine it, and mask16 keeps the first bytes and zeroes the rest. -/
theorem blockBytesAndMask : Obligations.BlockBytesAndMask :=
  ⟨byteOf_ofBytes, ofBytes_byteOf, fun b n k _ _ hk => byteOf_mask16 b n k hk, wordByte_blockWord, blockOfWords_blockWord⟩

end Sys2Proof.Machine
end

section
/-! PROOF. The writers of each register (spec/10_state.md R39-R52, R57, spec/30_encoding.md R92): which effects can change a
field, said once per field. -/

namespace Sys2Proof.Machine

section writers

variable {i : Instr} {s : State}

/-- The effects that can change DOUT. -/
theorem dout_writers (h : (effectOf i s).dout ≠ s.dout) : i ∈ [Instr.aesEnc, .gcmEnc, .gcmDec] := by
  cases i with
  | aesEnc | gcmEnc | gcmDec => decide
  | _ => exact absurd rfl h

/-- The effects that can change TAG. -/
theorem tag_writers (h : (effectOf i s).tag ≠ s.tag) : i ∈ [Instr.gcmFinal, .cbcmacFinal] := by
  cases i with
  | gcmFinal | cbcmacFinal => decide
  | _ => exact absurd rfl h

/-- The effects that can change AUTH_OK. -/
theorem authOk_writers (h : (effectOf i s).authOk ≠ s.authOk) : i ∈ [Instr.gcmFinal, .cbcmacFinal] := by
  cases i with
  | gcmFinal | cbcmacFinal => decide
  | _ => exact absurd rfl h

/-- The effects that can change MAC. -/
theorem mac_writers (h : (effectOf i s).mac ≠ s.mac) : i ∈ [Instr.cbcmacInit, .cbcmacBlock] := by
  cases i with
  | cbcmacInit | cbcmacBlock => decide
  | _ => exact absurd rfl h

/-- The effects that can change Y. -/
theorem y_writers (h : (effectOf i s).y ≠ s.y) :
    i ∈ [Instr.ghashClear, .ghashBlock, .gcmInit, .gcmIv, .gcmIvFinal, .gcmAad, .gcmEnc, .gcmDec, .gcmFinal] := by
  cases i with
  | nop | keyExpand | aesEnc | ghashLoadh | cbcmacInit | cbcmacBlock | cbcmacFinal => exact absurd rfl h
  | _ => decide

/-- The effects that can change CTR. -/
theorem ctr_writers (h : (effectOf i s).ctr ≠ s.ctr) : i ∈ [Instr.gcmInit, .gcmIvFinal, .gcmEnc, .gcmDec] := by
  cases i with
  | gcmInit | gcmIvFinal | gcmEnc | gcmDec => decide
  | _ => exact absurd rfl h

/-- The effects that can change LEN_A. -/
theorem lenA_writers (h : (effectOf i s).lenA ≠ s.lenA) : i ∈ [Instr.gcmInit, .gcmAad] := by
  cases i with
  | gcmInit | gcmAad => decide
  | _ => exact absurd rfl h

/-- The effects that can change LEN_C. -/
theorem lenC_writers (h : (effectOf i s).lenC ≠ s.lenC) : i ∈ [Instr.gcmInit, .gcmEnc, .gcmDec] := by
  cases i with
  | gcmInit | gcmEnc | gcmDec => decide
  | _ => exact absurd rfl h

/-- Only KEY_EXPAND writes the schedule, NR and the two key flags. -/
theorem effectOf_keyState (hi : i ≠ .keyExpand) (s : State) :
    (effectOf i s).rk = s.rk ∧ (effectOf i s).nr = s.nr ∧ (effectOf i s).keyValid = s.keyValid ∧
      (effectOf i s).key256 = s.key256 := by
  cases i with
  | keyExpand => exact absurd rfl hi
  | _ => exact ⟨rfl, rfl, rfl, rfl⟩

/-- The effects that can change H. -/
theorem h_writers (h : (effectOf i s).h ≠ s.h) : i ∈ [Instr.gcmInit, .ghashLoadh] := by
  cases i with
  | gcmInit | ghashLoadh => decide
  | _ => exact absurd rfl h

/-- The effects that can change J0. -/
theorem j0_writers (h : (effectOf i s).j0 ≠ s.j0) : i ∈ [Instr.gcmInit, .gcmIvFinal] := by
  cases i with
  | gcmInit | gcmIvFinal => decide
  | _ => exact absurd rfl h

/-- The effects that can change IVSAVE or LEN_IV. -/
theorem iv_writers (h : (effectOf i s).ivsave ≠ s.ivsave ∨ (effectOf i s).lenIv ≠ s.lenIv) :
    i ∈ [Instr.gcmInit, .gcmIv] := by
  cases i with
  | gcmInit | gcmIv => decide
  | _ => exact h.elim (absurd rfl) (absurd rfl)

/-- The effects that can change PHASE. -/
theorem phase_writers (h : (effectOf i s).phase ≠ s.phase) :
    i ∈ [Instr.keyExpand, .gcmInit, .gcmIv, .gcmIvFinal, .gcmAad, .gcmEnc, .gcmDec, .gcmFinal] := by
  cases i with
  | keyExpand | gcmInit | gcmIv | gcmIvFinal | gcmAad | gcmEnc | gcmDec | gcmFinal => decide
  | _ => exact absurd rfl h

/-- The effects that can change RK, NR, KEY_VALID or KEY256. -/
theorem keyState_writers (h : (effectOf i s).rk ≠ s.rk ∨ (effectOf i s).nr ≠ s.nr ∨
    (effectOf i s).keyValid ≠ s.keyValid ∨ (effectOf i s).key256 ≠ s.key256) : i = .keyExpand := by
  by_contra hi
  simp [effectOf_keyState hi s] at h

end writers

/-- Settles O23: a command that succeeds writes what its effect writes, and one that fails writes none of these registers. -/
theorem eachRegisterHasItsWriters : Obligations.EachRegisterHasItsWriters := by
  intro i s t h
  rcases exec_next_cases h with ⟨-, rfl⟩ | ⟨-, rfl⟩
  · obtain ⟨hin, hsur, hovr⟩ := effectOf_frame i s
    exact ⟨dout_writers, tag_writers, authOk_writers, mac_writers, y_writers, ctr_writers, lenA_writers, lenC_writers,
      keyState_writers, h_writers, j0_writers, iv_writers, phase_writers, hovr, congrArg InputRegs.pend hin,
      congrArg Surroundings.schedule hsur, congrArg Surroundings.returned hsur, congrArg Surroundings.freeReads hsur⟩
  · simp

end Sys2Proof.Machine
end

section
/-! PROOF. What one step can do, in the form the invariants use: the engine's turn by its outcome, the step by its kind, and
what a bus write never changes. -/

namespace Sys2Proof.Machine

open Sys2Proof.Safety

/-- A word that decodes to a command is the command's word (R94). -/
theorem eq_encode_of_decode {w : Word} {i : Instr} (h : decode w = .ok i) : w = encode i := by
  obtain ⟨hrsv, hopc⟩ := decode_ok_iff.mp h
  rw [word_of_opcField hrsv, hopc, encode]

/-- The engine's turn leaves an idle block alone, applies the effect of the command in flight, or reports an error. -/
theorem engineTurn_outcomes {s t : State} (h : engineTurn s = .next t) :
    (s.busy = false ∧ t = s) ∨
      (s.busy = true ∧ ∃ i, s.pend = encode i ∧ firstError (checksOf s i) = .ok ∧ t = (effectOf i s).succeed) ∨
      (s.busy = true ∧ ∃ c, t = s.raiseError c) := by
  rcases engineTurn_cases h with hidle | ⟨hb, i, hi, he⟩ | ⟨hb, -, ht⟩
  · exact .inl hidle
  · rcases exec_next_cases he with ⟨hc, ht⟩ | ⟨-, ht⟩
    · exact .inr (.inl ⟨hb, i, eq_encode_of_decode hi, hc, ht⟩)
    · exact .inr (.inr ⟨hb, _, ht⟩)
  · exact .inr (.inr ⟨hb, _, ht⟩)

/-- One step, by the agent that moves: the engine, a bus read, a bus write, or the reset input. -/
theorem step_kinds {s t : State} (h : step s = .next t) :
    ∃ rest,
      engineTurn { s with schedule := rest } = .next t ∨
      (∃ off, t = busRead (regAt off) { s with schedule := rest }) ∨
      (∃ off v, s.schedule = writeAt off v :: rest ∧ IsOffset off ∧
        t = busWrite (regAt off) v { s with schedule := rest }) ∨
      (s.schedule = .reset :: rest ∧ t = ({ s with schedule := rest } : State).applyReset) := by
  rcases step_cases h with ⟨hs, he⟩ | ⟨rest, ⟨-, he⟩ | ⟨off, -, -, ht⟩ | hwrite | hreset⟩
  · exact ⟨[], .inl (by rw [← hs]; exact he)⟩
  · exact ⟨rest, .inl he⟩
  · exact ⟨rest, .inr (.inl ⟨off, ht⟩)⟩
  · exact ⟨rest, .inr (.inr (.inl hwrite))⟩
  · exact ⟨rest, .inr (.inr (.inr hreset))⟩

/-- The only next state of a reset taken now. -/
theorem eq_applyReset_of_after_reset {s t : State} (h : after .reset s = .next t) : t = s.applyReset :=
  (Host.Outcome.next.inj ((after_reset s).symm.trans h)).symm

/-- A bus write changes neither KEY_VALID, KEY256 and PHASE nor the hidden state. -/
theorem busWrite_frame (r : Reg) (v : Word) (s : State) :
    (busWrite r v s).keyValid = s.keyValid ∧ (busWrite r v s).key256 = s.key256 ∧ (busWrite r v s).phase = s.phase ∧
      (busWrite r v s).toHiddenRegs = s.toHiddenRegs := by
  rcases busWrite_cases r v s with hw | ⟨-, -, hw⟩ | ⟨-, -, hw⟩ | ⟨-, -, hw⟩ | ⟨-, _, _, _, _, _, _, hw⟩ <;> rw [hw] <;>
    exact ⟨rfl, rfl, rfl, rfl⟩

/-- The result flags of STATUS after a bus write: as they were, unless the write is the acceptance of a command. -/
theorem busWrite_results (r : Reg) (v : Word) (s : State) :
    ((busWrite r v s).busy = s.busy ∧ (busWrite r v s).done = s.done ∧ (busWrite r v s).authOk = s.authOk ∧
      (busWrite r v s).errcode = s.errcode) ∨ busWrite r v s = s.accept v := by
  rcases busWrite_cases r v s with hw | ⟨-, -, hw⟩ | ⟨-, -, hw⟩ | ⟨-, -, hw⟩ | ⟨-, _, _, _, _, _, _, hw⟩ <;> rw [hw]
  case inr.inr.inr.inl => exact .inr rfl
  all_goals exact .inl ⟨rfl, rfl, rfl, rfl⟩

end Sys2Proof.Machine
end

section
/-! PROOF. The block's invariant (spec/10_state.md R25, R28, R33, R48, R55, R56): it holds at reset and every step keeps it. -/

namespace Sys2Proof.Machine

open Sys2Proof.Safety

/-- Settles O25: without a key, PHASE is IDLE, NR is 0 and STATUS shows no result. -/
theorem invariantHoldsAtReset : Obligations.InvariantHoldsAtReset := by
  unfold Obligations.InvariantHoldsAtReset
  decide

/-- The words of a key expansion, counted: one is appended for each index from Nk on (R143). -/
theorem length_foldl_nextKeyWord (nk : Nat) (is : List Nat) (w : List Word) :
    (is.foldl (fun w i => w ++ [nextKeyWord nk w i]) w).length = w.length + is.length := by
  induction is generalizing w with
  | nil => rfl
  | cons i is ih =>
    rw [List.foldl_cons, ih, List.length_append, List.length_singleton, List.length_cons]
    omega

/-- KEY_EXPAND of a valid key length makes the whole schedule (R48, R147). -/
theorem keyExpandEffect_rk_length {s : State} (h : badKeyLength s = false) :
    (keyExpandEffect s).rk.length = 4 * (roundCount (keyExpandEffect s).nr + 1) := by
  have hlen : s.keylen = 16 ∨ s.keylen = 32 := by
    simp only [badKeyLength, decide_eq_false_iff_not] at h
    tauto
  have hrk : (keyExpandEffect s).rk.length =
      ((keyOperand s).take (keyWordCount s)).length + (4 * (keyWordCount s + 7) - keyWordCount s) := by
    simp only [keyExpandEffect, expandKey, length_foldl_nextKeyWord, List.length_range']
  rw [hrk]
  rcases hlen with hl | hl <;> simp [keyExpandEffect, keyOperand, keyWordCount, hl, roundCount]

/-- A command that succeeds leaves PHASE other than IDLE only where there is a key (R55). -/
theorem effectOf_phaseNeedsKey {i : Instr} {s : State} (hs : PhaseNeedsKey s) (hc : firstError (checksOf s i) = .ok) :
    PhaseNeedsKey (effectOf i s) := by
  cases i with
  | nop | aesEnc | ghashLoadh | ghashClear | ghashBlock | cbcmacInit | cbcmacBlock | cbcmacFinal => exact hs
  | keyExpand => exact fun _ => rfl
  | gcmFinal => exact absurd rfl
  | gcmInit =>
    have hkey : s.keyValid = true := by simpa [checksOf, lacksKey] using hc
    exact fun _ => hkey
  | gcmIv | gcmIvFinal | gcmAad | gcmEnc | gcmDec =>
    intro _
    apply hs
    intro hidle
    simp [checksOf, outOfPhase, hidle] at hc

/-- A command that succeeds keeps what ties the key flags, NR and the schedule together (R48, R56). -/
theorem effectOf_keyState_inv {i : Instr} {s : State} (hf : KeyFlagsAgree s) (hr : ScheduleComplete s)
    (hc : firstError (checksOf s i) = .ok) : KeyFlagsAgree (effectOf i s) ∧ ScheduleComplete (effectOf i s) := by
  by_cases hi : i = .keyExpand
  · subst hi
    have hlen : badKeyLength s = false := by simpa [checksOf] using hc
    refine ⟨?_, fun _ => keyExpandEffect_rk_length hlen⟩
    by_cases h32 : s.keylen = 32#6 <;> simp [KeyFlagsAgree, effectOf, keyExpandEffect, h32]
  · obtain ⟨hrk, hnr, hvalid, h256⟩ := effectOf_keyState hi s
    simp only [KeyFlagsAgree, ScheduleComplete, hrk, hnr, hvalid, h256]
    exact ⟨hf, hr⟩

/-- The engine's turn keeps the invariant. -/
theorem engineTurn_inv {s t : State} (hs : Inv s) (h : engineTurn s = .next t) : Inv t := by
  obtain ⟨hphase, hflags, hsched, hclean, hdone⟩ := hs
  rcases engineTurn_outcomes h with ⟨-, rfl⟩ | ⟨-, i, -, hc, rfl⟩ | ⟨hb, c, rfl⟩
  · exact ⟨hphase, hflags, hsched, hclean, hdone⟩
  · obtain ⟨hflags', hsched'⟩ := effectOf_keyState_inv hflags hsched hc
    exact ⟨effectOf_phaseNeedsKey hphase hc, hflags', hsched', by simp [BusyIsClean], by simp [ResultsAreDone]⟩
  · obtain ⟨-, -, hauth⟩ := hclean hb
    exact ⟨hphase, hflags, hsched, by simp [BusyIsClean], by simp [ResultsAreDone, hauth]⟩

/-- A bus write keeps the invariant. -/
theorem busWrite_inv (r : Reg) (v : Word) {s : State} (hs : Inv s) : Inv (busWrite r v s) := by
  obtain ⟨hphase, hflags, hsched, hclean, hdone⟩ := hs
  obtain ⟨hvalid, h256, hph, hhidden⟩ := busWrite_frame r v s
  have hrk := congrArg HiddenRegs.rk hhidden
  have hnr := congrArg HiddenRegs.nr hhidden
  refine ⟨by rwa [PhaseNeedsKey, hph, hvalid], by rwa [KeyFlagsAgree, hvalid, h256, hnr],
    by rwa [ScheduleComplete, hvalid, hrk, hnr], ?_⟩
  rcases busWrite_results r v s with ⟨hb, hd, ha, he⟩ | hw
  · simp only [BusyIsClean, ResultsAreDone, hb, hd, ha, he]
    exact ⟨hclean, hdone⟩
  · simp [hw, BusyIsClean, ResultsAreDone]

/-- Settles O26: the engine's turn, a read, a write and a reset each keep the invariant. -/
theorem invariantIsKeptByEveryStep : Obligations.InvariantIsKeptByEveryStep := by
  intro s t hs h
  obtain ⟨rest, he | ⟨off, rfl⟩ | ⟨off, v, -, -, rfl⟩ | ⟨-, rfl⟩⟩ := step_kinds h
  · exact engineTurn_inv (s := { s with schedule := rest }) hs he
  · exact hs
  · exact busWrite_inv _ _ (s := { s with schedule := rest }) hs
  · exact invariantHoldsAtReset

end Sys2Proof.Machine
end

section
/-! PROOF. KEY_VALID (spec/10_state.md R29): what sets it, what clears it, and the cipher it gates. -/

namespace Sys2Proof.Machine

open Sys2Proof.Safety

/-- Without a key a command that runs the cipher fails: by its own check, or by its phase, which is IDLE (R29, R55). -/
theorem firstError_of_runsCipher {i : Instr} {s : State} (hi : runsCipher i = true) (hs : PhaseNeedsKey s)
    (hk : s.keyValid = false) : firstError (checksOf s i) ∈ [ErrCode.noKey, .sequence] := by
  have hidle : s.phase = .idle := by
    by_contra hne
    simp [hs hne] at hk
  cases i with
  | aesEnc | gcmInit | cbcmacBlock => simp [checksOf, lacksKey, hk]
  | gcmEnc | gcmDec | gcmFinal => simp [checksOf, outOfPhase, hidle]
  | _ => cases hi

/-- One step keeps KEY_VALID, or completes a KEY_EXPAND and sets it, or is a reset and clears it. -/
theorem step_keyValid {s t : State} (h : step s = .next t) :
    t.keyValid = s.keyValid ∨
      (s.busy = true ∧ s.pend = encode .keyExpand ∧ t.errcode = .ok ∧ t.keyValid = true) ∨
      (t.keyValid = false ∧ ∃ rest, s.schedule = .reset :: rest) := by
  obtain ⟨rest, he | ⟨off, rfl⟩ | ⟨off, v, -, -, rfl⟩ | ⟨hr, rfl⟩⟩ := step_kinds h
  · rcases engineTurn_outcomes he with ⟨-, rfl⟩ | ⟨hb, i, hi, -, rfl⟩ | ⟨-, c, rfl⟩
    · exact .inl rfl
    · by_cases hne : i = .keyExpand
      · subst hne
        exact .inr (.inl ⟨hb, hi, rfl, rfl⟩)
      · obtain ⟨-, -, hvalid, -⟩ := effectOf_keyState hne { s with schedule := rest }
        exact .inl hvalid
    · exact .inl rfl
  · exact .inl rfl
  · obtain ⟨hvalid, -⟩ := busWrite_frame (regAt off) v { s with schedule := rest }
    exact .inl hvalid
  · exact .inr (.inr ⟨rfl, rest, hr⟩)

/-- Settles O18: only KEY_EXPAND's effect sets KEY_VALID, only reset clears it, and without it the cipher's checks fail. -/
theorem keyValidUntilReset : Obligations.KeyValidUntilReset := by
  refine ⟨fun s t h => ⟨fun h0 h1 => ?_, fun h1 h0 => ?_⟩, fun s t h hok => ?_, fun s hs hk i hi => ?_, fun s t h => ?_⟩
  · rcases step_keyValid h with hkeep | ⟨hb, hp, he, -⟩ | ⟨hclear, -⟩
    · simp [hkeep, h0] at h1
    · exact ⟨hb, hp, he⟩
    · simp [hclear] at h1
  · rcases step_keyValid h with hkeep | ⟨-, -, -, hset⟩ | ⟨-, hreset⟩
    · simp [hkeep, h1] at h0
    · simp [hset] at h0
    · exact hreset
  · rcases exec_next_cases h with ⟨-, rfl⟩ | ⟨hc, rfl⟩
    · rfl
    · exact absurd hok hc
  · have hcipher : runsCipher i = true := by
      revert i
      decide
    have herr := firstError_of_runsCipher hcipher hs hk
    rcases exec_cases i s with ⟨hc, -⟩ | ⟨-, he⟩
    · simp [hc] at herr
    · exact ⟨_, he, herr⟩
  · rw [eq_applyReset_of_after_reset h]
    rfl

end Sys2Proof.Machine
end

section
/-! PROOF. RK before the first KEY_EXPAND (spec/10_state.md R48, spec/70_reset_and_hazards.md R280): a step from a state
without a key goes the same way whatever RK holds, and so does a run. -/

namespace Sys2Proof.Machine

open Sys2Proof.Safety

/-- The outcome is `t` but for RK, and `t` itself where a key is valid. -/
def IsNextButForRk (o : Host.Outcome State Fault Refusal) (t : State) : Prop :=
  ∃ rk, o = .next { t with rk := rk } ∧ (t.keyValid = true → rk = t.rk)

/-- An outcome that differs only in RK from one without a key. -/
theorem isNextButForRk_of_no_key {o : Host.Outcome State Fault Refusal} {t : State} {rk : List Word}
    (ho : o = .next { t with rk := rk }) (ht : t.keyValid = false) : IsNextButForRk o t :=
  ⟨rk, ho, fun hkey => by simp [ht] at hkey⟩

/-- A bus write neither reads nor writes RK. -/
theorem busWrite_rk (r : Reg) (v : Word) (s : State) (rk : List Word) :
    busWrite r v { s with rk := rk } = { busWrite r v s with rk := rk } := by
  have hstatus : writeStatus v { s with rk := rk } = { writeStatus v s with rk := rk } := by
    unfold writeStatus
    split <;> rfl
  unfold busWrite
  split <;> cases r with
    | status => exact hstatus
    | _ => rfl

/-- No register's value shows RK. -/
theorem readWord_rk (r : Reg) (s : State) (rk : List Word) : readWord { s with rk := rk } r = readWord s r := by
  cases r <;> rfl

/-- A bus read neither shows nor writes RK. -/
theorem busRead_rk (r : Reg) (s : State) (rk : List Word) :
    busRead r { s with rk := rk } = { busRead r s with rk := rk } := by
  simp only [busRead, readWord_rk]
  rfl

/-- A bus access from a state without a key. -/
theorem busAccess_rk {op : BusOp} {s t : State} (hk : s.keyValid = false) (h : busAccess op s = .next t)
    (rk : List Word) : IsNextButForRk (busAccess op { s with rk := rk }) t := by
  rcases busAccess_cases h with ⟨off, rfl, ho, rfl⟩ | ⟨off, v, rfl, ho, rfl⟩
  · refine isNextButForRk_of_no_key (rk := rk) ?_ hk
    simp only [busAccess, accessOffset_ok ho, busRead_rk]
  · refine isNextButForRk_of_no_key (rk := rk) ?_ ((busWrite_frame _ v s).1.trans hk)
    simp only [busAccess, accessOffset_ok ho, busWrite_rk]

/-- No command's checks read RK. -/
theorem checksOf_rk (i : Instr) (s : State) (rk : List Word) : checksOf { s with rk := rk } i = checksOf s i := by
  cases i <;> rfl

/-- A command that does not run the cipher leaves RK alone, unless it is KEY_EXPAND. -/
theorem effectOf_rk {i : Instr} (hc : runsCipher i = false) (hi : i ≠ .keyExpand) (s : State) (rk : List Word) :
    effectOf i { s with rk := rk } = { effectOf i s with rk := rk } := by
  obtain ⟨-, hnr, -, -⟩ := effectOf_keyState hi s
  rw [effectOf_of_not_runsCipher hc hi s rk s.nr]
  simp only [hnr]

/-- A command without a key: one that runs the cipher fails, KEY_EXPAND makes the schedule anew from KEY, and no other looks
at RK. -/
theorem exec_rk {i : Instr} {s t : State} (hs : PhaseNeedsKey s) (hk : s.keyValid = false) (h : exec i s = .next t)
    (rk : List Word) : IsNextButForRk (exec i { s with rk := rk }) t := by
  rw [exec_eq_complete, checksOf_rk, complete]
  rcases exec_next_cases h with ⟨hc, rfl⟩ | ⟨hc, rfl⟩
  · rw [if_pos hc]
    by_cases hi : i = .keyExpand
    · subst hi
      exact ⟨_, rfl, fun _ => rfl⟩
    · have hcipher : runsCipher i = false := by
        by_contra hrun
        have herr := firstError_of_runsCipher (by simpa using hrun) hs hk
        simp [hc] at herr
      obtain ⟨-, -, hvalid, -⟩ := effectOf_keyState hi s
      refine isNextButForRk_of_no_key (rk := rk) ?_ (hvalid.trans hk)
      exact congrArg (fun u : State => Host.Outcome.next u.succeed) (effectOf_rk hcipher hi s rk)
  · rw [if_neg hc]
    exact isNextButForRk_of_no_key (rk := rk) rfl hk

/-- The engine's turn without a key. -/
theorem engineTurn_rk {s t : State} (hs : PhaseNeedsKey s) (hk : s.keyValid = false) (h : engineTurn s = .next t)
    (rk : List Word) : IsNextButForRk (engineTurn { s with rk := rk }) t := by
  unfold engineTurn at h ⊢
  split at h
  case isFalse hb =>
    cases h
    rw [if_neg hb]
    exact isNextButForRk_of_no_key rfl hk
  case isTrue hb =>
    rw [if_pos hb]
    unfold execPending at h ⊢
    cases hd : decode s.pend with
    | ok i =>
      simp only [hd] at h ⊢
      exact exec_rk hs hk h rk
    | error e =>
      simp only [hd] at h ⊢
      cases h
      exact isNextButForRk_of_no_key rfl hk

/-- One event from a state without a key. -/
theorem applyEvent_rk {e : Event} {s t : State} (hs : PhaseNeedsKey s) (hk : s.keyValid = false)
    (h : applyEvent e s = .next t) (rk : List Word) : IsNextButForRk (applyEvent e { s with rk := rk }) t := by
  cases e with
  | bus op => exact busAccess_rk hk h rk
  | engine => exact engineTurn_rk hs hk h rk
  | reset =>
    cases h
    exact ⟨_, rfl, fun _ => rfl⟩

/-- One step from a state without a key. -/
theorem step_rk {s t : State} (hs : PhaseNeedsKey s) (hk : s.keyValid = false) (h : step s = .next t) (rk : List Word) :
    IsNextButForRk (step { s with rk := rk }) t := by
  unfold step at h ⊢
  cases hsched : s.schedule with
  | nil =>
    simp only [hsched] at h ⊢
    exact engineTurn_rk hs hk h rk
  | cons e rest =>
    simp only [hsched] at h ⊢
    exact applyEvent_rk (s := { s with schedule := rest }) hs hk h rk

/-- A run from a state without a key. -/
theorem run_rk (n : Nat) {s t : State} (hs : Inv s) (hk : s.keyValid = false) (h : Sys2Proof.core.run n s = .next t)
    (rk : List Word) : IsNextButForRk (Sys2Proof.core.run n { s with rk := rk }) t := by
  induction n generalizing s rk with
  | zero =>
    cases h
    exact isNextButForRk_of_no_key rfl hk
  | succ n ih =>
    obtain ⟨u, hstep, hrun⟩ := run_succ_next h
    obtain ⟨rk₁, hstep₁, hkeyed⟩ := step_rk hs.1 hk hstep rk
    rw [run_succ_of_step hstep₁]
    cases hvalid : u.keyValid with
    | false => exact ih (invariantIsKeptByEveryStep s u hs hstep) hvalid hrun rk₁
    | true =>
      rw [hkeyed hvalid]
      exact ⟨t.rk, hrun, fun _ => rfl⟩

/-- Settles O29: until a key is valid the two runs differ at most in RK, and from then on they are one run. -/
theorem unexpandedKeyScheduleIsUnobservable : Obligations.UnexpandedKeyScheduleIsUnobservable := by
  intro n s t rk hs hk h
  obtain ⟨rk', hrun, hkeyed⟩ := run_rk n hs hk h rk
  exact ⟨_, hrun, rfl, rfl, fun hvalid => by rw [hkeyed hvalid]⟩

end Sys2Proof.Machine
end

section
/-! PROOF. AUTH_OK and OVR (spec/10_state.md R28, R31): what sets each and what clears it. -/

namespace Sys2Proof.Machine

open Sys2Proof.Safety

/-- The comparison of the first `n` bytes succeeds when they are equal (R183). -/
theorem ctEq_eq_true_iff (t e : Block) (n : Nat) : ctEq t e n = true ↔ ∀ k, k < n → byteOf t k = byteOf e k := by
  rw [ctEq, beq_iff_eq, ctEq_acc_eq_zero]

/-- A command's effect keeps AUTH_OK, or is a tag command's, which sets it to its comparison with EXPTAG (R190, R213). -/
theorem effectOf_authOk (i : Instr) (s : State) :
    (effectOf i s).authOk = s.authOk ∨
      (i ∈ [Instr.gcmFinal, .cbcmacFinal] ∧ (effectOf i s).authOk = ctEq (effectOf i s).tag s.exptag (tagLen s)) := by
  cases i with
  | gcmFinal | cbcmacFinal => exact .inr ⟨by decide, rfl⟩
  | _ => exact .inl rfl

/-- One step that sets AUTH_OK completes a tag command without error, whose comparison succeeds. -/
theorem step_sets_authOk {s t : State} (h : step s = .next t) (h0 : s.authOk = false) (h1 : t.authOk = true) :
    s.busy = true ∧ (∃ i ∈ [Instr.gcmFinal, .cbcmacFinal], s.pend = encode i) ∧ t.errcode = .ok ∧
      ctEq t.tag s.exptag (tagLen s) = true := by
  obtain ⟨rest, he | ⟨off, rfl⟩ | ⟨off, v, -, -, rfl⟩ | ⟨-, rfl⟩⟩ := step_kinds h
  · rcases engineTurn_outcomes he with ⟨-, rfl⟩ | ⟨hb, i, hi, -, rfl⟩ | ⟨-, c, rfl⟩
    · simp [h0] at h1
    · rcases effectOf_authOk i { s with schedule := rest } with hkeep | ⟨hmem, htag⟩
      · simp [hkeep, h0] at h1
      · exact ⟨hb, ⟨i, hmem, hi⟩, rfl, htag.symm.trans h1⟩
    · simp [h0] at h1
  · simp [h0] at h1
  · rcases busWrite_results (regAt off) v { s with schedule := rest } with ⟨-, -, hkeep, -⟩ | hacc
    · simp [hkeep, h0] at h1
    · simp [hacc] at h1
  · cases h1

/-- Settles O19: AUTH_OK comes only from the comparison of a tag command, and acceptance and reset write 0. -/
theorem authOkOnlyAfterMatchingTag : Obligations.AuthOkOnlyAfterMatchingTag := by
  refine ⟨fun s t h h0 h1 => ?_, fun s v hb => ?_, fun s t h => ?_⟩
  · obtain ⟨hb, ⟨i, hmem, hi⟩, he, htag⟩ := step_sets_authOk h h0 h1
    refine ⟨hb, ?_, he, (ctEq_eq_true_iff _ _ _).mp htag⟩
    simp only [List.mem_cons, List.not_mem_nil, or_false] at hmem
    rcases hmem with rfl | rfl
    · exact .inl hi
    · exact .inr hi
  · refine ⟨s.accept v, ?_, rfl⟩
    rw [after_writeAt (by decide), busWrite, if_neg (by simp [hb])]
    rfl
  · rw [eq_applyReset_of_after_reset h]
    rfl

/-- Of the window's words only the one at 0x004 is STATUS (R20). -/
theorem regAt_eq_status_iff {off : Nat} (ho : IsOffset off) : regAt off = .status ↔ off = 0x004 :=
  offset_cases (P := fun off => regAt off = .status ↔ off = 0x004) (by decide) off ho

/-- OVR after a write to STATUS, at any time (R31). -/
theorem busWrite_status_ovr (v : Word) (s : State) :
    (busWrite .status v s).ovr = if v.getLsbD 7 then false else s.ovr := by
  have hw : busWrite .status v s = writeStatus v s := by
    unfold busWrite
    split <;> rfl
  rw [hw, writeStatus]
  split <;> rfl

/-- OVR after a write to any other register: set if the write is dropped, and otherwise as it was (R31, R69). -/
theorem busWrite_ovr {r : Reg} (hr : r ≠ .status) (v : Word) (s : State) :
    (busWrite r v s).ovr = if s.busy then true else s.ovr := by
  unfold busWrite
  split <;> cases r with
    | status => exact absurd rfl hr
    | _ => rfl

/-- No command changes OVR, whether it succeeds or fails. -/
theorem exec_ovr {i : Instr} {s t : State} (h : exec i s = .next t) : t.ovr = s.ovr := by
  obtain ⟨-, -, hovr⟩ := effectOf_frame i s
  rcases exec_next_cases h with ⟨-, rfl⟩ | ⟨-, rfl⟩
  · exact hovr
  · rfl

/-- The engine's turn keeps OVR. -/
theorem engineTurn_ovr {s t : State} (h : engineTurn s = .next t) : t.ovr = s.ovr := by
  rcases engineTurn_cases h with ⟨-, rfl⟩ | ⟨-, i, -, he⟩ | ⟨-, -, rfl⟩
  · rfl
  · exact exec_ovr he
  · rfl

/-- One step keeps OVR, or is a dropped write and sets it, or is a write of bit 7 to STATUS, or a reset, and clears it. -/
theorem step_ovr {s t : State} (h : step s = .next t) :
    t.ovr = s.ovr ∨
      (t.ovr = true ∧ s.busy = true ∧ ∃ off v rest, off ≠ 0x004 ∧ s.schedule = writeAt off v :: rest) ∨
      (t.ovr = false ∧
        ∃ rest, s.schedule = .reset :: rest ∨ ∃ v, v.getLsbD 7 = true ∧ s.schedule = writeAt 0x004 v :: rest) := by
  obtain ⟨rest, he | ⟨off, rfl⟩ | ⟨off, v, hs, ho, rfl⟩ | ⟨hr, rfl⟩⟩ := step_kinds h
  · exact .inl (engineTurn_ovr (s := { s with schedule := rest }) he)
  · exact .inl rfl
  · by_cases h4 : off = 0x004
    · subst h4
      have hw := busWrite_status_ovr v { s with schedule := rest }
      by_cases h7 : v.getLsbD 7 = true
      · exact .inr (.inr ⟨hw.trans (if_pos h7), rest, .inr ⟨v, h7, hs⟩⟩)
      · exact .inl (hw.trans (if_neg h7))
    · have hw := busWrite_ovr (mt (regAt_eq_status_iff ho).mp h4) v { s with schedule := rest }
      by_cases hb : s.busy = true
      · exact .inr (.inl ⟨hw.trans (if_pos hb), hb, off, v, rest, h4, hs⟩)
      · exact .inl (hw.trans (if_neg hb))
  · exact .inr (.inr ⟨rfl, rest, .inl hr⟩)

/-- Settles O20: OVR follows the host's writes and the reset input, and no command touches it. -/
theorem ovrChangesOnlyByWriteOrReset : Obligations.OvrChangesOnlyByWriteOrReset := by
  refine ⟨fun s off v ho => ⟨_, after_writeAt ho v s, fun hb hne => ?_, fun h4 => ?_⟩, fun s t h => ?_,
    fun i s t h => exec_ovr h, fun s t h => ⟨fun h0 h1 => ?_, fun h1 h0 => ?_⟩⟩
  · simp [busWrite_ovr (mt (regAt_eq_status_iff ho).mp hne), hb]
  · rw [(regAt_eq_status_iff ho).mpr h4, busWrite_status_ovr]
  · rw [eq_applyReset_of_after_reset h]
    rfl
  · rcases step_ovr h with hkeep | ⟨-, hset⟩ | ⟨hclear, -⟩
    · simp [hkeep, h0] at h1
    · exact hset
    · simp [hclear] at h1
  · rcases step_ovr h with hkeep | ⟨hset, -⟩ | ⟨-, hclear⟩
    · simp [hkeep, h1] at h0
    · simp [hset] at h0
    · exact hclear

end Sys2Proof.Machine
end

section
/-! PROOF. The STATUS word (spec/10_state.md R24, R27, R32, spec/60_exceptions.md R251), field by field. -/

namespace Sys2Proof.Machine

/-- ERR is set exactly by the codes other than OK (R27, R251). -/
theorem errFlag_eq (s : State) : errFlag s = decide (s.errcode ≠ .ok) := by
  unfold errFlag
  cases s.errcode <;> rfl

/-- The bits of STATUS above its eight flags: ERRCODE and PHASE between reserved bits (R24). -/
def statusUpper (s : State) : BitVec (12 + 4 + 5 + 3) := 0#12 ++ errCodeValue s.errcode ++ 0#5 ++ phaseCode s.phase

/-- STATUS is its upper bits and its eight flags, of which bit 6 is reserved (R24). -/
theorem statusWord_eq (s : State) :
    statusWord s = statusUpper s ++ BitVec.ofBool s.ovr ++ BitVec.ofBool false ++ BitVec.ofBool s.key256 ++
      BitVec.ofBool s.keyValid ++ BitVec.ofBool s.authOk ++ BitVec.ofBool (errFlag s) ++ BitVec.ofBool s.done ++
      BitVec.ofBool s.busy := rfl

/-- A field of STATUS above the flags. -/
theorem extractLsb'_statusWord (s : State) (lo len : Nat) :
    (statusWord s).extractLsb' (lo + 8) len = (statusUpper s).extractLsb' lo len := by
  apply BitVec.eq_of_getLsbD_eq
  intro k hk
  rw [BitVec.getLsbD_extractLsb', BitVec.getLsbD_extractLsb', Nat.add_right_comm]
  simp only [statusWord_eq, getLsbD_append_ofBool_succ]

/-- The four fields of STATUS above the flags. -/
theorem statusUpper_fields (s : State) :
    (statusUpper s).extractLsb' 0 3 = phaseCode s.phase ∧ (statusUpper s).extractLsb' 3 5 = 0#5 ∧
      (statusUpper s).extractLsb' 8 4 = errCodeValue s.errcode ∧ (statusUpper s).extractLsb' 12 12 = 0#12 :=
  ⟨BitVec.extractLsb'_append_eq_right,
    (BitVec.extractLsb'_append_eq_of_le (w := 3) (by decide)).trans BitVec.extractLsb'_append_eq_right,
    (BitVec.extractLsb'_append_eq_of_le (w := 3) (by decide)).trans
      ((BitVec.extractLsb'_append_eq_of_le (w := 5) (by decide)).trans BitVec.extractLsb'_append_eq_right),
    (BitVec.extractLsb'_append_eq_of_le (w := 3) (by decide)).trans
      ((BitVec.extractLsb'_append_eq_of_le (w := 5) (by decide)).trans
        ((BitVec.extractLsb'_append_eq_of_le (w := 4) (by decide)).trans BitVec.extractLsb'_eq_self))⟩

/-- Settles O11: the flags are STATUS's low eight bits in order, and the fields above them are its upper bits'. -/
theorem statusWordLayout : Obligations.StatusWordLayout := by
  refine ⟨fun s => ?_, rfl, rfl⟩
  obtain ⟨hphase, hlow, herr, hhigh⟩ := statusUpper_fields s
  rw [← errFlag_eq]
  refine ⟨?_, ?_, ?_, ?_, ?_, ?_, ?_, ?_, (extractLsb'_statusWord s 0 3).trans hphase,
    (extractLsb'_statusWord s 3 5).trans hlow, (extractLsb'_statusWord s 8 4).trans herr,
    (extractLsb'_statusWord s 12 12).trans hhigh⟩ <;>
    simp only [statusWord_eq, getLsbD_append_ofBool_succ, getLsbD_append_ofBool_zero]

end Sys2Proof.Machine
end

section
/-! PROOF. The register window (spec/20_memory.md R61-R71, R73): which accesses the port can express, what a read returns and
what it never shows, and what a write does while the block is idle and while it is busy. -/

namespace Sys2Proof.Machine

open Sys2Proof.Safety

/-- A bus access now. -/
theorem after_bus (op : BusOp) (s : State) : after (.bus op) s = busAccess op s := rfl

/-- An access without an offset is refused, whether it reads or writes. -/
theorem busAccess_refused {op : BusOp} {r : Refusal} (h : accessOffset op.width op.addr = .error r) (s : State) :
    busAccess op s = .refused r := by
  cases op with
  | read | write =>
    simp only [BusOp.width, BusOp.addr] at h
    simp only [busAccess, h]

/-- An access the port can express has a next state. -/
theorem busAccess_of_wellFormed {op : BusOp} (h : op.wellFormed) (s : State) : ∃ t, busAccess op s = .next t := by
  obtain ⟨hword, hwindow, haligned⟩ := h
  have hoff : accessOffset op.width op.addr = .ok (op.addr - Config.base) := by
    rw [accessOffset, if_pos hwindow, if_pos hword, if_pos haligned]
  cases op with
  | read | write =>
    simp only [BusOp.width, BusOp.addr] at hoff
    simp only [busAccess, hoff]
    exact ⟨_, rfl⟩

/-- Settles O28: the first of the three conditions that fails, window, width, alignment, names the refusal. -/
theorem inexpressibleAccessIsRefused : Obligations.InexpressibleAccessIsRefused := by
  intro s op
  rw [after_bus]
  refine ⟨fun hout => busAccess_refused ?_ s, fun hin hw => busAccess_refused ?_ s,
    fun hin hw ha => busAccess_refused ?_ s, fun h => busAccess_of_wellFormed h s⟩
  · rw [accessOffset, if_neg hout]
  · rw [accessOffset, if_pos hin, if_neg hw]
  · rw [accessOffset, if_pos hin, if_pos hw, if_neg ha]

/-- A write while BUSY = 1 to any register but STATUS is dropped and sets OVR (R69). -/
theorem busWrite_busy {r : Reg} (hr : r ≠ .status) (v : Word) {s : State} (hb : s.busy = true) :
    busWrite r v s = { s with ovr := true } := by
  rw [busWrite, if_pos hb]
  cases r with
  | status => exact absurd rfl hr
  | _ => rfl

/-- A write while BUSY = 0 (R68). -/
theorem busWrite_idle (r : Reg) (v : Word) {s : State} (hb : s.busy = false) : busWrite r v s = writeIdle r v s := by
  rw [busWrite, if_neg (by simp [hb])]

/-- Settles O9: STATUS is the one offset whose write a busy block takes. -/
theorem writeWhileBusy : Obligations.WriteWhileBusy := by
  intro s v off hb ho
  rw [after_writeAt ho]
  by_cases h4 : off = 0x004
  · rw [if_pos h4, (regAt_eq_status_iff ho).mpr h4, busWrite, if_pos hb]
    rfl
  · rw [if_neg h4, busWrite_busy (mt (regAt_eq_status_iff ho).mp h4) v hb]

/-- The host writes register `r` of an idle block now. -/
theorem after_writeAt_idle {off : Nat} {r : Reg} (ho : IsOffset off) (hr : regAt off = r) (v : Word) {s : State}
    (hb : s.busy = false) : after (writeAt off v) s = .next (writeIdle r v s) := by
  rw [after_writeAt ho, hr, busWrite_idle r v hb]

/-- The offsets of KEY0..KEY7 (R20). -/
theorem regAt_key : ∀ i : Fin 8, IsOffset (0x020 + 4 * i) ∧ regAt (0x020 + 4 * i) = .key i := by decide

/-- The offsets of DIN0..DIN3 (R20). -/
theorem regAt_din : ∀ i : Fin 4, IsOffset (0x040 + 4 * i) ∧ regAt (0x040 + 4 * i) = .din i := by decide

/-- The offsets of EXPTAG0..EXPTAG3 (R20). -/
theorem regAt_exptag : ∀ i : Fin 4, IsOffset (0x060 + 4 * i) ∧ regAt (0x060 + 4 * i) = .exptag i := by decide

/-- The offsets of R68's last row are those of ID, of the result registers and of no register (R20, R47). -/
theorem regAt_ignored {off : Nat} (ho : IsOffset off)
    (h : off = 0 ∨ off = 0x018 ∨ off = 0x01C ∨ (0x050 ≤ off ∧ off < 0x060) ∨ 0x070 ≤ off) :
    regAt off = .id ∨ isResult (regAt off) = true ∨ regAt off = .reserved :=
  offset_cases (P := fun off => (off = 0 ∨ off = 0x018 ∨ off = 0x01C ∨ (0x050 ≤ off ∧ off < 0x060) ∨ 0x070 ≤ off) →
    regAt off = .id ∨ isResult (regAt off) = true ∨ regAt off = .reserved) (by decide) off ho h

/-- A write to a read-only or reserved offset is ignored (R47, R68). -/
theorem writeIdle_ignored {r : Reg} (hr : r = .id ∨ isResult r = true ∨ r = .reserved) (v : Word) (s : State) :
    writeIdle r v s = s := by
  rcases hr with rfl | hres | rfl
  · rfl
  · cases r with
    | dout | tag | mac | ghash | ctr | lenaHi | lenaLo | lencHi | lencLo => rfl
    | _ => cases hres
  · rfl

/-- Word `j` of a 128-bit register after the host wrote its word `i`, with the words numbered by `Fin 4` (R62). -/
theorem blockWord_setBlockWord_fin (b : Block) (v : Word) (i j : Fin 4) :
    blockWord (setBlockWord b i v) j = if j = i then v else blockWord b j := by
  rw [blockWord_setBlockWord b i j v j.isLt]
  simp only [Fin.ext_iff]

/-- Settles O8: each offset is its register's of the map, and the write of an idle block is that register's row of R68. -/
theorem writeWhileIdle : Obligations.WriteWhileIdle := by
  intro s v hb
  refine ⟨after_writeAt_idle (by decide) (r := .status) rfl v hb, after_writeAt_idle (by decide) (r := .cmd) rfl v hb,
    after_writeAt_idle (by decide) (r := .keylen) rfl v hb, after_writeAt_idle (by decide) (r := .dlen) rfl v hb,
    after_writeAt_idle (by decide) (r := .taglen) rfl v hb, fun i => ?_, fun i => ?_, fun i => ?_, fun off ho h => ?_⟩
  · obtain ⟨ho, hr⟩ := regAt_key i
    exact after_writeAt_idle ho hr v hb
  · obtain ⟨ho, hr⟩ := regAt_din i
    exact ⟨_, after_writeAt_idle ho hr v hb, blockWord_setBlockWord_fin s.din v i⟩
  · obtain ⟨ho, hr⟩ := regAt_exptag i
    exact ⟨_, after_writeAt_idle ho hr v hb, blockWord_setBlockWord_fin s.exptag v i⟩
  · rw [after_writeAt_idle ho rfl v hb, writeIdle_ignored (regAt_ignored ho h)]

/-- The result registers are those at R286's offsets. -/
theorem isResult_regAt_iff {off : Nat} (ho : IsOffset off) : isResult (regAt off) = true ↔ IsResultOffset off :=
  offset_cases (P := fun off => isResult (regAt off) = true ↔ IsResultOffset off) (by decide) off ho

/-- The register map shows at every offset what R20 lays out there. -/
theorem regValue_regAt (s : State) {off : Nat} (ho : IsOffset off) : regValue s (regAt off) = visibleValue s off := by
  refine offset_cases (P := fun off => regValue s (regAt off) = visibleValue s off) (fun k hk => ?_) off ho
  interval_cases k <;> rfl

/-- A read is unspecified only of a result register and only while BUSY = 1 (R67). -/
theorem readIsFree_eq_false {s : State} {off : Nat} (ho : IsOffset off) (h : s.busy = false ∨ ¬ IsResultOffset off) :
    readIsFree s (regAt off) = false := by
  rcases h with hb | hres
  · rw [readIsFree, hb, Bool.false_and]
  · rw [readIsFree, Bool.eq_false_iff.mpr (mt (isResult_regAt_iff ho).mp hres), Bool.and_false]

/-- While BUSY = 1 bits 3..1 of STATUS, AUTH_OK, ERR and DONE, read 0 (R67). -/
theorem statusWord_results_of_busy {s : State} (hs : BusyIsClean s) (hb : s.busy = true) :
    (statusWord s).extractLsb' 1 3 = 0#3 := by
  obtain ⟨hdone, herr, hauth⟩ := hs hb
  obtain ⟨-, hbit1, hbit2, hbit3, -⟩ := statusWordLayout.1 s
  simp only [hdone, herr, hauth, ne_eq, not_true_eq_false, decide_false] at hbit1 hbit2 hbit3
  apply BitVec.eq_of_getLsbD_eq
  intro k hk
  rw [BitVec.getLsbD_extractLsb', BitVec.getLsbD_zero]
  interval_cases k
  · exact hbit1
  · exact hbit2
  · exact hbit3

/-- Settles O10: the word read is the register's value where the read is not free, and STATUS's layout says what a busy
block shows. -/
theorem readReturnsCurrentValue : Obligations.ReadReturnsCurrentValue := by
  refine ⟨fun s off ho => ⟨_, _, after_readAt ho s, fun h => ?_⟩, fun s hs hb => ?_⟩
  · have hfree := readIsFree_eq_false ho h
    rw [readWord, if_neg (by simp [hfree]), if_neg (by simp [hfree])]
    exact ⟨regValue_regAt s ho, rfl⟩
  · obtain ⟨hbusy, -, -, -, hvalid, h256, -, hovr, hphase, -, herr, -⟩ := statusWordLayout.1 s
    obtain ⟨-, hok, -⟩ := hs hb
    rw [hok] at herr
    exact ⟨hbusy.trans hb, statusWord_results_of_busy hs hb, herr, hvalid, h256, hovr, hphase⟩

/-- No register's value shows the key or the hidden state of R73. -/
theorem readWord_withSecrets (key : Vector Word 8) (rk : List Word) (h j0 ivsave : Block) (lenIv : Count) (pend : Word)
    (s : State) (r : Reg) : readWord (withSecrets key rk h j0 ivsave lenIv pend s) r = readWord s r := by
  cases r <;> rfl

/-- Settles O30: a read returns the same word whatever the secrets are, and leaves them as they are. -/
theorem secretsAreNotReadable : Obligations.SecretsAreNotReadable := by
  intro s off key rk h j0 ivsave lenIv pend ho
  rw [after_readAt ho, after_readAt ho, busRead, readWord_withSecrets]
  rfl

end Sys2Proof.Machine
end

section
/-! PROOF. Polling and progress (spec/20_memory.md R65, R66, R76, spec/40_control.md R118, spec/70_reset_and_hazards.md
R292): the engine neither reads nor writes the surroundings, a STATUS read only lengthens the log of reads, and no
expressible event stops the machine. -/

namespace Sys2Proof.Machine

open Sys2Proof.Safety

/-- The engine's turn on an idle block (R283). -/
theorem engineTurn_idle {s : State} (hb : s.busy = false) : engineTurn s = .next s := by
  rw [engineTurn, if_neg (by simp [hb])]

/-- The engine's turn with a command in flight (R111). -/
theorem engineTurn_of_decode {s : State} {i : Instr} (hb : s.busy = true) (hi : decode s.pend = .ok i) :
    engineTurn s = exec i s := by
  rw [engineTurn, if_pos hb]
  simp only [execPending, hi]

/-- The engine's turn with a word in flight that is no command (R252). -/
theorem engineTurn_of_illegal {s : State} (hb : s.busy = true) (hi : ∀ i, decode s.pend ≠ .ok i) :
    engineTurn s = .next (s.raiseError .illegalCmd) := by
  rw [engineTurn, if_pos hb, execPending]
  cases hd : decode s.pend with
  | ok i => exact absurd hd (hi i)
  | error e => rfl

/-- A completion with other surroundings is the same completion. -/
theorem exec_surroundings {i : Instr} {s t : State} (h : exec i s = .next t) (u : Surroundings) :
    exec i { s with toSurroundings := u } = .next { t with toSurroundings := u } := by
  have hchecks : checksOf { s with toSurroundings := u } i = checksOf s i := by cases i <;> rfl
  have heffect : effectOf i { s with toSurroundings := u } = { effectOf i s with toSurroundings := u } := by
    cases i <;> rfl
  rw [exec_eq_complete, complete, hchecks]
  rcases exec_next_cases h with ⟨hc, rfl⟩ | ⟨hc, rfl⟩
  · rw [if_pos hc, heffect]
    rfl
  · rw [if_neg hc]
    rfl

/-- The engine's turn with other surroundings is the same turn. -/
theorem engineTurn_surroundings {s t : State} (h : engineTurn s = .next t) (u : Surroundings) :
    engineTurn { s with toSurroundings := u } = .next { t with toSurroundings := u } := by
  rcases engineTurn_cases h with ⟨hb, rfl⟩ | ⟨hb, i, hi, he⟩ | ⟨hb, hi, rfl⟩
  · exact engineTurn_idle hb
  · exact (engineTurn_of_decode (s := { s with toSurroundings := u }) hb hi).trans (exec_surroundings he u)
  · exact engineTurn_of_illegal hb hi

/-- The engine's turn leaves the surroundings alone. -/
theorem engineTurn_keeps_surroundings {s t : State} (h : engineTurn s = .next t) :
    t.toSurroundings = s.toSurroundings := by
  rcases engineTurn_outcomes h with ⟨-, rfl⟩ | ⟨-, i, -, -, rfl⟩ | ⟨-, c, rfl⟩
  · rfl
  · obtain ⟨-, hsur, -⟩ := effectOf_frame i s
    exact hsur
  · rfl

/-- The engine's turn leaves the block idle. -/
theorem engineTurn_busy {s t : State} (h : engineTurn s = .next t) : t.busy = false := by
  rcases engineTurn_outcomes h with ⟨hb, rfl⟩ | ⟨-, i, -, -, rfl⟩ | ⟨-, c, rfl⟩
  · exact hb
  · rfl
  · rfl

/-- A step takes the event at the head of the schedule. -/
theorem step_cons (e : Event) (q : List Event) (s : State) :
    step { s with schedule := e :: q } = after e { s with schedule := q } := rfl

/-- A STATUS read only adds STATUS to the log of reads, at any time (R67, R71). -/
theorem after_readStatus (s : State) :
    after (readAt 0x004) s = .next { s with returned := statusWord s :: s.returned } := by
  have hfree : readIsFree s .status = false := Bool.and_false _
  rw [after_readAt (by decide), show regAt 0x004 = .status from rfl, busRead, readWord, if_neg (by simp [hfree]),
    if_neg (by simp [hfree])]
  rfl

/-- A run that begins with STATUS reads goes on as if only the log had grown by them (R76). -/
theorem run_polls (polls n : Nat) (s : State) (q : List Event) :
    Sys2Proof.core.run (polls + n) { s with schedule := List.replicate polls (readAt 0x004) ++ q } =
      Sys2Proof.core.run n
        { s with schedule := q, returned := List.replicate polls (statusWord s) ++ s.returned } := by
  induction polls generalizing s with
  | zero => rw [Nat.zero_add]; rfl
  | succ polls ih =>
    have hpoll := after_readStatus { s with schedule := List.replicate polls (readAt 0x004) ++ q }
    have hrest := ih { s with returned := statusWord s :: s.returned }
    rw [Nat.succ_add, List.replicate_succ, List.cons_append, run_succ_of_step ((step_cons _ _ s).trans hpoll)]
    rw [List.replicate_succ', List.append_assoc]
    exact hrest

/-- The engine's turn at the head of the schedule goes as it would now, whatever is scheduled or logged. -/
theorem step_engine {s t : State} (h : engineTurn s = .next t) (q : List Event) (l : List Word) :
    step { s with schedule := .engine :: q, returned := l } = .next { t with schedule := q, returned := l } := by
  have hfree : t.freeReads = s.freeReads := congrArg Surroundings.freeReads (engineTurn_keeps_surroundings h)
  rw [hfree]
  exact engineTurn_surroundings h ⟨q, l, s.freeReads⟩

/-- Settles O24: the polls only lengthen the log, the engine's turn completes the command as it would have at once, and the
last read shows the idle block. -/
theorem pollingWaitsForCompletion : Obligations.PollingWaitsForCompletion := by
  intro polls s t hb h
  rw [after_engine] at h
  have hsched : t.schedule = s.schedule := congrArg Surroundings.schedule (engineTurn_keeps_surroundings h)
  refine ⟨(statusWord_busy s).trans hb, (statusWord_busy t).trans (engineTurn_busy h), ?_⟩
  rw [run_polls, run_succ_of_step (step_engine h _ _), ← hsched]
  exact run_succ_of_step (after_readStatus { t with returned := List.replicate polls (statusWord s) ++ s.returned })

/-- Every command has a next state (R118). -/
theorem exec_has_next (i : Instr) (s : State) : ∃ t, exec i s = .next t := by
  rcases exec_cases i s with ⟨-, he⟩ | ⟨-, he⟩
  · exact ⟨_, he⟩
  · exact ⟨_, he⟩

/-- The engine's turn has a next state, whatever PEND holds (R118). -/
theorem engineTurn_has_next (s : State) : ∃ t, engineTurn s = .next t := by
  cases hb : s.busy with
  | false => exact ⟨s, engineTurn_idle hb⟩
  | true =>
    cases hd : decode s.pend with
    | ok i =>
      rw [engineTurn_of_decode hb hd]
      exact exec_has_next i s
    | error e => exact ⟨_, engineTurn_of_illegal hb fun i hi => by rw [hd] at hi; cases hi⟩

/-- A bus write leaves the surroundings alone. -/
theorem busWrite_surroundings (r : Reg) (v : Word) (s : State) :
    (busWrite r v s).toSurroundings = s.toSurroundings := by
  rcases busWrite_cases r v s with hw | ⟨-, -, hw⟩ | ⟨-, -, hw⟩ | ⟨-, -, hw⟩ | ⟨-, _, _, _, _, _, _, hw⟩ <;>
    simp only [hw, State.accept]

/-- An event does not change which events come after it. -/
theorem applyEvent_schedule {e : Event} {s t : State} (h : applyEvent e s = .next t) : t.schedule = s.schedule := by
  cases e with
  | engine => exact congrArg Surroundings.schedule (engineTurn_keeps_surroundings h)
  | reset => cases h; rfl
  | bus op =>
    rcases busAccess_cases h with ⟨off, -, -, rfl⟩ | ⟨off, v, -, -, rfl⟩
    · rfl
    · exact congrArg Surroundings.schedule (busWrite_surroundings _ v s)

/-- A well-formed event has a next state. -/
theorem applyEvent_has_next {e : Event} (he : e.wellFormed) (s : State) : ∃ t, applyEvent e s = .next t := by
  cases e with
  | engine => exact engineTurn_has_next s
  | reset => exact ⟨_, rfl⟩
  | bus op => exact busAccess_of_wellFormed he s

/-- Settles O27: the event at the head has a next state, and the events after it are the ones that were there. -/
theorem safeScheduleNeverStops : Obligations.SafeScheduleNeverStops := by
  intro s hsafe
  cases hs : s.schedule with
  | nil =>
    obtain ⟨t, ht⟩ := engineTurn_has_next s
    refine ⟨t, by simp only [step, hs, ht], ?_⟩
    rw [ScheduleSafe, applyEvent_schedule (e := .engine) ht]
    exact hsafe
  | cons e rest =>
    rw [ScheduleSafe, hs, List.forall_mem_cons] at hsafe
    obtain ⟨t, ht⟩ := applyEvent_has_next hsafe.1 { s with schedule := rest }
    refine ⟨t, by simp only [step, hs, ht], ?_⟩
    rw [ScheduleSafe, applyEvent_schedule ht]
    exact hsafe.2

end Sys2Proof.Machine
end

section
/-! PROOF. The encoding of command words: decoder and encoder are inverse to each other, and the sixteen OPC values of R94
are exactly the commands' opcodes. -/

namespace Sys2Proof

/-- The word of a command decodes to it (R94). -/
@[simp] theorem decode_encode (i : Instr) : decode (encode i) = .ok i :=
  decode_ok_iff.mpr ⟨rsvField_encode i, opcField_encode i⟩

/-- A word whose RSV is not 0 is no command (R95). -/
theorem decode_of_rsvField_ne_zero {w : Word} (h : rsvField w ≠ 0) : decode w = .error .reservedBits := if_neg h

/-- A word whose RSV is 0 and whose OPC is no command's is no command (R95). -/
theorem decode_of_opcField_ne_opcode {w : Word} (hrsv : rsvField w = 0) (hopc : ∀ i, opcField w ≠ opcode i) :
    decode w = .error .undefinedOpcode := by
  have hnone : opcodeMap.lookup (opcField w) = none :=
    Option.eq_none_iff_forall_ne_some.mpr fun i hi => hopc i ((lookup_opcodeMap _ i).mp hi)
  rw [decode, if_pos hrsv, hnone]

/-- `Instr.all` leaves out no command. -/
theorem Instr.mem_all (i : Instr) : i ∈ Instr.all := by cases i <;> decide

/-- The commands' opcodes, in the table's order, are the sixteen OPC values of R94. -/
theorem map_opcode_all : Instr.all.map opcode =
    [0x00#8, 0x01, 0x02, 0x10, 0x11, 0x12, 0x20, 0x21, 0x22, 0x23, 0x24, 0x25, 0x26, 0x30, 0x31, 0x32] := rfl

/-- A byte is one of the sixteen OPC values exactly when it is some command's opcode. -/
theorem mem_map_opcode_all {o : Byte} : o ∈ Instr.all.map opcode ↔ ∃ i, o = opcode i := by
  simp [Instr.mem_all, eq_comm]

/-- Settles O1: a command's word has the command's fields, and those fields determine the word. -/
theorem decodeInvertsEncode : Obligations.DecodeInvertsEncode :=
  ⟨decode_encode, fun _ _ h => (Machine.eq_encode_of_decode h).symm⟩

/-- Settles O2: some command has the word's fields exactly when RSV is 0 and OPC is some command's opcode. -/
theorem decoderAcceptsExactlyTheMap : Obligations.DecoderAcceptsExactlyTheMap := by
  intro w
  change _ ↔ rsvField w = 0 ∧ opcField w ∈ _
  rw [← map_opcode_all, mem_map_opcode_all]
  simp only [decode_ok_iff, exists_and_left]

/-- Settles O3: the five legal words are encodings of their commands; the others fail by RSV or by OPC. -/
theorem sampleWordsDecode : Obligations.SampleWordsDecode :=
  ⟨decode_encode .nop, decode_encode .keyExpand, decode_encode .ghashBlock, decode_encode .gcmFinal,
    decode_encode .cbcmacBlock, decode_of_rsvField_ne_zero (by decide),
    decode_of_opcField_ne_opcode rfl fun i => by cases i <;> decide,
    decode_of_opcField_ne_opcode rfl fun i => by cases i <;> decide⟩

end Sys2Proof
end

section
/-! PROOF. The life of a command (spec/40_control.md R110-R114, R117, R118): its acceptance by a write to CMD, its completion
at the engine's turn, what a failed completion writes, and the registers no completion writes. -/

namespace Sys2Proof.Machine

open Sys2Proof.Safety

/-- A write to CMD of an idle block is the acceptance of the word (R110). -/
theorem after_writeCmd_idle (v : Word) {s : State} (hb : s.busy = false) :
    after (writeAt 0x008 v) s = .next (s.accept v) :=
  after_writeAt_idle (by decide) (r := .cmd) rfl v hb

/-- A write to CMD of a busy block is dropped and sets OVR (R69, R110). -/
theorem after_writeCmd_busy (v : Word) {s : State} (hb : s.busy = true) :
    after (writeAt 0x008 v) s = .next { s with ovr := true } :=
  writeWhileBusy s v 0x008 hb (by decide)

/-- Settles O7: an idle block takes the word, whatever it is, and a busy one takes CMD as any offset but STATUS's. -/
theorem writeToCmdIssuesCommand : Obligations.WriteToCmdIssuesCommand :=
  fun _ v => ⟨after_writeCmd_idle v, after_writeCmd_busy v⟩

/-- With nothing scheduled the turn is the engine's. -/
theorem step_of_schedule_nil {s : State} (hs : s.schedule = []) : step s = engineTurn s := by
  simp only [step, hs]

/-- The engine takes its turn on a placed word as it would right after the word's acceptance. -/
theorem step_placeCommand (v : Word) (s : State) : step (placeCommand v s) = engineTurn (s.accept v) := rfl

/-- A 32-bit word, fetched as a number of 32 bits, is placed as it is. -/
theorem withFetchWord_toNat (s : State) (v : Word) : s.withFetchWord 32 v.toNat = placeCommand v s := by
  rw [State.withFetchWord, Nat.mod_eq_of_lt v.isLt, BitVec.ofNat_toNat, BitVec.setWidth_eq]

/-- The engine's turn right after the acceptance of a command runs that command (R111). -/
theorem engineTurn_accept_encode (i : Instr) (s : State) :
    engineTurn (s.accept (encode i)) = exec i (s.accept (encode i)) :=
  engineTurn_of_decode rfl (decode_encode i)

/-- Settles O12: the engine's turn decodes PEND, and the placed word is the command's own. -/
theorem stepRunsPendingCommand : Obligations.StepRunsPendingCommand := by
  intro s i
  refine ⟨fun hb hi => ?_, ?_⟩
  · have hturn : engineTurn s = exec i s := engineTurn_of_decode hb hi
    exact ⟨(after_engine s).trans hturn, fun hs => (step_of_schedule_nil hs).trans hturn⟩
  · rw [withFetchWord_toNat, step_placeCommand, engineTurn_accept_encode]

/-- NOP has no check that could fail and no effect (R114). -/
theorem exec_nop (s : State) : exec .nop s = .next s.succeed := by
  rw [exec_eq_complete]
  exact if_pos rfl

/-- Settles O32: NOP's word is 0, its acceptance sets BUSY and clears the flags, and its completion clears BUSY again. -/
theorem nopOnlyCompletes : Obligations.NopOnlyCompletes := by
  refine ⟨decode_encode .nop, exec_nop, fun s hb => ⟨_, after_writeCmd_idle _ hb, ?_⟩⟩
  calc after .engine (s.accept (encode .nop))
      = .next (s.accept (encode .nop)).succeed := (engineTurn_accept_encode .nop s).trans (exec_nop _)
    _ = .next { s with pend := 0#32, busy := false, done := true, errcode := .ok, authOk := false } := rfl
    _ = .next { s with pend := 0#32, done := true, errcode := .ok, authOk := false } := by
        simp only [hb]

/-- Every completion writes BUSY = 0 and DONE = 1 (R111). -/
theorem exec_completes {i : Instr} {s t : State} (h : exec i s = .next t) : t.busy = false ∧ t.done = true := by
  rcases exec_next_cases h with ⟨-, rfl⟩ | ⟨-, rfl⟩
  · exact ⟨rfl, rfl⟩
  · exact ⟨rfl, rfl⟩

/-- The engine's turn with any word in flight writes DONE = 1 (R111, R252). -/
theorem engineTurn_done {s t : State} (hb : s.busy = true) (h : engineTurn s = .next t) : t.done = true := by
  rcases engineTurn_outcomes h with ⟨hidle, -⟩ | ⟨-, i, -, -, rfl⟩ | ⟨-, c, rfl⟩
  · simp [hb] at hidle
  · rfl
  · rfl

/-- Settles O14: every completion has a next state, which is idle, and an idle block accepts the next word. -/
theorem everyCompletionSucceeds : Obligations.EveryCompletionSucceeds := by
  refine ⟨fun i s => ?_, fun s v hb => ?_⟩
  · obtain ⟨t, ht⟩ := exec_has_next i s
    exact ⟨t, ht, exec_completes ht⟩
  · obtain ⟨t, ht⟩ := engineTurn_has_next s
    have hidle : t.busy = false := engineTurn_busy ht
    exact ⟨t, ht, hidle, engineTurn_done hb ht, after_writeCmd_idle v hidle⟩

/-- A command that reports an error has written nothing but its code, BUSY and DONE (R113). -/
theorem exec_failed {i : Instr} {s t : State} (h : exec i s = .next t) (he : t.errcode ≠ .ok) :
    t = s.raiseError t.errcode := by
  rcases exec_next_cases h with ⟨-, rfl⟩ | ⟨-, rfl⟩
  · exact absurd rfl he
  · rfl

/-- The engine's turn that reports an error, be it a command's or an illegal word's, has written nothing but the code, BUSY
and DONE (R113, R252). -/
theorem engineTurn_failed {s t : State} (hb : s.busy = true) (h : engineTurn s = .next t) (he : t.errcode ≠ .ok) :
    t = s.raiseError t.errcode := by
  rcases engineTurn_outcomes h with ⟨hidle, -⟩ | ⟨-, i, -, -, rfl⟩ | ⟨-, c, rfl⟩
  · simp [hb] at hidle
  · exact absurd rfl he
  · rfl

/-- Settles O15: a failed completion only raises its error, and before it only the acceptance has written. -/
theorem failedCommandChangesOnlyStatus : Obligations.FailedCommandChangesOnlyStatus := by
  refine ⟨fun i s t h he => exec_failed h he, fun v s t u hb hacc hturn he => ?_⟩
  rw [after_writeCmd_idle v hb] at hacc
  rw [after_engine] at hturn
  obtain rfl : s.accept v = t := Host.Outcome.next.inj hacc
  exact engineTurn_failed (State_accept_busy v s) hturn he

/-- No command writes an input register, whether it succeeds or fails (R117). -/
theorem exec_inputRegs {i : Instr} {s t : State} (h : exec i s = .next t) : t.toInputRegs = s.toInputRegs := by
  obtain ⟨hin, -, -⟩ := effectOf_frame i s
  rcases exec_next_cases h with ⟨-, rfl⟩ | ⟨-, rfl⟩
  · exact hin
  · rfl

/-- The engine's turn writes no input register (R117). -/
theorem engineTurn_inputRegs {s t : State} (h : engineTurn s = .next t) : t.toInputRegs = s.toInputRegs := by
  rcases engineTurn_cases h with ⟨-, rfl⟩ | ⟨-, i, -, he⟩ | ⟨-, -, rfl⟩
  · rfl
  · exact exec_inputRegs he
  · rfl

/-- One step keeps the input registers unless it is a bus write or a reset (R117). -/
theorem step_inputRegs {s t : State} (h : step s = .next t) :
    t.toInputRegs = s.toInputRegs ∨ ∃ rest, s.schedule = .reset :: rest ∨ ∃ off v, s.schedule = writeAt off v :: rest := by
  obtain ⟨rest, he | ⟨off, rfl⟩ | ⟨off, v, hs, -, -⟩ | ⟨hr, -⟩⟩ := step_kinds h
  · exact .inl (engineTurn_inputRegs (s := { s with schedule := rest }) he)
  · exact .inl rfl
  · exact .inr ⟨rest, .inr ⟨off, v, hs⟩⟩
  · exact .inr ⟨rest, .inl hr⟩

/-- Settles O17: a command and every other step but a write and a reset keep all the input registers together. -/
theorem inputRegistersChangeOnlyByWriteOrReset : Obligations.InputRegistersChangeOnlyByWriteOrReset := by
  refine ⟨fun i s t h => ?_, fun s t h hne => ?_⟩
  · rw [exec_inputRegs h]
    exact ⟨rfl, rfl, rfl, rfl, rfl, rfl⟩
  · rcases step_inputRegs h with hkeep | ⟨rest, hr | ⟨off, v, hs⟩⟩
    · simp [hkeep] at hne
    · exact ⟨rest, .inl hr⟩
    · exact ⟨rest, .inr ⟨_, _, _, hs⟩⟩

end Sys2Proof.Machine
end

section
/-! PROOF. Arithmetic in GF(2^8) (spec/41_aes.md R130-R132): a byte as a polynomial over GF(2) and its residue modulo R130's
polynomial; gf8Mul multiplies the residues, so that it is the field's product. -/

namespace Sys2Proof.Machine

open Polynomial

/-- R130's modulus m(x). -/
noncomputable def gf8Modulus : (ZMod 2)[X] := X ^ 8 + X ^ 4 + X ^ 3 + X + 1

/-- A byte as a polynomial, bit `k` the coefficient of x^k (R130). -/
noncomputable def bytePoly (b : Byte) : (ZMod 2)[X] := ∑ k ∈ Finset.range 8, if b.getLsbD k then X ^ k else 0

/-- A byte's residue modulo m(x). -/
noncomputable def gf8Residue (b : Byte) : AdjoinRoot gf8Modulus := AdjoinRoot.mk gf8Modulus (bytePoly b)

/-- The polynomial of the zero byte. -/
theorem bytePoly_zero : bytePoly 0#8 = 0 := by simp [bytePoly]

/-- The coefficient of x^k is bit k. -/
theorem coeff_bytePoly (b : Byte) (k : Nat) : (bytePoly b).coeff k = if b.getLsbD k then 1 else 0 := by
  have hterm : ∀ j, (if b.getLsbD j then (X : (ZMod 2)[X]) ^ j else 0).coeff k =
      if k = j then (if b.getLsbD k then 1 else 0) else 0 := by
    intro j
    by_cases hj : k = j
    · subst hj
      split <;> simp
    · split <;> simp [coeff_X_pow, hj]
  simp only [bytePoly, finsetSum_coeff, hterm, Finset.sum_ite_eq, Finset.mem_range]
  by_cases hk : k < 8
  · rw [if_pos hk]
  · simp [hk, BitVec.getLsbD_of_ge b k (by omega)]

/-- The polynomial determines the byte. -/
theorem bytePoly_injective : Function.Injective bytePoly := by
  intro a b h
  apply BitVec.eq_of_getLsbD_eq
  intro k _
  have hk := congrArg (fun p => p.coeff k) h
  simp only [coeff_bytePoly] at hk
  cases ha : a.getLsbD k <;> cases hb : b.getLsbD k <;> simp [ha, hb] at hk ⊢

/-- Addition of bytes is xor (R130). -/
theorem bytePoly_xor (a b : Byte) : bytePoly (a ^^^ b) = bytePoly a + bytePoly b := by
  simp only [bytePoly, ← Finset.sum_add_distrib, BitVec.getLsbD_xor]
  refine Finset.sum_congr rfl fun k _ => ?_
  cases a.getLsbD k <;> cases b.getLsbD k <;> simp [CharTwo.add_self_eq_zero]

/-- A byte's polynomial has a degree below 8. -/
theorem degree_bytePoly_lt (b : Byte) : (bytePoly b).degree < 8 := by
  refine (degree_lt_iff_coeff_zero _ 8).mpr fun k hk => ?_
  rw [coeff_bytePoly, BitVec.getLsbD_of_ge b k hk]
  rfl

/-- The modulus has degree 8. -/
theorem degree_gf8Modulus : gf8Modulus.degree = 8 := by
  unfold gf8Modulus
  compute_degree!

/-- xtime shifts, and reduces by 0x1B where bit 7 leaves the byte (R131). -/
theorem xtime_eq (b : Byte) : xtime b = (b <<< 1) ^^^ (if b.getLsbD 7 then 0x1B#8 else 0#8) := by
  unfold xtime
  split <;> simp

/-- A shift multiplies the polynomial by x and drops x^8. -/
theorem bytePoly_shiftLeft_one (b : Byte) :
    X * bytePoly b = bytePoly (b <<< 1) + if b.getLsbD 7 then X ^ 8 else 0 := by
  rw [bytePoly, bytePoly, Finset.sum_range_succ, Finset.sum_range_succ' _ 7, mul_add, Finset.mul_sum]
  congr 1
  · rw [show (b <<< 1).getLsbD 0 = false by simp, if_neg Bool.false_ne_true, add_zero]
    refine Finset.sum_congr rfl fun k hk => ?_
    have hbit : (b <<< 1).getLsbD (k + 1) = b.getLsbD k := by
      have := Finset.mem_range.mp hk
      simp [show k + 1 < 8 by omega, BitVec.getLsbD_eq_getElem (show k < 8 by omega)]
    rw [hbit, mul_ite, mul_zero, ← pow_succ']
  · rw [mul_ite, mul_zero, ← pow_succ']

/-- Modulo m(x), x^8 is the polynomial of 0x1B. -/
theorem gf8Residue_0x1B : AdjoinRoot.mk gf8Modulus (X ^ 8) = gf8Residue 0x1B#8 := by
  refine AdjoinRoot.mk_eq_mk.mpr (dvd_of_eq ?_)
  have hpoly : bytePoly 0x1B#8 = X ^ 4 + X ^ 3 + X + 1 := by
    simp [bytePoly, Finset.sum_range_succ]
    ring
  rw [hpoly, CharTwo.sub_eq_add, gf8Modulus]
  ring

/-- The residue of the zero byte. -/
@[simp] theorem gf8Residue_zero : gf8Residue 0#8 = 0 := by rw [gf8Residue, bytePoly_zero, map_zero]

/-- Residues add as bytes xor (R130). -/
theorem gf8Residue_xor (a b : Byte) : gf8Residue (a ^^^ b) = gf8Residue a + gf8Residue b := by
  rw [gf8Residue, bytePoly_xor, map_add, gf8Residue, gf8Residue]

/-- xtime multiplies the residue by x (R131). -/
theorem gf8Residue_xtime (b : Byte) : gf8Residue (xtime b) = AdjoinRoot.root gf8Modulus * gf8Residue b := by
  have hshift : AdjoinRoot.root gf8Modulus * gf8Residue b =
      gf8Residue (b <<< 1) + if b.getLsbD 7 then gf8Residue 0x1B#8 else 0 := by
    rw [gf8Residue, ← AdjoinRoot.mk_X, ← map_mul, bytePoly_shiftLeft_one, map_add, apply_ite (AdjoinRoot.mk gf8Modulus),
      map_zero, gf8Residue_0x1B, ← gf8Residue]
  rw [hshift, xtime_eq, gf8Residue_xor, apply_ite gf8Residue, gf8Residue_zero]

/-- `i` times xtime multiplies the residue by x^i. -/
theorem gf8Residue_xtimes (i : Nat) (b : Byte) :
    gf8Residue (xtimes i b) = AdjoinRoot.root gf8Modulus ^ i * gf8Residue b := by
  induction i generalizing b with
  | zero => rw [xtimes, pow_zero, one_mul]
  | succ i ih => rw [xtimes, ih, gf8Residue_xtime, pow_succ, mul_assoc]

/-- The accumulator of `gf8Mul` after `n` bits of `b`: the sum of those bits' multiples of `a`. -/
theorem gf8Residue_mul_acc (a b : Byte) (n : Nat) :
    gf8Residue ((List.range n).foldl (fun acc i => if b.getLsbD i then acc ^^^ xtimes i a else acc) 0#8) =
      (∑ i ∈ Finset.range n, if b.getLsbD i then AdjoinRoot.root gf8Modulus ^ i else 0) * gf8Residue a := by
  induction n with
  | zero => exact gf8Residue_zero.trans (zero_mul _).symm
  | succ n ih =>
    rw [List.range_succ, List.foldl_append, List.foldl_cons, List.foldl_nil, Finset.sum_range_succ, add_mul, ← ih]
    split
    · rw [gf8Residue_xor, gf8Residue_xtimes]
    · rw [zero_mul, add_zero]

/-- A byte's residue is the sum of its bits' powers of x. -/
theorem gf8Residue_eq_sum (b : Byte) :
    gf8Residue b = ∑ i ∈ Finset.range 8, if b.getLsbD i then AdjoinRoot.root gf8Modulus ^ i else 0 := by
  simp only [gf8Residue, bytePoly, map_sum, apply_ite (AdjoinRoot.mk gf8Modulus), map_pow, AdjoinRoot.mk_X, map_zero]

/-- gf8Mul multiplies residues (R130, R132). -/
theorem gf8Residue_gf8Mul (a b : Byte) : gf8Residue (gf8Mul a b) = gf8Residue a * gf8Residue b := by
  rw [gf8Mul, gf8Residue_mul_acc, ← gf8Residue_eq_sum, mul_comm]

/-- The residue determines the byte: two polynomials below degree 8 that agree modulo m(x) are equal. -/
theorem gf8Residue_injective : Function.Injective gf8Residue := by
  intro a b h
  apply bytePoly_injective
  refine sub_eq_zero.mp (eq_zero_of_dvd_of_degree_lt (AdjoinRoot.mk_eq_mk.mp h) ?_)
  rw [degree_gf8Modulus]
  exact (degree_sub_le _ _).trans_lt (max_lt (degree_bytePoly_lt a) (degree_bytePoly_lt b))

/-- gf8Mul is commutative. -/
theorem gf8Mul_comm (a b : Byte) : gf8Mul a b = gf8Mul b a := by
  apply gf8Residue_injective
  rw [gf8Residue_gf8Mul, gf8Residue_gf8Mul, mul_comm]

/-- Settles O44: equal residues are congruence modulo m(x), and gf8Mul multiplies residues. -/
theorem gf8MulIsPolynomialProduct : Obligations.Gf8MulIsPolynomialProduct := by
  intro a b
  apply AdjoinRoot.mk_eq_mk.mp
  rw [map_mul]
  exact gf8Residue_gf8Mul a b

end Sys2Proof.Machine
end

section
/-! PROOF. The S-box and the transformations of the AES state (spec/41_aes.md R132-R139, R145), byte by byte and cell by
cell. -/

namespace Sys2Proof.Machine

/-- 01 is the identity. -/
theorem gf8Mul_one_left (a : Byte) : gf8Mul 1 a = a := by
  have hbits : gf8Mul a 1 = 0#8 ^^^ a := rfl
  rw [gf8Mul_comm, hbits, BitVec.zero_xor]

/-- 02 multiplies as xtime does (R138). -/
theorem gf8Mul_two_left (a : Byte) : gf8Mul 2 a = xtime a := by
  have hbits : gf8Mul a 2 = 0#8 ^^^ xtime a := rfl
  rw [gf8Mul_comm, hbits, BitVec.zero_xor]

/-- 03 = 02 + 01 (R138). -/
theorem gf8Mul_three_left (a : Byte) : gf8Mul 3 a = xtime a ^^^ a := by
  have hbits : gf8Mul a 3 = 0#8 ^^^ a ^^^ xtime a := rfl
  rw [gf8Mul_comm, hbits, BitVec.zero_xor, BitVec.xor_comm]

/-- The 256 bytes checked one by one: each but 0 has its inverse (R132), and the table holds the affine image of the inverse
(R133, R134). -/
theorem gf8Inv_sbox_table : ∀ a : Byte, (a ≠ 0 → gf8Mul a (gf8Inv a) = 0x01#8) ∧ sbox a = sboxAffine (gf8Inv a) := by
  decide +kernel

/-- Bit k of a byte rotated right by `r` places is its bit k + r, indices mod 8. -/
theorem rotateRight_getLsbD (b : Byte) (r k : Nat) (hr : r < 8) (hk : k < 8) :
    (b.rotateRight r).getLsbD k = b.getLsbD ((k + r) % 8) := by
  rw [BitVec.getLsbD_rotateRight, Nat.mod_eq_of_lt hr, Bool.cond_decide]
  by_cases h : k < 8 - r
  · rw [if_pos h, Nat.mod_eq_of_lt (by omega), Nat.add_comm]
  · rw [if_neg h, Nat.mod_eq_sub_mod (by omega), Nat.mod_eq_of_lt (show k + r - 8 < 8 by omega), decide_eq_true hk,
      Bool.true_and]
    congr 1
    omega

/-- The affine map of the S-box, bit by bit (R133). -/
theorem sboxAffine_getLsbD (b : Byte) (k : Nat) (hk : k < 8) :
    (sboxAffine b).getLsbD k =
      (b.getLsbD k ^^ b.getLsbD ((k + 4) % 8) ^^ b.getLsbD ((k + 5) % 8) ^^ b.getLsbD ((k + 6) % 8) ^^
        b.getLsbD ((k + 7) % 8) ^^ (0x63#8).getLsbD k) := by
  simp only [sboxAffine, BitVec.getLsbD_xor]
  rw [rotateRight_getLsbD b 4 k (by decide) hk, rotateRight_getLsbD b 5 k (by decide) hk,
    rotateRight_getLsbD b 6 k (by decide) hk, rotateRight_getLsbD b 7 k (by decide) hk]

/-- Settles O45: the inverse and the table are checked byte by byte, and the affine map is R133's bit by bit. -/
theorem sboxIsAffineOfInverse : Obligations.SboxIsAffineOfInverse := by
  refine ⟨fun a => (gf8Inv_sbox_table a).1, by decide, fun x k => ?_⟩
  rw [(gf8Inv_sbox_table x).2]
  exact sboxAffine_getLsbD (gf8Inv x) k k.isLt

/-- The state array of a block, stored again, is the block (R135, R145). -/
theorem ofCells_cell (b : Block) : ofCells (cell b) = b := by
  refine block_ext_bytes fun i hi => ?_
  rw [ofCells, byteOf_ofBytes _ _ hi, cell, Nat.mod_add_div]

/-- MixColumns in row `r`, with R138's coefficients counted from that row on. -/
theorem cell_mixColumns (b : Block) (r c : Nat) (hr : r < 4) (hc : c < 4) :
    cell (mixColumns b) r c =
      gf8Mul 2 (cell b r c) ^^^ gf8Mul 3 (cell b ((r + 1) % 4) c) ^^^ gf8Mul 1 (cell b ((r + 2) % 4) c) ^^^
        gf8Mul 1 (cell b ((r + 3) % 4) c) := by
  rw [mixColumns, cell_ofCells _ _ _ hr hc, gf8Mul_two_left, gf8Mul_three_left, gf8Mul_one_left, gf8Mul_one_left]
  simp only [Nat.add_zero, Nat.mod_eq_of_lt hr]

/-- Settles O46: each transformation is built cell by cell; MixColumns's rows are one formula, its terms in R138's order. -/
theorem aesTransformationsByCell : Obligations.AesTransformationsByCell := by
  refine ⟨fun a => ⟨gf8Mul_two_left a, gf8Mul_three_left a⟩, by decide +kernel, by decide +kernel, fun b w rnd =>
    ⟨ofCells_cell b, fun c hc => ⟨fun r hr => ⟨rfl, cell_ofCells _ r c hr hc, cell_ofCells _ r c hr hc,
      cell_ofCells _ r c hr hc⟩, ?_, ?_, ?_, ?_⟩⟩⟩
  · exact cell_mixColumns b 0 c (by decide) hc
  · simp only [cell_mixColumns b 1 c (by decide) hc, Nat.reduceAdd, Nat.reduceMod]
    ac_rfl
  · simp only [cell_mixColumns b 2 c (by decide) hc, Nat.reduceAdd, Nat.reduceMod]
    ac_rfl
  · simp only [cell_mixColumns b 3 c (by decide) hc, Nat.reduceAdd, Nat.reduceMod]
    ac_rfl

end Sys2Proof.Machine
end

section
/-! PROOF. The key expansion (spec/41_aes.md R143), whose words are each appended once and computed from the words before
them, and the cipher's worked examples (R146, R148). -/

namespace Sys2Proof.Machine

/-- Word `j` of a schedule is the same in every longer one. -/
theorem rkWord_of_prefix {v w : List Word} (h : v <+: w) {j : Nat} (hj : j < v.length) : rkWord w j = rkWord v j := by
  obtain ⟨t, rfl⟩ := h
  exact List.getD_append v t 0 j hj

/-- The next word depends only on the words before it. -/
theorem nextKeyWord_of_prefix {v w : List Word} (h : v <+: w) {nk i : Nat} (hnk : 0 < nk) (hi : 0 < i)
    (hlen : i ≤ v.length) : nextKeyWord nk w i = nextKeyWord nk v i := by
  simp only [nextKeyWord, rkWord_of_prefix h (show i - 1 < v.length by omega),
    rkWord_of_prefix h (show i - nk < v.length by omega)]

/-- The words `w` with the words of the indices `is` appended in turn: the loop of R143. -/
def appendKeyWords (nk : Nat) (is : List Nat) (w : List Word) : List Word :=
  is.foldl (fun w i => w ++ [nextKeyWord nk w i]) w

/-- One turn of the loop. -/
theorem appendKeyWords_cons (nk i : Nat) (is : List Nat) (w : List Word) :
    appendKeyWords nk (i :: is) w = appendKeyWords nk is (w ++ [nextKeyWord nk w i]) := rfl

/-- The schedule is the loop's, begun with the key (R143). -/
theorem expandKey_eq_appendKeyWords {nk : Nat} {key : List Word} (hkey : key.length = nk) :
    expandKey nk key = appendKeyWords nk (List.range' nk (4 * (nk + 7) - nk)) key := by
  rw [expandKey, List.take_of_length_le hkey.le, appendKeyWords]

/-- The loop only appends. -/
theorem isPrefix_appendKeyWords (nk : Nat) (is : List Nat) (w : List Word) : w <+: appendKeyWords nk is w := by
  induction is generalizing w with
  | nil => exact List.prefix_rfl
  | cons i is ih => exact (List.prefix_append w _).trans (ih _)

/-- Every word the loop appends is the next word after those of the finished schedule. -/
theorem rkWord_appendKeyWords {nk : Nat} (hnk : 0 < nk) (m : Nat) {n : Nat} {w : List Word} (hn : 0 < n) (hw : w.length = n)
    {i : Nat} (hni : n ≤ i) (him : i < n + m) :
    rkWord (appendKeyWords nk (List.range' n m) w) i = nextKeyWord nk (appendKeyWords nk (List.range' n m) w) i := by
  induction m generalizing n w with
  | zero => omega
  | succ m ih =>
    rw [List.range'_succ, appendKeyWords_cons]
    have hlen : (w ++ [nextKeyWord nk w n]).length = n + 1 := by simp [hw]
    rcases hni.eq_or_lt with rfl | hlt
    · have hpre := isPrefix_appendKeyWords nk (List.range' (n + 1) m) (w ++ [nextKeyWord nk w n])
      rw [rkWord_of_prefix hpre (by omega), nextKeyWord_of_prefix ((List.prefix_append w _).trans hpre) hnk hn hw.ge]
      simp [rkWord, ← hw]
    · exact ih (by omega) hlen hlt (by omega)

/-- The schedule begins with the key (R143). -/
theorem take_expandKey {nk : Nat} {key : List Word} (hkey : key.length = nk) : (expandKey nk key).take nk = key := by
  have hpre := isPrefix_appendKeyWords nk (List.range' nk (4 * (nk + 7) - nk)) key
  rw [expandKey_eq_appendKeyWords hkey]
  subst hkey
  exact (List.prefix_iff_eq_take.mp hpre).symm

/-- The schedule of a key of `nk` words has 4·(Nr + 1) words, Nr = nk + 6 (R143). -/
theorem length_expandKey {nk : Nat} {key : List Word} (hkey : key.length = nk) :
    (expandKey nk key).length = 4 * (nk + 7) := by
  rw [expandKey, length_foldl_nextKeyWord, List.length_take, List.length_range']
  omega

/-- The last word of R143's example. -/
theorem expandKey_example_last :
    (expandKey 4 [0x2b7e1516, 0x28aed2a6, 0xabf71588, 0x09cf4f3c]).getD 43 0 = 0xb6630ca6#32 := by decide +kernel

/-- Settles O47: the schedule is the key with the loop's words appended, and a later word changes no earlier one. -/
theorem keyExpansionRecurrence : Obligations.KeyExpansionRecurrence := by
  refine ⟨by decide +kernel, expandKey_example_last, fun nk key hnk hkey =>
    ⟨length_expandKey hkey, take_expandKey hkey, fun i hi hlt => ?_⟩⟩
  have hpos : 0 < nk := by omega
  rw [expandKey_eq_appendKeyWords hkey]
  exact rkWord_appendKeyWords hpos (4 * (nk + 7) - nk) hpos hkey hi (by omega)

/-- Settles O48: the schedules and the ciphers of the examples are evaluated (spec/95_test_vectors.md). -/
theorem aesKnownAnswers : Obligations.AesKnownAnswers :=
  ⟨expandKey_example_last, by decide +kernel, by decide +kernel, by decide +kernel⟩

end Sys2Proof.Machine
end

section
/-! PROOF. The commands KEY_EXPAND and AES_ENC (spec/41_aes.md R147, R148). -/

namespace Sys2Proof.Machine

/-- A command none of whose checks fails applies its effect (R111). -/
theorem exec_of_checks_pass {i : Instr} {s : State} (h : firstError (checksOf s i) = .ok) :
    exec i s = .next (effectOf i s).succeed := by
  rw [exec_eq_complete, complete, if_pos h]

/-- A command reports the code of its first failing check (R112, R113). -/
theorem exec_of_firstError {i : Instr} {s : State} {c : ErrCode} (h : firstError (checksOf s i) = c) (hc : c ≠ .ok) :
    exec i s = .next (s.raiseError c) := by
  rw [exec_eq_complete, complete, h, if_neg hc]

/-- The eight words of KEY, listed. -/
theorem toList_key (v : Vector Word 8) : v.toList = [v[0], v[1], v[2], v[3], v[4], v[5], v[6], v[7]] := by
  refine List.ext_getElem (by simp) fun i hi _ => ?_
  have : i < 8 := by simpa using hi
  interval_cases i <;> rfl

/-- A KEYLEN other than 16 and 32 fails the check of KEY_EXPAND (R147). -/
theorem badKeyLength_of_toNat_ne {s : State} (h16 : s.keylen.toNat ≠ 16) (h32 : s.keylen.toNat ≠ 32) :
    badKeyLength s = true :=
  decide_eq_true ⟨fun h => h16 (by rw [h]; rfl), fun h => h32 (by rw [h]; rfl)⟩

/-- The effect of KEY_EXPAND for a 16-byte key. -/
theorem keyExpandEffect_16 {s : State} (h : s.keylen = 16) : keyExpandEffect s =
    { s with
      rk := expandKey 4 [s.key[0], s.key[1], s.key[2], s.key[3]],
      nr := .ten, keyValid := true, key256 := false, phase := .idle } := by
  simp [keyExpandEffect, keyOperand, keyWordCount, h, toList_key]

/-- The effect of KEY_EXPAND for a 32-byte key. -/
theorem keyExpandEffect_32 {s : State} (h : s.keylen = 32) : keyExpandEffect s =
    { s with
      rk := expandKey 8 [s.key[0], s.key[1], s.key[2], s.key[3], s.key[4], s.key[5], s.key[6], s.key[7]],
      nr := .fourteen, keyValid := true, key256 := true, phase := .idle } := by
  simp [keyExpandEffect, keyOperand, keyWordCount, h, toList_key]

/-- Settles O33: KEYLEN is invalid, 16 or 32; the check passes in the last two cases. -/
theorem keyExpandResult : Obligations.KeyExpandResult := by
  refine ⟨decode_encode .keyExpand, fun s => ⟨fun h16 h32 => ?_, fun h => ?_, fun h => ?_⟩⟩
  · exact exec_of_firstError (by simp [checksOf, badKeyLength_of_toNat_ne h16 h32]) (by decide)
  · have hlen : s.keylen = 16 := BitVec.eq_of_toNat_eq h
    rw [exec_of_checks_pass (by simp [checksOf, badKeyLength, hlen]), effectOf, keyExpandEffect_16 hlen]
    rfl
  · have hlen : s.keylen = 32 := BitVec.eq_of_toNat_eq h
    rw [exec_of_checks_pass (by simp [checksOf, badKeyLength, hlen]), effectOf, keyExpandEffect_32 hlen]
    rfl

/-- Settles O34: AES_ENC's one check is NO_KEY. -/
theorem aesEncResult : Obligations.AesEncResult := by
  refine ⟨decode_encode .aesEnc, fun s => ⟨fun hk => ?_, fun hk => ?_⟩⟩
  · exact exec_of_firstError (by simp [checksOf, lacksKey, hk]) (by decide)
  · exact exec_of_checks_pass (by simp [checksOf, lacksKey, hk])

end Sys2Proof.Machine
end

section
/-! PROOF. Arithmetic in GF(2^128) (spec/42_ghash.md R160-R163): a block as a polynomial over GF(2) and its residue modulo R161's
polynomial; gmul multiplies the residues, so that it is the field's product. -/

namespace Sys2Proof.Machine

open Polynomial

/-- R161's modulus P(α). -/
noncomputable def ghashModulus : (ZMod 2)[X] := X ^ 128 + X ^ 7 + X ^ 2 + X + 1

/-- A block as a polynomial, its bit x_k the coefficient of α^k (R160). -/
noncomputable def blockPoly (b : Block) : (ZMod 2)[X] := ∑ k ∈ Finset.range 128, if b.getLsbD (127 - k) then X ^ k else 0

/-- Equal residues are congruence, for any modulus over GF(2). Applied to P(α) directly, AdjoinRoot.mk_eq_mk makes Lean unfold
α^128. -/
theorem mk_eq_mk_iff_dvd {q a b : (ZMod 2)[X]} : AdjoinRoot.mk q a = AdjoinRoot.mk q b ↔ q ∣ a - b :=
  AdjoinRoot.mk_eq_mk

/-- Two polynomials whose degrees are below the modulus's and which agree modulo it are equal. -/
theorem eq_of_mk_eq_mk {q a b : (ZMod 2)[X]} (ha : a.degree < q.degree) (hb : b.degree < q.degree)
    (h : AdjoinRoot.mk q a = AdjoinRoot.mk q b) : a = b :=
  sub_eq_zero.mp (eq_zero_of_dvd_of_degree_lt (mk_eq_mk_iff_dvd.mp h) ((degree_sub_le a b).trans_lt (max_lt ha hb)))

/-- A block's residue modulo P(α). -/
noncomputable def ghashResidue (b : Block) : AdjoinRoot ghashModulus := AdjoinRoot.mk ghashModulus (blockPoly b)

/-- R160's bit x_k is the block's bit k counted from the most significant one. -/
theorem coeff_blockPoly (b : Block) (k : Nat) : (blockPoly b).coeff k = if b.getMsbD k then 1 else 0 := by
  have hterm : ∀ j, (if b.getLsbD (127 - j) then (X : (ZMod 2)[X]) ^ j else 0).coeff k =
      if k = j then (if b.getLsbD (127 - k) then 1 else 0) else 0 := by
    intro j
    rw [apply_ite (fun p : (ZMod 2)[X] => p.coeff k), coeff_X_pow, coeff_zero]
    by_cases hj : k = j
    · simp [hj]
    · simp [hj]
  simp only [blockPoly, finsetSum_coeff, hterm, Finset.sum_ite_eq, Finset.mem_range, BitVec.getMsbD, Bool.and_eq_true,
    decide_eq_true_eq, ite_and]

/-- The polynomial determines the block. -/
theorem blockPoly_injective : Function.Injective blockPoly := by
  intro a b h
  refine BitVec.eq_of_getMsbD_eq fun k _ => ?_
  have hk := congrArg (fun p => p.coeff k) h
  simp only [coeff_blockPoly] at hk
  cases ha : a.getMsbD k <;> cases hb : b.getMsbD k <;> simp [ha, hb] at hk ⊢

/-- Addition of blocks is xor (R163). -/
theorem blockPoly_xor (a b : Block) : blockPoly (a ^^^ b) = blockPoly a + blockPoly b := by
  ext k
  rw [coeff_add, coeff_blockPoly, coeff_blockPoly, coeff_blockPoly, BitVec.getMsbD_xor]
  cases a.getMsbD k <;> cases b.getMsbD k <;> simp [CharTwo.add_self_eq_zero]

/-- The polynomial of the zero block. -/
theorem blockPoly_zero : blockPoly 0#128 = 0 := by simp [blockPoly]

/-- The block whose one bit is x_k stands for α^k. -/
theorem blockPoly_twoPow {k : Nat} (hk : k < 128) : blockPoly (BitVec.twoPow 128 (127 - k)) = X ^ k := by
  ext j
  rw [coeff_blockPoly, coeff_X_pow, BitVec.getMsbD_twoPow]
  have hbit : (decide (127 - k < 128) && decide (j = 128 - (127 - k) - 1)) = decide (j = k) := by
    rw [decide_eq_true (show 127 - k < 128 by omega), show 128 - (127 - k) - 1 = k by omega, Bool.true_and]
  simp [hbit]

/-- A block's polynomial has a degree below 128. -/
theorem degree_blockPoly_lt (b : Block) : (blockPoly b).degree < 128 := by
  refine (degree_lt_iff_coeff_zero _ 128).mpr fun k hk => ?_
  rw [coeff_blockPoly, BitVec.getMsbD_of_ge b k hk]
  rfl

/-- The modulus has degree 128. -/
theorem degree_ghashModulus : ghashModulus.degree = 128 := by
  unfold ghashModulus
  compute_degree!

/-- mulAlpha shifts, and reduces by R where x_127 leaves the block (R162). -/
theorem mulAlpha_eq (v : Block) : mulAlpha v = (v >>> 1) ^^^ (if v.getMsbD 127 then ghashR else 0#128) := by
  rw [mulAlpha, show v.getMsbD 127 = v.getLsbD 0 from rfl]
  split
  · rfl
  · exact (BitVec.xor_zero).symm

/-- A right shift multiplies the polynomial by α and drops α^128 (R162). -/
theorem blockPoly_ushiftRight_one (v : Block) :
    X * blockPoly v = blockPoly (v >>> 1) + if v.getMsbD 127 then X ^ 128 else 0 := by
  ext k
  rw [coeff_add, coeff_blockPoly, apply_ite (fun p : (ZMod 2)[X] => p.coeff k), coeff_X_pow, coeff_zero,
    BitVec.getMsbD_ushiftRight]
  cases k with
  | zero => simp
  | succ k =>
    rw [coeff_X_mul, coeff_blockPoly]
    rcases lt_trichotomy k 127 with hk | rfl | hk
    · simp [show k + 1 < 128 by omega, show k ≠ 127 by omega]
    · simp
    · simp [show ¬ k + 1 < 128 by omega, show k ≠ 127 by omega, BitVec.getMsbD_of_ge v k (by omega)]

/-- The polynomial of R (R161). -/
theorem blockPoly_ghashR : blockPoly ghashR = X ^ 7 + X ^ 2 + X + 1 := by
  have hbits : ghashR = BitVec.twoPow 128 (127 - 7) ^^^ BitVec.twoPow 128 (127 - 2) ^^^ BitVec.twoPow 128 (127 - 1) ^^^
      BitVec.twoPow 128 (127 - 0) := by decide
  rw [hbits, blockPoly_xor, blockPoly_xor, blockPoly_xor, blockPoly_twoPow (by decide), blockPoly_twoPow (by decide),
    blockPoly_twoPow (by decide), blockPoly_twoPow (by decide), pow_one, pow_zero]

/-- R stands for α^128 modulo P(α) (R161). -/
theorem ghashResidue_ghashR : ghashResidue ghashR = AdjoinRoot.mk ghashModulus (X ^ 128) := by
  have hsum : X ^ 128 = ghashModulus + blockPoly ghashR := by
    rw [← CharTwo.sub_eq_add, blockPoly_ghashR]
    unfold ghashModulus
    ring
  rw [hsum, map_add, AdjoinRoot.mk_self, zero_add, ghashResidue]

/-- The residue of the zero block. -/
@[simp] theorem ghashResidue_zero : ghashResidue 0#128 = 0 := by rw [ghashResidue, blockPoly_zero, map_zero]

/-- The block 80…0 stands for α^0 (R163). -/
theorem ghashResidue_one : ghashResidue 0x80000000000000000000000000000000#128 = 1 := by
  have hbit : 0x80000000000000000000000000000000#128 = BitVec.twoPow 128 (127 - 0) := by decide
  rw [ghashResidue, hbit, blockPoly_twoPow (by decide), pow_zero, map_one]

/-- Residues add as blocks xor. -/
theorem ghashResidue_xor (a b : Block) : ghashResidue (a ^^^ b) = ghashResidue a + ghashResidue b := by
  rw [ghashResidue, blockPoly_xor, map_add, ghashResidue, ghashResidue]

/-- mulAlpha multiplies the residue by α (R162). -/
theorem ghashResidue_mulAlpha (v : Block) :
    ghashResidue (mulAlpha v) = AdjoinRoot.root ghashModulus * ghashResidue v := by
  have hshift : AdjoinRoot.root ghashModulus * ghashResidue v =
      ghashResidue (v >>> 1) + if v.getMsbD 127 then ghashResidue ghashR else 0 := by
    rw [ghashResidue, ← AdjoinRoot.mk_X, ← map_mul, blockPoly_ushiftRight_one, map_add,
      apply_ite (AdjoinRoot.mk ghashModulus), map_zero, ghashResidue_ghashR, ← ghashResidue]
  rw [hshift, mulAlpha_eq, ghashResidue_xor, apply_ite ghashResidue, ghashResidue_zero]

/-- The pair (Z, V) after `n` iterations of gmul's loop (R162). -/
def gmulLoop (x y : Block) (n : Nat) : Block × Block := (List.range n).foldl (gmulStep x) (0, y)

/-- gmul is the loop's Z after all 128 iterations. -/
theorem gmul_eq_gmulLoop (x y : Block) : gmul x y = (gmulLoop x y 128).1 := rfl

/-- One more iteration. -/
theorem gmulLoop_succ (x y : Block) (n : Nat) : gmulLoop x y (n + 1) = gmulStep x (gmulLoop x y n) n := by
  rw [gmulLoop, List.range_succ, List.foldl_append, ← gmulLoop, List.foldl_cons, List.foldl_nil]

/-- V after `n` iterations is α^n · Y. -/
theorem ghashResidue_gmulLoop_snd (x y : Block) (n : Nat) :
    ghashResidue (gmulLoop x y n).2 = AdjoinRoot.root ghashModulus ^ n * ghashResidue y := by
  induction n with
  | zero => rw [pow_zero, one_mul, gmulLoop, List.range_zero, List.foldl_nil]
  | succ n ih => rw [gmulLoop_succ, gmulStep, ghashResidue_mulAlpha, ih, pow_succ', mul_assoc]

/-- Z after `n` iterations is the sum of the first `n` bits' multiples of Y. -/
theorem ghashResidue_gmulLoop_fst (x y : Block) (n : Nat) :
    ghashResidue (gmulLoop x y n).1 =
      (∑ k ∈ Finset.range n, if x.getLsbD (127 - k) then AdjoinRoot.root ghashModulus ^ k else 0) * ghashResidue y := by
  induction n with
  | zero => exact ghashResidue_zero.trans (zero_mul _).symm
  | succ n ih =>
    rw [gmulLoop_succ, gmulStep, Finset.sum_range_succ, add_mul, ← ih, apply_ite ghashResidue, ghashResidue_xor,
      ghashResidue_gmulLoop_snd]
    split
    · rfl
    · rw [zero_mul, add_zero]

/-- A block's residue is the sum of its bits' powers of α. -/
theorem ghashResidue_eq_sum (b : Block) :
    ghashResidue b = ∑ k ∈ Finset.range 128, if b.getLsbD (127 - k) then AdjoinRoot.root ghashModulus ^ k else 0 := by
  simp only [ghashResidue, blockPoly, map_sum, apply_ite (AdjoinRoot.mk ghashModulus), map_pow, AdjoinRoot.mk_X, map_zero]

/-- gmul multiplies residues (R160-R162). -/
theorem ghashResidue_gmul (x y : Block) : ghashResidue (gmul x y) = ghashResidue x * ghashResidue y := by
  rw [gmul_eq_gmulLoop, ghashResidue_gmulLoop_fst, ← ghashResidue_eq_sum]

/-- The residue determines the block. -/
theorem ghashResidue_injective : Function.Injective ghashResidue := by
  intro a b h
  have hdeg : ∀ c, (blockPoly c).degree < ghashModulus.degree := by
    rw [degree_ghashModulus]
    exact degree_blockPoly_lt
  exact blockPoly_injective (eq_of_mk_eq_mk (hdeg a) (hdeg b) h)

/-- The polynomial of gmul is the product of the blocks' polynomials modulo P(α). -/
theorem ghashModulus_dvd_gmul (x y : Block) :
    ghashModulus ∣ blockPoly (gmul x y) - blockPoly x * blockPoly y := by
  rw [← mk_eq_mk_iff_dvd, map_mul]
  exact ghashResidue_gmul x y

/-- Settles O49: equal residues are congruence modulo P(α), and gmul multiplies residues. -/
theorem gmulIsPolynomialProduct : Obligations.GmulIsPolynomialProduct := by
  intro x y
  have hdvd := ghashModulus_dvd_gmul x y
  unfold ghashModulus at hdvd
  exact hdvd

/-- Settles O50: each law holds of the residues, which form a commutative ring; the corner case is evaluated. -/
theorem gmulObeysFieldLaws : Obligations.GmulObeysFieldLaws := by
  refine ⟨fun x y => ghashResidue_injective ?_, fun x => ghashResidue_injective ?_, fun y => ghashResidue_injective ?_,
    fun x x' y => ghashResidue_injective ?_, fun x y z => ghashResidue_injective ?_, by decide +kernel⟩
  · rw [ghashResidue_gmul, ghashResidue_gmul, mul_comm]
  · rw [ghashResidue_gmul, ghashResidue_zero, mul_zero]
  · rw [ghashResidue_gmul, ghashResidue_one, one_mul]
  · rw [ghashResidue_xor, ghashResidue_gmul, ghashResidue_gmul, ghashResidue_gmul, ghashResidue_xor, add_mul]
  · rw [ghashResidue_gmul, ghashResidue_gmul, ghashResidue_gmul, ghashResidue_gmul, mul_assoc]

end Sys2Proof.Machine
end

section
/-! PROOF. The commands GHASH_LOADH, GHASH_CLEAR and GHASH_BLOCK (spec/42_ghash.md R165-R167), and the GHASH function they
compute in turn (R164). -/

namespace Sys2Proof.Machine

open Sys2Proof.Safety

/-- The one check of the three GHASH commands asks for PHASE = IDLE (R165-R167). -/
theorem firstError_ghash {i : Instr} (hi : i ∈ [Instr.ghashLoadh, .ghashClear, .ghashBlock]) (s : State) :
    firstError (checksOf s i) = if s.phase = .idle then .ok else .sequence := by
  have hchecks : checksOf s i = [(outOfPhase [.idle] s, .sequence)] := by
    simp only [List.mem_cons, List.not_mem_nil, or_false] at hi
    rcases hi with rfl | rfl | rfl <;> rfl
  rw [hchecks]
  by_cases hp : s.phase = .idle <;> simp [outOfPhase, hp]

/-- In PHASE = IDLE the three GHASH commands apply their effects. -/
theorem exec_ghash_of_idle {i : Instr} (hi : i ∈ [Instr.ghashLoadh, .ghashClear, .ghashBlock]) {s : State}
    (hp : s.phase = .idle) : exec i s = .next (effectOf i s).succeed :=
  exec_of_checks_pass ((firstError_ghash hi s).trans (if_pos hp))

/-- Settles O35: the one check is SEQUENCE, and it passes in PHASE = IDLE. -/
theorem ghashCommandResults : Obligations.GhashCommandResults := by
  refine ⟨decode_encode .ghashLoadh, decode_encode .ghashClear, decode_encode .ghashBlock, fun s =>
    ⟨fun hp i hi => ?_, fun hp => ⟨?_, ?_, ?_⟩⟩⟩
  · exact exec_of_firstError ((firstError_ghash hi s).trans (if_neg hp)) (by decide)
  all_goals exact exec_ghash_of_idle (by decide) hp

/-- GHASH_BLOCK on each block in turn continues GHASH from Y, and touches nothing else but DIN and STATUS (R164, R167). -/
theorem feed_ghashBlock (xs : List Block) {s : State} (hp : s.phase = .idle) :
    ∃ d, feed .ghashBlock xs s.succeed =
      .next { s with y := xs.foldl (fun y x => gmul (y ^^^ x) s.h) s.y, din := d }.succeed := by
  induction xs generalizing s with
  | nil => exact ⟨s.din, rfl⟩
  | cons x xs ih =>
    have hstep : exec .ghashBlock { s.succeed with din := x } =
        .next { s with y := gmul (s.y ^^^ x) s.h, din := x }.succeed := exec_ghash_of_idle (by decide) hp
    obtain ⟨d, hd⟩ := ih (s := { s with y := gmul (s.y ^^^ x) s.h, din := x }) hp
    refine ⟨d, ?_⟩
    rw [feed, hstep]
    exact hd

/-- Settles O54: GHASH_CLEAR starts Y at zero, from where the GHASH_BLOCKs continue. -/
theorem ghashSequenceComputesGhash : Obligations.GhashSequenceComputesGhash := by
  intro xs s hp
  obtain ⟨d, hd⟩ := feed_ghashBlock xs (s := ghashClearEffect s) hp
  exact ⟨_, _, exec_ghash_of_idle (by decide) hp, hd, rfl, rfl⟩

end Sys2Proof.Machine
end

section
/-! PROOF. The parts of a block that GCM computes with (spec/43_gcm.md R180, R181, R183): the low word that inc32 counts in,
J0 of a 96-bit IV, and the comparison of tags. -/

namespace Sys2Proof.Machine

/-- Byte `k` of the first twelve is the block's, whatever its low word is replaced by. -/
theorem byteOf_replace_lowWord (b : Block) (w : Word) {k : Nat} (hk : k < 12) :
    byteOf (b.extractLsb' 32 96 ++ w) k = byteOf b k := by
  refine BitVec.eq_of_getLsbD_eq fun j hj => ?_
  have hhigh : ¬ 8 * (15 - k) + j < 32 := by omega
  have hlt : 8 * (15 - k) + j - 32 < 96 := by omega
  have hpos : 32 + (8 * (15 - k) + j - 32) = 8 * (15 - k) + j := by omega
  rw [byteOf_getLsbD _ _ _ hj, byteOf_getLsbD _ _ _ hj, BitVec.getLsbD_append, if_neg hhigh, BitVec.getLsbD_extractLsb',
    hpos, decide_eq_true hlt, Bool.true_and]

/-- The low word of a block after it was replaced. -/
theorem blockWord_three_append (x : BitVec 96) (w : Word) : blockWord (x ++ w) 3 = w :=
  BitVec.extractLsb'_append_eq_right

/-- Byte `r` of the low word of a block after it was replaced. -/
theorem byteOf_append_lowWord (x : BitVec 96) (w : Word) {r : Nat} (hr : r < 4) :
    byteOf (x ++ w) (12 + r) = wordByte w r := by
  rw [← blockWord_three_append x w, wordByte_blockWord _ 3 r (by decide) hr, blockWord_three_append]

/-- A block is its first twelve bytes and its low word. -/
theorem extractLsb'_append_lowWord (b : Block) : b.extractLsb' 32 96 ++ b.extractLsb' 0 32 = b := by
  refine BitVec.eq_of_getLsbD_eq fun k hk => ?_
  rw [BitVec.getLsbD_append]
  split
  · simp [*]
  · simp [show 32 + (k - 32) = k by omega, show k - 32 < 96 by omega]

/-- `n` increments add `n` to the low word, modulo 2^32 (R181). -/
theorem inc32_iterate (b : Block) (n : Nat) :
    inc32^[n] b = b.extractLsb' 32 96 ++ (b.extractLsb' 0 32 + BitVec.ofNat 32 n) := by
  induction n with
  | zero => simp [extractLsb'_append_lowWord]
  | succ n ih =>
    rw [Function.iterate_succ_apply', ih, inc32, BitVec.extractLsb'_append_eq_left, BitVec.extractLsb'_append_eq_right,
      BitVec.add_assoc, ← BitVec.ofNat_add]

/-- Two numbers of increments lead to the same block only if they agree modulo 2^32. -/
theorem mod_eq_of_inc32_iterate_eq {b : Block} {i j : Nat} (h : inc32^[i] b = inc32^[j] b) : i % 2 ^ 32 = j % 2 ^ 32 := by
  rw [inc32_iterate, inc32_iterate] at h
  have hlow := congrArg (blockWord · 3) h
  simp only [blockWord_three_append, BitVec.add_right_inj] at hlow
  simpa using congrArg BitVec.toNat hlow

/-- Settles O51: the increments add up in the low word, where they differ below 2^32 and are back at 2^32. -/
theorem inc32WrapsInLowWord : Obligations.Inc32WrapsInLowWord := by
  refine ⟨fun b => ⟨fun k hk => byteOf_replace_lowWord b _ hk, ?_⟩, by decide, fun j0 i j hij hj h => ?_, fun j0 n hn => ?_⟩
  · rw [inc32, blockWord_three_append, BitVec.toNat_add]
    rfl
  · have hmod := mod_eq_of_inc32_iterate_eq h
    rw [maxDataBlocks] at hj
    omega
  · have hzero : BitVec.ofNat 32 n = 0#32 := by rw [hn]; decide
    rw [inc32_iterate, hzero, BitVec.add_zero, extractLsb'_append_lowWord]

/-- Settles O52: the comparison's accumulator is 0 exactly when the bytes it went over are equal. -/
theorem ctEqComparesFirstBytes : Obligations.CtEqComparesFirstBytes := fun t e n _ _ => ctEq_eq_true_iff t e n

/-- J0 of a 96-bit IV: its twelve bytes, then 00 00 00 01 (R180, R186). -/
theorem byteOf_j0Of96 (iv : Block) :
    (∀ k, k < 12 → byteOf (j0Of96 iv) k = byteOf iv k) ∧ byteOf (j0Of96 iv) 12 = 0 ∧ byteOf (j0Of96 iv) 13 = 0 ∧
      byteOf (j0Of96 iv) 14 = 0 ∧ byteOf (j0Of96 iv) 15 = 1 :=
  ⟨fun _ hk => byteOf_replace_lowWord iv 1#32 hk, byteOf_append_lowWord _ 1#32 (r := 0) (by decide),
    byteOf_append_lowWord _ 1#32 (r := 1) (by decide), byteOf_append_lowWord _ 1#32 (r := 2) (by decide),
    byteOf_append_lowWord _ 1#32 (r := 3) (by decide)⟩

end Sys2Proof.Machine
end

section
/-! PROOF. The seven GCM commands (spec/43_gcm.md R184-R190): SEQUENCE, then one check of a length, then the effect. -/

namespace Sys2Proof.Machine

open Sys2Proof.Safety

/-- PHASE is outside the allowed set. -/
theorem outOfPhase_eq_true_iff {ps : List Phase} {s : State} : outOfPhase ps s = true ↔ s.phase ∉ ps := decide_eq_true_iff

/-- PHASE is in the allowed set. -/
theorem outOfPhase_eq_false_iff {ps : List Phase} {s : State} : outOfPhase ps s = false ↔ s.phase ∈ ps := by
  rw [outOfPhase, decide_eq_false_iff_not, not_not]

/-- DLEN is no chunk's length. -/
theorem badDataLength_eq_true_iff {s : State} : badDataLength s = true ↔ s.dlen.toNat < 1 ∨ 16 < s.dlen.toNat :=
  decide_eq_true_iff

/-- DLEN is a chunk's length. -/
theorem badDataLength_eq_false_iff {s : State} : badDataLength s = false ↔ 1 ≤ s.dlen.toNat ∧ s.dlen.toNat ≤ 16 := by
  rw [badDataLength, decide_eq_false_iff_not, not_or, not_lt, not_lt]

/-- TAGLEN is no tag's length. -/
theorem badTagLength_eq_true_iff {s : State} : badTagLength s = true ↔ s.taglen.toNat < 1 ∨ 16 < s.taglen.toNat :=
  decide_eq_true_iff

/-- TAGLEN is a tag's length. -/
theorem badTagLength_eq_false_iff {s : State} : badTagLength s = false ↔ 1 ≤ s.taglen.toNat ∧ s.taglen.toNat ≤ 16 := by
  rw [badTagLength, decide_eq_false_iff_not, not_or, not_lt, not_lt]

/-- What a command does that checks PHASE first and then one thing more. -/
theorem exec_phase_checked {i : Instr} {s : State} {ps : List Phase} {bad : Bool} {c : ErrCode}
    (hchecks : checksOf s i = [(outOfPhase ps s, .sequence), (bad, c)]) (hc : c ≠ .ok) :
    (s.phase ∉ ps → exec i s = .next (s.raiseError .sequence)) ∧
      (s.phase ∈ ps → bad = true → exec i s = .next (s.raiseError c)) ∧
      (s.phase ∈ ps → bad = false → exec i s = .next (effectOf i s).succeed) := by
  refine ⟨fun hp => ?_, fun hp hbad => ?_, fun hp hbad => ?_⟩
  · exact exec_of_firstError (by simp [hchecks, outOfPhase_eq_true_iff.mpr hp]) (by decide)
  · exact exec_of_firstError (by simp [hchecks, outOfPhase_eq_false_iff.mpr hp, hbad]) hc
  · exact exec_of_checks_pass (by simp [hchecks, outOfPhase_eq_false_iff.mpr hp, hbad])

/-- What a command does that checks PHASE first and then DLEN. -/
theorem exec_chunk_checked {i : Instr} {s : State} {ps : List Phase}
    (hchecks : checksOf s i = [(outOfPhase ps s, .sequence), (badDataLength s, .invalidDlen)]) :
    (s.phase ∉ ps → exec i s = .next (s.raiseError .sequence)) ∧
      (s.phase ∈ ps → (s.dlen.toNat < 1 ∨ 16 < s.dlen.toNat) → exec i s = .next (s.raiseError .invalidDlen)) ∧
      (s.phase ∈ ps → 1 ≤ s.dlen.toNat → s.dlen.toNat ≤ 16 → exec i s = .next (effectOf i s).succeed) := by
  obtain ⟨hseq, hbad, hok⟩ := exec_phase_checked hchecks (by decide)
  exact ⟨hseq, fun hp hn => hbad hp (badDataLength_eq_true_iff.mpr hn),
    fun hp h1 h16 => hok hp (badDataLength_eq_false_iff.mpr ⟨h1, h16⟩)⟩

/-- A short chunk closes its section, a full one leaves it as it is (R182). -/
theorem phase_after_chunk {n : Nat} (hn : n ≤ 16) (opened closed : Phase) :
    (if n < 16 then closed else opened) = if n = 16 then opened else closed := by
  rcases hn.lt_or_eq with hlt | rfl
  · rw [if_pos hlt, if_neg hlt.ne]
  · rfl

/-- Settles O36: GCM_INIT's one check is NO_KEY. -/
theorem gcmInitResult : Obligations.GcmInitResult := by
  refine ⟨decode_encode .gcmInit, fun s => ⟨fun hk => ?_, fun hk => ?_⟩⟩
  · exact exec_of_firstError (by simp [checksOf, lacksKey, hk]) (by decide)
  · exact exec_of_checks_pass (by simp [checksOf, lacksKey, hk])

/-- Settles O37: GCM_IV checks PHASE, then DLEN. -/
theorem gcmIvResult : Obligations.GcmIvResult := by
  refine ⟨decode_encode .gcmIv, fun s => ?_⟩
  obtain ⟨hseq, hbad, hok⟩ := exec_chunk_checked (i := .gcmIv) (s := s) rfl
  refine ⟨fun hp => hseq (by simpa using hp), fun hp hn => hbad (by simp [hp]) hn, fun hp h1 h16 => ?_⟩
  rw [hok (by simp [hp]) h1 h16, ← phase_after_chunk h16, ← hp]
  rfl

/-- Settles O38: GCM_IV_FINAL checks PHASE, then LEN_IV; its effect splits at a length of 96 bits. -/
theorem gcmIvFinalResult : Obligations.GcmIvFinalResult := by
  refine ⟨decode_encode .gcmIvFinal, fun s => ?_⟩
  obtain ⟨hseq, hbad, hok⟩ := exec_phase_checked (i := .gcmIvFinal) (s := s) rfl (by decide)
  refine ⟨fun ho hc => hseq (by simp [ho, hc]), fun hp hn => hbad (by simpa using hp) (decide_eq_true hn),
    fun hp hn => ⟨_, hok (by simpa using hp) (decide_eq_false hn), fun h96 => ?_, fun h96 => if_neg h96⟩⟩
  rw [if_pos (show s.lenIv = 96 from h96)]
  exact byteOf_j0Of96 s.ivsave

/-- Settles O39: GCM_AAD checks PHASE, then DLEN. -/
theorem gcmAadResult : Obligations.GcmAadResult := by
  refine ⟨decode_encode .gcmAad, fun s => ?_⟩
  obtain ⟨hseq, hbad, hok⟩ := exec_chunk_checked (i := .gcmAad) (s := s) rfl
  refine ⟨fun hp => hseq (by simpa using hp), fun hp hn => hbad (by simp [hp]) hn, fun hp h1 h16 => ?_⟩
  rw [hok (by simp [hp]) h1 h16, ← phase_after_chunk h16, ← hp]
  rfl

/-- Settles O40: GCM_ENC checks PHASE, then DLEN. -/
theorem gcmEncResult : Obligations.GcmEncResult := by
  refine ⟨decode_encode .gcmEnc, fun s => ?_⟩
  obtain ⟨hseq, hbad, hok⟩ := exec_chunk_checked (i := .gcmEnc) (s := s) rfl
  exact ⟨hseq, hbad, fun hp h1 h16 => ⟨_, rfl, hok hp h1 h16⟩⟩

/-- Settles O41: GCM_DEC checks PHASE, then DLEN. -/
theorem gcmDecResult : Obligations.GcmDecResult :=
  ⟨decode_encode .gcmDec, fun _ => exec_chunk_checked rfl⟩

/-- Settles O42: GCM_FINAL checks PHASE, then TAGLEN. -/
theorem gcmFinalResult : Obligations.GcmFinalResult := by
  refine ⟨decode_encode .gcmFinal, fun s => ?_⟩
  obtain ⟨hseq, hbad, hok⟩ := exec_phase_checked (i := .gcmFinal) (s := s) rfl (by decide)
  exact ⟨hseq, fun hp hn => hbad hp (badTagLength_eq_true_iff.mpr hn), fun hp h1 h16 =>
    ⟨_, _, _, rfl, rfl, ctEq_eq_true_iff _ s.exptag _, hok hp (badTagLength_eq_false_iff.mpr ⟨h1, h16⟩)⟩⟩

end Sys2Proof.Machine
end

section
/-! PROOF. The phase machine (spec/43_gcm.md R182, R192): where PHASE lets a command pass, and where the command moves it. -/

namespace Sys2Proof.Machine

open Sys2Proof.Safety

/-- The first check of a command that R182 binds to phases is SEQUENCE. -/
theorem checksOf_of_allowedPhases {i : Instr} {ps : List Phase} (h : allowedPhases i = some ps) (s : State) :
    ∃ rest, checksOf s i = (outOfPhase ps s, .sequence) :: rest := by
  cases i <;> cases h <;> exact ⟨_, rfl⟩

/-- Outside its phases a command fails with SEQUENCE (R182, R253). -/
theorem exec_out_of_phase {i : Instr} {s : State} {ps : List Phase} (h : allowedPhases i = some ps) (hp : s.phase ∉ ps) :
    exec i s = .next (s.raiseError .sequence) := by
  obtain ⟨rest, hchecks⟩ := checksOf_of_allowedPhases h s
  exact exec_of_firstError (by simp [hchecks, outOfPhase_eq_true_iff.mpr hp]) (by decide)

/-- A command whose checks pass was issued in one of its phases (R182). -/
theorem phase_mem_of_checks_pass {i : Instr} {s : State} {ps : List Phase} (h : allowedPhases i = some ps)
    (hc : firstError (checksOf s i) = .ok) : s.phase ∈ ps := by
  by_contra hp
  obtain ⟨rest, hchecks⟩ := checksOf_of_allowedPhases h s
  simp [hchecks, outOfPhase_eq_true_iff.mpr hp] at hc

/-- A chunk command whose checks pass has a chunk's length in DLEN (R185, R187). -/
theorem dlen_le_of_checks_pass {i : Instr} {s : State} (hi : i = .gcmIv ∨ i = .gcmAad)
    (hc : firstError (checksOf s i) = .ok) : s.dlen.toNat ≤ 16 := by
  by_contra hlong
  have hbad : badDataLength s = true := badDataLength_eq_true_iff.mpr (.inr (not_le.mp hlong))
  rcases hi with rfl | rfl <;> simp [checksOf, hbad, ite_eq_iff] at hc

/-- The effect of a command whose checks pass moves PHASE as R182's table says. -/
theorem effectOf_phase {i : Instr} {s : State} (hc : firstError (checksOf s i) = .ok) :
    (effectOf i s).phase = nextPhase s.dlen.toNat s.phase i := by
  have hphase : ∀ p, allowedPhases i = some [p] → s.phase = p := fun p h =>
    List.mem_singleton.mp (phase_mem_of_checks_pass h hc)
  cases i with
  | gcmIv =>
    exact (congrArg (if s.dlen.toNat < 16 then Phase.ivClosed else ·) (hphase _ rfl)).trans
      (phase_after_chunk (dlen_le_of_checks_pass (.inl rfl) hc) _ _)
  | gcmAad =>
    exact (congrArg (if s.dlen.toNat < 16 then Phase.aadClosed else ·) (hphase _ rfl)).trans
      (phase_after_chunk (dlen_le_of_checks_pass (.inr rfl) hc) _ _)
  | ghashLoadh | ghashClear | ghashBlock => exact hphase _ rfl
  | _ => rfl

/-- A command that succeeds moves PHASE as R182's table says. -/
theorem exec_phase {i : Instr} {s t : State} (h : exec i s = .next t) (he : t.errcode = .ok) :
    t.phase = nextPhase s.dlen.toNat s.phase i := by
  rcases exec_next_cases h with ⟨hc, rfl⟩ | ⟨hc, rfl⟩
  · exact effectOf_phase hc
  · exact absurd he hc

/-- A completion commutes with an update of the state that its checks do not see and its writes commute with. -/
theorem complete_onNext {checks : List (Bool × ErrCode)} {effect f : State → State} {s : State}
    (hsucceed : (effect (f s)).succeed = f (effect s).succeed) (hraise : ∀ c, (f s).raiseError c = f (s.raiseError c)) :
    complete checks effect (f s) = onNext f (complete checks effect s) := by
  unfold complete
  split
  · rw [hsucceed, onNext]
  · rw [hraise, onNext]

/-- Settles O21: the first check is SEQUENCE, a success moves PHASE by the table, and a failure keeps it; the commands outside
the table do not see it. -/
theorem phaseMachineFollowsTable : Obligations.PhaseMachineFollowsTable := by
  refine ⟨fun i s => ?_, fun i s p hi => ?_⟩
  · obtain ⟨t, ht⟩ := exec_has_next i s
    refine ⟨t, ht, fun ⟨ps, hps, hp⟩ => ?_, exec_phase ht, fun he => ?_⟩
    · obtain rfl := Host.Outcome.next.inj (ht.symm.trans (exec_out_of_phase hps hp))
      rfl
    · rw [exec_failed ht he, State_raiseError_phase]
  · simp only [List.mem_cons, List.not_mem_nil, or_false] at hi
    rw [exec_eq_complete, exec_eq_complete]
    rcases hi with rfl | rfl | rfl | rfl | rfl <;>
      exact complete_onNext (f := fun t => { t with phase := p }) rfl fun _ => rfl

/-- Settles O22: a short chunk moves PHASE to where the section's commands are not allowed. -/
theorem shortChunkClosesSection : Obligations.ShortChunkClosesSection := by
  intro i j s t d n hij hlen h he
  have hphase := exec_phase h he
  have hn : ¬ s.dlen.toNat = 16 := fun h16 => hlen (BitVec.eq_of_toNat_eq h16)
  simp only [List.mem_cons, Prod.mk.injEq, List.not_mem_nil, or_false] at hij
  rcases hij with ⟨rfl, rfl⟩ | ⟨rfl, rfl⟩ | ⟨rfl, rfl⟩ | ⟨rfl, rfl⟩ | ⟨rfl, rfl⟩ | ⟨rfl, rfl⟩ <;>
    exact exec_out_of_phase rfl (by simp [hphase, nextPhase, hn])

end Sys2Proof.Machine
end

section
/-! PROOF. Host programs that run to an end (spec/30_encoding.md R99, R100): a statement about the answer and the last state,
with a rule for each way to go on. -/

namespace Sys2Proof.Machine

/-- The host program `m`, begun in `s`, runs to an end with an answer and a state that satisfy `Q`. -/
def Yields {α : Type} (m : HostM α) (s : State) (Q : α → State → Prop) : Prop := ∃ a t, m.run s = .ok (a, t) ∧ Q a t

/-- A program that ends at once. -/
theorem Yields.pure {α : Type} {a : α} {s : State} {Q : α → State → Prop} (h : Q a s) : Yields (pure a) s Q :=
  ⟨a, s, rfl, h⟩

/-- A program that goes on where another has ended. -/
theorem Yields.bind {α β : Type} {m : HostM α} {f : α → HostM β} {s : State} {Q : α → State → Prop}
    {R : β → State → Prop} (hm : Yields m s Q) (hf : ∀ a t, Q a t → Yields (f a) t R) : Yields (m >>= f) s R := by
  obtain ⟨a, t, ht, hQ⟩ := hm
  obtain ⟨b, u, hu, hR⟩ := hf a t hQ
  refine ⟨b, u, ?_, hR⟩
  rw [StateT.run_bind, ht]
  exact hu

/-- A facade check that holds lets the program go on in the same state. -/
theorem require_yields {ok : Bool} (hok : ok = true) (e : FacadeError) (s : State) :
    Yields (require ok e) s fun _ t => t = s := by
  subst hok
  exact ⟨(), s, rfl, rfl⟩

/-- The block after command `i` was written to CMD and completed without error, and the host's reads left the log `l`. -/
def afterCommand (i : Instr) (l : List Word) (s : State) : State :=
  { (effectOf i (s.accept (encode i))).succeed with returned := l }

/-- The block is idle again. -/
theorem afterCommand_busy (i : Instr) (l : List Word) (s : State) : (afterCommand i l s).busy = false := rfl

/-- PHASE is the effect's. -/
theorem afterCommand_phase (i : Instr) (l : List Word) (s : State) :
    (afterCommand i l s).phase = (effectOf i s).phase := by
  cases i <;> rfl

/-- CHECK of a command whose checks pass. -/
theorem check_yields {i : Instr} {s : State} (hb : s.busy = false) (hc : firstError (checksOf s i) = .ok) :
    Yields (check i) s fun _ t => ∃ l, t = afterCommand i l s := by
  obtain ⟨l, h⟩ := check_run i s hb hc
  exact ⟨(), _, h, l, rfl⟩

end Sys2Proof.Machine
end

section
/-! PROOF. A key's way into the block (spec/41_aes.md R143, R144, R147, spec/30_encoding.md R100): WRKEY, then KEY_EXPAND, make
the block's cipher the forward cipher under that key. -/

namespace Sys2Proof.Machine

open Sys2Proof.Safety

/-- Word `i` of a key zero-padded to 32 bytes (R38). -/
def paddedKeyWord (key : List Byte) (i : Nat) : Word := wordOfBytes fun r => key.getD (4 * i + r) 0

/-- The first `n` key words written. -/
theorem writeKeyWords_yields (key : List Byte) {n : Nat} (hn : n ≤ 8) {s : State} (hb : s.busy = false) :
    Yields (writeKeyWords key n) s fun _ t =>
      t.busy = false ∧ ∀ i (_ : i < 8), i < n → t.key[i] = paddedKeyWord key i := by
  induction n with
  | zero => exact .pure ⟨hb, fun i _ hi => absurd hi (by omega)⟩
  | succ n ih =>
    obtain ⟨hoff, hreg⟩ := regAt_key ⟨n, hn⟩
    refine (ih (by omega)).bind fun _ t ⟨hbt, hkey⟩ => ⟨(), _, wr_run_idle hoff _ hbt, ?_⟩
    rw [hreg]
    refine ⟨hbt, fun i hi8 hi => ?_⟩
    change (t.key.set n (paddedKeyWord key n))[i] = _
    rw [Vector.getElem_set]
    split
    · simp [*]
    · exact hkey i hi8 (by omega)

/-- WRKEY leaves the key's words in KEY and its length in KEYLEN. -/
theorem wrKey_yields {key : List Byte} (hkey : key.length < 64) {s : State} (hb : s.busy = false) :
    Yields (wrKey key) s fun _ t =>
      t.busy = false ∧ t.keylen.toNat = key.length ∧ ∀ i (_ : i < 8), t.key[i] = paddedKeyWord key i := by
  refine (writeKeyWords_yields key le_rfl hb).bind fun _ t ⟨hbt, hwords⟩ =>
    ⟨(), _, wr_run_idle (by decide) _ hbt, hbt, ?_, fun i hi => hwords i hi hi⟩
  change ((BitVec.ofNat 32 key.length).extractLsb' 0 6).toNat = key.length
  simp only [BitVec.extractLsb'_toNat, BitVec.toNat_ofNat, Nat.shiftRight_zero]
  omega

/-- The key operand is the key's words, once they stand in KEY. -/
theorem keyOperand_eq_keyWords {key : List Byte} (hkey : key.length ≤ 32) {s : State} (hlen : s.keylen.toNat = key.length)
    (hwords : ∀ i (_ : i < 8), s.key[i] = paddedKeyWord key i) : keyOperand s = keyWords key := by
  refine List.ext_getElem ?_ fun i hi _ => ?_
  · simp only [keyOperand, keyWordCount, hlen, keyWords, List.length_take, Vector.length_toList, List.length_map,
      List.length_range]
    omega
  · simp only [keyOperand, List.length_take, Vector.length_toList] at hi
    simp only [keyOperand, keyWords, List.getElem_take, Vector.getElem_toList, List.getElem_map, List.getElem_range]
    exact hwords i (by omega)

/-- KEYLEN that holds the length of a 16- or 32-byte key. -/
theorem keylen_cases {key : List Byte} (hkey : key.length = 16 ∨ key.length = 32) {s : State}
    (hlen : s.keylen.toNat = key.length) :
    (s.keylen = 16 ∧ key.length = 16) ∨ (s.keylen = 32 ∧ key.length = 32) :=
  hkey.imp (fun h => ⟨BitVec.eq_of_toNat_eq (hlen.trans h), h⟩) fun h => ⟨BitVec.eq_of_toNat_eq (hlen.trans h), h⟩

/-- With NR not 0 the cipher runs NR rounds (R146). -/
theorem aesCipher_eq_aesRounds (w : List Word) {nr : Rounds} (hnr : nr ≠ .zero) :
    aesCipher w nr = aesRounds w (roundCount nr) := by
  cases nr with
  | zero => exact absurd rfl hnr
  | ten => rfl
  | fourteen => rfl

/-- After KEY_EXPAND the block's cipher is the one under the key. -/
theorem aes_keyExpandEffect {key : List Byte} (hkey : key.length = 16 ∨ key.length = 32) {s : State}
    (hlen : s.keylen.toNat = key.length) (hwords : ∀ i (_ : i < 8), s.key[i] = paddedKeyWord key i) :
    aes (keyExpandEffect s) = aesUnder key := by
  have hrounds : (keyExpandEffect s).nr ≠ .zero ∧ roundCount (keyExpandEffect s).nr = key.length / 4 + 6 := by
    rcases keylen_cases hkey hlen with ⟨hk, h⟩ | ⟨hk, h⟩ <;> simp [keyExpandEffect, hk, h, roundCount]
  have hrk : (keyExpandEffect s).rk = expandKey (key.length / 4) (keyWords key) := by
    rw [← hlen, ← keyOperand_eq_keyWords (by omega) hlen hwords, keyExpandEffect]
  funext b
  rw [aes, aesCipher_eq_aesRounds _ hrounds.1, hrounds.2, hrk, aesUnder]

/-- KEY_EXPAND of a key that WRKEY wrote: the block's cipher is the one under the key, and PHASE is IDLE. -/
theorem keyExpand_yields {key : List Byte} (hkey : key.length = 16 ∨ key.length = 32) {s : State} (hb : s.busy = false)
    (hlen : s.keylen.toNat = key.length) (hwords : ∀ i (_ : i < 8), s.key[i] = paddedKeyWord key i) :
    Yields (check .keyExpand) s fun _ t =>
      t.busy = false ∧ t.keyValid = true ∧ t.phase = .idle ∧ aes t = aesUnder key := by
  have hgood : badKeyLength s = false := by
    rcases keylen_cases hkey hlen with ⟨hk, -⟩ | ⟨hk, -⟩ <;> simp [badKeyLength, hk]
  obtain ⟨_, _, hrun, l, rfl⟩ := check_yields (i := .keyExpand) hb (by simp [checksOf, hgood])
  exact ⟨(), _, hrun, rfl, rfl, rfl, aes_keyExpandEffect hkey hlen hwords⟩

end Sys2Proof.Machine
end

section
/-! PROOF. GCM on whole messages, chunk by chunk (spec/43_gcm.md R180): GHASH continued from any accumulator, the data
transformation of one chunk and of the rest, and bit lengths. -/

namespace Sys2Proof.Machine

/-- GHASH continued from the accumulator `y` (R164). -/
def ghashFrom (h y : Block) (xs : List Block) : Block := xs.foldl (fun y x => gmul (y ^^^ x) h) y

/-- GHASH begins with 0. -/
theorem ghashFrom_zero (h : Block) (xs : List Block) : ghashFrom h 0 xs = ghash h xs := rfl

/-- No block, no change. -/
@[simp] theorem ghashFrom_nil (h y : Block) : ghashFrom h y [] = y := rfl

/-- One block, then the others. -/
@[simp] theorem ghashFrom_cons (h y x : Block) (xs : List Block) :
    ghashFrom h y (x :: xs) = ghashFrom h (gmul (y ^^^ x) h) xs := rfl

/-- Some blocks, then the others. -/
theorem ghashFrom_append (h y : Block) (xs xs' : List Block) :
    ghashFrom h y (xs ++ xs') = ghashFrom h (ghashFrom h y xs) xs' := List.foldl_append

/-- No bytes, no blocks. -/
@[simp] theorem padBlocks_nil : padBlocks [] = [] := rfl

/-- Byte `i` of the xor of two blocks. -/
theorem byteOf_xor (a b : Block) (i : Nat) : byteOf (a ^^^ b) i = byteOf a i ^^^ byteOf b i := BitVec.extractLsb'_xor

/-- The bytes of a zero-filled block begin with the bytes it was made of. -/
theorem take_bytesOfBlock_blockOfBytes {l : List Byte} (hl : l.length ≤ 16) :
    (bytesOfBlock (blockOfBytes l)).take l.length = l := by
  refine List.ext_getElem (by simpa [bytesOfBlock] using hl) fun i hi hil => ?_
  simp only [bytesOfBlock, List.getElem_take, List.getElem_map, List.getElem_range]
  rw [byteOf_blockOfBytes _ _ (by omega), List.getD_eq_getElem]

/-- The data transformation keeps the length. -/
@[simp] theorem length_gcmXor (e : Block → Block) (j0 : Block) (l : List Byte) : (gcmXor e j0 l).length = l.length :=
  List.length_mapIdx

/-- The first sixteen bytes are transformed as they would be alone. -/
theorem take_gcmXor (e : Block → Block) (j0 : Block) (l : List Byte) :
    (gcmXor e j0 l).take 16 = gcmXor e j0 (l.take 16) := by
  refine List.ext_getElem (by simp) fun i _ _ => ?_
  simp only [gcmXor, List.getElem_take, List.getElem_mapIdx]

/-- The bytes after the first sixteen are transformed as they would be alone, one increment further. -/
theorem drop_gcmXor (e : Block → Block) (j0 : Block) (l : List Byte) :
    (gcmXor e j0 l).drop 16 = gcmXor e (inc32 j0) (l.drop 16) := by
  refine List.ext_getElem (by simp) fun i _ _ => ?_
  have hblock : (16 + i) / 16 + 1 = i / 16 + 1 + 1 := by omega
  simp only [gcmXor, List.getElem_drop, List.getElem_mapIdx, Nat.add_mod_left]
  rw [hblock, Function.iterate_succ_apply]

/-- The data transformation is the first chunk's, then the rest's. -/
theorem gcmXor_eq_append (e : Block → Block) (j0 : Block) (l : List Byte) :
    gcmXor e j0 l = gcmXor e j0 (l.take 16) ++ gcmXor e (inc32 j0) (l.drop 16) := by
  rw [← take_gcmXor, ← drop_gcmXor, List.take_append_drop]

/-- A chunk transformed is the masked xor with the cipher of the next counter block: what GCM_ENC and GCM_DEC leave in DOUT
(R188, R189). -/
theorem blockOfBytes_gcmXor (e : Block → Block) (j0 : Block) (c : List Byte) :
    blockOfBytes (gcmXor e j0 c) = mask16 (blockOfBytes c ^^^ e (inc32 j0)) c.length := by
  refine block_ext_bytes fun i hi => ?_
  rw [byteOf_blockOfBytes _ _ hi, byteOf_mask16 _ _ _ hi, byteOf_xor, byteOf_blockOfBytes _ _ hi]
  split
  · next hlt =>
    have hfirst : i / 16 = 0 := by omega
    rw [List.getD_eq_getElem _ _ (by simpa using hlt), List.getD_eq_getElem _ _ hlt]
    simp only [gcmXor, List.getElem_mapIdx, hfirst, Nat.zero_add, Function.iterate_one, Nat.mod_eq_of_lt hi]
  · next hge => exact List.getD_eq_default _ _ (by simpa using hge)

/-- A bit length below 2^64 is its number. -/
theorem toNat_bitLength {l : List Byte} (hl : 8 * l.length < 2 ^ 64) : (bitLength l).toNat = 8 * l.length := by
  rw [bitLength, bitCount, BitVec.toNat_ofNat, Nat.mod_eq_of_lt hl]

/-- No bytes have the bit length 0. -/
@[simp] theorem bitLength_nil : bitLength [] = 0 := rfl

/-- The bit length of a chunk and of the rest add up. -/
theorem bitLength_take_drop (l : List Byte) : bitLength (l.take 16) + bitLength (l.drop 16) = bitLength l :=
  bitCount_take_drop l

/-- At most sixteen bytes are one chunk. -/
theorem chunks_of_length_le {l : List Byte} (hne : l ≠ []) (hl : l.length ≤ 16) : chunks l = [l] := by
  rw [chunks_cons hne, List.take_of_length_le hl, List.drop_eq_nil_of_le hl, chunks_nil]

end Sys2Proof.Machine
end

section
/-! PROOF. The sections of a GCM message on the block (spec/43_gcm.md R184-R191, spec/45_host_ccm_facade.md R227): what each
leaves in the registers GCM computes with. -/

namespace Sys2Proof.Machine

open Sys2Proof.Safety

/-- What a GCM message is computed in: the cipher and the GCM engine's registers (R44-R46, R49-R52). -/
structure GcmRegs where
  cipher : Block → Block
  h : Block
  y : Block
  j0 : Block
  ctr : Block
  ivsave : Block
  lenA : Count
  lenC : Count
  lenIv : Count

/-- The GCM registers of a state. -/
def gcmRegs (s : State) : GcmRegs :=
  { cipher := aes s, h := s.h, y := s.y, j0 := s.j0, ctr := s.ctr, ivsave := s.ivsave, lenA := s.lenA, lenC := s.lenC,
    lenIv := s.lenIv }

/-- The GCM registers after a command are its effect's. -/
theorem gcmRegs_afterCommand (i : Instr) (l : List Word) (s : State) :
    gcmRegs (afterCommand i l s) = gcmRegs (effectOf i s) := by
  cases i <;> rfl

/-- The registers at the start of a message under cipher `e` (R184). -/
def GcmRegs.init (e : Block → Block) : GcmRegs :=
  { cipher := e, h := e 0, y := 0, j0 := 0, ctr := 0, ivsave := 0, lenA := 0, lenC := 0, lenIv := 0 }

/-- GCM_INIT starts a message. -/
theorem gcmInit_yields {s : State} (hb : s.busy = false) (hk : s.keyValid = true) :
    Yields (check .gcmInit) s fun _ t => t.busy = false ∧ t.phase = .ivOpen ∧ gcmRegs t = .init (aes s) := by
  obtain ⟨_, _, hrun, l, rfl⟩ := check_yields (i := .gcmInit) hb (by simp [checksOf, lacksKey, hk])
  exact ⟨(), _, hrun, rfl, rfl, rfl⟩

/-- A chunk's write to DIN and DLEN, and its command. -/
def sendChunk (i : Instr) (c : List Byte) : HostM Unit := do
  wr128 0x040 (blockOfBytes c)
  wr 0x010 (BitVec.ofNat 32 c.length)
  check i

/-- The first chunk is sent, then the others. -/
theorem absorb_cons (i : Instr) (c : List Byte) (rest : List (List Byte)) :
    absorb i (c :: rest) = sendChunk i c >>= fun _ => absorb i rest := by
  simp only [absorb, sendChunk, bind_assoc]

/-- The first chunk is sent and its output read, then the others'. -/
theorem crypt_cons (i : Instr) (c : List Byte) (rest : List (List Byte)) :
    crypt i (c :: rest) = sendChunk i c >>= fun _ => rd128 0x050 >>= fun out => crypt i rest >>= fun more =>
      pure ((bytesOfBlock out).take c.length ++ more) := by
  simp only [crypt, sendChunk, bind_assoc]

/-- One chunk sent in a phase that takes it. -/
theorem sendChunk_yields {i : Instr} (hi : i ∈ [Instr.gcmIv, .gcmAad, .gcmEnc, .gcmDec]) {ps : List Phase}
    (hps : allowedPhases i = some ps) {c : List Byte} (h1 : 1 ≤ c.length) (h16 : c.length ≤ 16) {s : State}
    (hb : s.busy = false) (hp : s.phase ∈ ps) :
    Yields (sendChunk i c) s fun _ t => ∃ l, t = afterCommand i l (withChunk c s) := by
  have hin : outOfPhase ps s = false := outOfPhase_eq_false_iff.mpr hp
  obtain ⟨l, hrun⟩ := chunk_run i c s hb h1 h16 (by
    simp only [List.mem_cons, List.not_mem_nil, or_false] at hi
    rcases hi with rfl | rfl | rfl | rfl <;> cases hps <;> simp [hin])
  exact ⟨(), _, hrun, l, rfl⟩

/-- A section that is absorbed: its command, and PHASE while it is open and once it is closed (R182). -/
inductive AbsorbedSection : Instr → Phase → Phase → Prop
  | iv : AbsorbedSection .gcmIv .ivOpen .ivClosed
  | aad : AbsorbedSection .gcmAad .aadOpen .aadClosed

/-- The registers after command `i`, GCM_IV or GCM_AAD, took the block `b` of `n` bits (R185, R187). -/
def GcmRegs.absorb (i : Instr) (g : GcmRegs) (b : Block) (n : Count) : GcmRegs :=
  match i with
  | .gcmIv =>
    { g with y := gmul (g.y ^^^ b) g.h, ivsave := if g.lenIv = 0 then b else g.ivsave, lenIv := g.lenIv + n }
  | _ => { g with y := gmul (g.y ^^^ b) g.h, lenA := g.lenA + n }

/-- The registers after the chunks of `l` were absorbed. -/
def GcmRegs.absorbAll (i : Instr) (g : GcmRegs) (l : List Byte) : GcmRegs :=
  (chunks l).foldl (fun g c => g.absorb i (blockOfBytes c) (bitLength c)) g

/-- No bytes, nothing absorbed. -/
theorem GcmRegs.absorbAll_nil (i : Instr) (g : GcmRegs) : g.absorbAll i [] = g := rfl

/-- The first chunk is absorbed, then the rest. -/
theorem GcmRegs.absorbAll_eq (i : Instr) (g : GcmRegs) {l : List Byte} (hl : l ≠ []) :
    g.absorbAll i l =
      (g.absorb i (blockOfBytes (l.take 16)) (bitLength (l.take 16))).absorbAll i (l.drop 16) := by
  rw [absorbAll, chunks_cons hl]
  rfl

/-- The first chunk of some bytes is no empty one. -/
theorem one_le_length_take {l : List Byte} (hl : l ≠ []) : 1 ≤ (l.take 16).length := by
  have := List.length_pos_iff.mpr hl
  simp only [List.length_take]
  omega

/-- A chunk with more to come is a full one. -/
theorem length_take_of_drop_ne_nil {l : List Byte} (hl : l.drop 16 ≠ []) : (l.take 16).length = 16 := by
  have := List.length_pos_iff.mpr hl
  simp only [List.length_drop, List.length_take] at this ⊢
  omega

/-- One chunk of an absorbed section. -/
theorem absorbChunk_yields {i : Instr} {p q : Phase} (hi : AbsorbedSection i p q) {c : List Byte} (h1 : 1 ≤ c.length)
    (h16 : c.length ≤ 16) {s : State} (hb : s.busy = false) (hp : s.phase = p) :
    Yields (sendChunk i c) s fun _ t =>
      t.busy = false ∧ t.phase = (if c.length = 16 then p else q) ∧
        gcmRegs t = (gcmRegs s).absorb i (blockOfBytes c) (bitLength c) := by
  have hdlen : dataLen (withChunk c s) = c.length := dlen_of_chunk _ h16
  have hphase : (effectOf i (withChunk c s)).phase = if dataLen (withChunk c s) < 16 then q else s.phase := by
    cases hi <;> rfl
  have hregs : gcmRegs (effectOf i (withChunk c s)) =
      (gcmRegs s).absorb i (mask16 (blockOfBytes c) (dataLen (withChunk c s))) (bitCount (dataLen (withChunk c s))) := by
    cases hi <;> rfl
  have hallowed : allowedPhases i = some [p] ∧ i ∈ [Instr.gcmIv, .gcmAad, .gcmEnc, .gcmDec] := by
    cases hi <;> exact ⟨rfl, by decide⟩
  obtain ⟨_, _, hrun, l, rfl⟩ := sendChunk_yields hallowed.2 hallowed.1 h1 h16 hb (by simp [hp])
  refine ⟨(), _, hrun, afterCommand_busy _ _ _, ?_, ?_⟩
  · rw [afterCommand_phase, hphase, hdlen, phase_after_chunk h16, hp]
  · rw [gcmRegs_afterCommand, hregs, hdlen, mask16_blockOfBytes, bitLength]

/-- All chunks of an absorbed section. PHASE matters only while chunks are left. -/
theorem absorb_yields {i : Instr} {p q : Phase} (hi : AbsorbedSection i p q) (l : List Byte) {s : State}
    (hb : s.busy = false) (hp : l ≠ [] → s.phase = p) (hpq : s.phase ∈ [p, q]) :
    Yields (absorb i (chunks l)) s fun _ t =>
      t.busy = false ∧ t.phase ∈ [p, q] ∧ gcmRegs t = (gcmRegs s).absorbAll i l := by
  induction l using chunks_induction generalizing s with
  | hnil => exact .pure ⟨hb, hpq, rfl⟩
  | hcons l hl ih =>
    rw [chunks_cons hl, absorb_cons, GcmRegs.absorbAll_eq i _ hl]
    refine (absorbChunk_yields hi (one_le_length_take hl) (List.length_take_le 16 l) hb (hp hl)).bind
      fun _ t ⟨hbt, hpt, hregs⟩ => ?_
    rw [← hregs]
    refine ih hbt (fun hrest => ?_) ?_
    · rw [hpt, if_pos (length_take_of_drop_ne_nil hrest)]
    · rw [hpt]
      split <;> simp

/-- The registers after the AAD: GHASH over its blocks, and its length (R180, R187). -/
theorem GcmRegs.absorbAll_aad (g : GcmRegs) (l : List Byte) :
    g.absorbAll .gcmAad l = { g with y := ghashFrom g.h g.y (padBlocks l), lenA := g.lenA + bitLength l } := by
  induction l using chunks_induction generalizing g with
  | hnil => simp [absorbAll_nil]
  | hcons l hl ih =>
    rw [absorbAll_eq _ _ hl, ih, padBlocks_cons hl, ← bitLength_take_drop l, ← BitVec.add_assoc]
    rfl

/-- The registers after the IV: GHASH over its blocks, and its length (R180, R185). -/
theorem GcmRegs.absorbAll_iv (g : GcmRegs) (l : List Byte) :
    ∃ b, g.absorbAll .gcmIv l =
      { g with y := ghashFrom g.h g.y (padBlocks l), ivsave := b, lenIv := g.lenIv + bitLength l } := by
  induction l using chunks_induction generalizing g with
  | hnil => exact ⟨g.ivsave, by simp [absorbAll_nil]⟩
  | hcons l hl ih =>
    obtain ⟨b, h⟩ := ih (g.absorb .gcmIv (blockOfBytes (l.take 16)) (bitLength (l.take 16)))
    refine ⟨b, ?_⟩
    rw [absorbAll_eq _ _ hl, h, padBlocks_cons hl, ← bitLength_take_drop l, ← BitVec.add_assoc]
    rfl

/-- The pre-counter block GCM_IV_FINAL computes (R186). -/
def GcmRegs.preCounter (g : GcmRegs) : Block :=
  if g.lenIv = 96 then j0Of96 g.ivsave else gmul (g.y ^^^ lengthBlock 0 g.lenIv) g.h

/-- GHASH over the IV, closed with the length block, is the pre-counter block of an IV that has not 96 bits; one of 96 bits
is still in IVSAVE (R180). -/
theorem GcmRegs.preCounter_absorbAll (e : Block → Block) {iv : List Byte} (h1 : 1 ≤ iv.length) (hiv : 8 * iv.length < 2 ^ 64) :
    ((init e).absorbAll .gcmIv iv).preCounter = gcmJ0 (e 0) iv := by
  have hne : iv ≠ [] := List.length_pos_iff.mp h1
  by_cases h12 : iv.length = 12
  · have hregs : (init e).absorbAll .gcmIv iv = (init e).absorb .gcmIv (blockOfBytes iv) (bitLength iv) := by
      rw [absorbAll, chunks_of_length_le hne (by omega)]
      rfl
    have h96 : bitLength iv = 96 := BitVec.eq_of_toNat_eq (by rw [toNat_bitLength hiv, h12]; rfl)
    rw [hregs, gcmJ0, if_pos h12, preCounter, absorb, h96]
    rfl
  · have h96 : bitLength iv ≠ 96 := fun h => h12 (by
      have := toNat_bitLength hiv
      rw [h, show (96 : Count).toNat = 96 from rfl] at this
      omega)
    obtain ⟨b, hregs⟩ := absorbAll_iv (init e) iv
    rw [hregs, gcmJ0, if_neg h12, preCounter, if_neg (by simpa [init] using h96), ← ghashFrom_zero, ghashFrom_append]
    simp [init]

end Sys2Proof.Machine
end

section
/-! PROOF. The data of a GCM message, its tag, and the two host procedures (spec/43_gcm.md R188-R191,
spec/45_host_ccm_facade.md R226-R229). -/

namespace Sys2Proof.Machine

open Sys2Proof.Safety

/-- The phases in which a data command may be issued. -/
abbrev dataPhases : List Phase := [.aadOpen, .aadClosed, .dataOpen]

/-- The phases in which GCM_FINAL may be issued. -/
abbrev finalPhases : List Phase := [.aadOpen, .aadClosed, .dataOpen, .dataClosed]

/-- The registers at the start of the AAD: J0 in place, and of the IV only IVSAVE and LEN_IV left (R186). -/
def GcmRegs.afterIv (e : Block → Block) (iv : List Byte) (ivsave : Block) : GcmRegs :=
  { GcmRegs.init e with
    j0 := gcmJ0 (e 0) iv, ctr := gcmJ0 (e 0) iv, ivsave := ivsave, lenIv := bitLength iv }

/-- GCM_IV_FINAL after the chunks of the IV. -/
theorem gcmIvFinal_yields {e : Block → Block} {iv : List Byte} (h1 : 1 ≤ iv.length) (hiv : 8 * iv.length < 2 ^ 64)
    {s : State} (hb : s.busy = false) (hp : s.phase ∈ [Phase.ivOpen, .ivClosed])
    (hg : gcmRegs s = (GcmRegs.init e).absorbAll .gcmIv iv) :
    Yields (check .gcmIvFinal) s fun _ t => t.busy = false ∧ t.phase = .aadOpen ∧ ∃ b, gcmRegs t = .afterIv e iv b := by
  obtain ⟨b, hregs⟩ := GcmRegs.absorbAll_iv (.init e) iv
  have hlen : s.lenIv = bitLength iv :=
    (congrArg GcmRegs.lenIv (hg.trans hregs)).trans (BitVec.zero_add (bitLength iv))
  have hn : emptyNonce s = false := decide_eq_false fun h0 => by
    have := toNat_bitLength hiv
    rw [← hlen, h0, show (0 : Count).toNat = 0 from rfl] at this
    omega
  obtain ⟨_, _, hrun, l, rfl⟩ := check_yields (i := .gcmIvFinal) hb
    (by simp only [checksOf, firstError_cons, firstError_nil, outOfPhase_eq_false_iff.mpr hp, hn, Bool.false_eq_true,
      if_false])
  have hj : (gcmRegs s).preCounter = gcmJ0 (e 0) iv := by rw [hg, GcmRegs.preCounter_absorbAll e h1 hiv]
  have heffect : gcmRegs (gcmIvFinalEffect s) =
      { gcmRegs s with j0 := (gcmRegs s).preCounter, y := 0, ctr := (gcmRegs s).preCounter } := rfl
  refine ⟨(), _, hrun, rfl, rfl, b, ?_⟩
  rw [gcmRegs_afterCommand, effectOf, heffect, hj, hg, hregs]
  simp [GcmRegs.afterIv, GcmRegs.init]

/-- The ciphertext of `data`, which is what GHASH takes: the output of GCM_ENC, the input of GCM_DEC (R188, R189). -/
def ciphertextOf (i : Instr) (e : Block → Block) (j0 : Block) (data : List Byte) : List Byte :=
  if i = .gcmDec then data else gcmXor e j0 data

/-- It is as long as the data. -/
theorem length_ciphertextOf (i : Instr) (e : Block → Block) (j0 : Block) (data : List Byte) :
    (ciphertextOf i e j0 data).length = data.length := by
  rw [ciphertextOf]
  split <;> simp

/-- Its blocks are the first chunk's, then the rest's. -/
theorem padBlocks_ciphertextOf (i : Instr) (e : Block → Block) (j0 : Block) {data : List Byte} (hd : data ≠ []) :
    padBlocks (ciphertextOf i e j0 data) = blockOfBytes (ciphertextOf i e j0 (data.take 16)) ::
      padBlocks (ciphertextOf i e (inc32 j0) (data.drop 16)) := by
  have hne : ciphertextOf i e j0 data ≠ [] := by
    rw [← List.length_pos_iff, length_ciphertextOf]
    exact List.length_pos_iff.mpr hd
  rw [padBlocks_cons hne]
  unfold ciphertextOf
  split
  · rfl
  · rw [take_gcmXor, drop_gcmXor]

/-- The block GHASH takes of a chunk `c`. -/
theorem blockOfBytes_ciphertextOf (i : Instr) (e : Block → Block) (j0 : Block) (c : List Byte) :
    blockOfBytes (ciphertextOf i e j0 c) =
      mask16 (if i = .gcmDec then blockOfBytes c else blockOfBytes c ^^^ e (inc32 j0)) c.length := by
  unfold ciphertextOf
  split
  · exact (mask16_blockOfBytes c).symm
  · exact blockOfBytes_gcmXor e j0 c

/-- The registers after a data command gave GHASH the ciphertext block `b` of `n` bits (R188, R189). -/
def GcmRegs.crypt (g : GcmRegs) (b : Block) (n : Count) : GcmRegs :=
  { g with ctr := inc32 g.ctr, y := gmul (g.y ^^^ b) g.h, lenC := g.lenC + n }

/-- One chunk of the data: its output in DOUT, its ciphertext in GHASH. -/
theorem cryptChunk_yields {i : Instr} (hi : i = .gcmEnc ∨ i = .gcmDec) {c : List Byte} (h1 : 1 ≤ c.length)
    (h16 : c.length ≤ 16) {s : State} (hb : s.busy = false) (hp : s.phase ∈ dataPhases) :
    Yields (sendChunk i c) s fun _ t =>
      t.busy = false ∧ t.phase = (if c.length = 16 then .dataOpen else .dataClosed) ∧
        t.dout = blockOfBytes (gcmXor (aes s) s.ctr c) ∧
        gcmRegs t = (gcmRegs s).crypt (blockOfBytes (ciphertextOf i (aes s) s.ctr c)) (bitLength c) := by
  have hdlen : dataLen (withChunk c s) = c.length := dlen_of_chunk _ h16
  have hregs : gcmRegs (effectOf i (withChunk c s)) = (gcmRegs s).crypt
      (mask16 (if i = .gcmDec then blockOfBytes c else blockOfBytes c ^^^ aes s (inc32 s.ctr)) (dataLen (withChunk c s)))
      (bitCount (dataLen (withChunk c s))) := by
    rcases hi with rfl | rfl <;> rfl
  have hout : ∀ l, (afterCommand i l (withChunk c s)).dout =
      mask16 (blockOfBytes c ^^^ aes s (inc32 s.ctr)) (dataLen (withChunk c s)) := fun l => by
    rcases hi with rfl | rfl <;> rfl
  have hphase : (effectOf i (withChunk c s)).phase = phaseAfter (dataLen (withChunk c s)) .dataOpen .dataClosed := by
    rcases hi with rfl | rfl <;> rfl
  have hallowed : allowedPhases i = some dataPhases ∧ i ∈ [Instr.gcmIv, .gcmAad, .gcmEnc, .gcmDec] := by
    rcases hi with rfl | rfl <;> exact ⟨rfl, by decide⟩
  obtain ⟨_, _, hrun, l, rfl⟩ := sendChunk_yields hallowed.2 hallowed.1 h1 h16 hb hp
  refine ⟨(), _, hrun, afterCommand_busy _ _ _, ?_, ?_, ?_⟩
  · rw [afterCommand_phase, hphase, hdlen, phaseAfter]
  · rw [hout, hdlen, blockOfBytes_gcmXor]
  · rw [gcmRegs_afterCommand, hregs, hdlen, blockOfBytes_ciphertextOf, bitLength]

/-- RD128 of DOUT. -/
theorem rd128_dout_yields {s : State} (hb : s.busy = false) :
    Yields (rd128 0x050) s fun out t => out = s.dout ∧ ∃ l, t = { s with returned := l } := by
  obtain ⟨l, h⟩ := rd128_dout_run hb
  exact ⟨_, _, h, rfl, l, rfl⟩

/-- RD128 of TAG. -/
theorem rd128_tag_yields {s : State} (hb : s.busy = false) :
    Yields (rd128 0x070) s fun out t => out = s.tag ∧ ∃ l, t = { s with returned := l } := by
  obtain ⟨l, h⟩ := rd128_tag_run hb
  exact ⟨_, _, h, rfl, l, rfl⟩

/-- WR128 of EXPTAG. -/
theorem wr128_exptag_yields (b : Block) {s : State} (hb : s.busy = false) :
    Yields (wr128 0x060 b) s fun _ t => t = { s with exptag := b } :=
  ⟨(), _, wr128_exptag_run b hb, rfl⟩

/-- A read of STATUS. -/
theorem rd_status_yields (s : State) :
    Yields (rd 0x004) s fun v t => v = statusWord s ∧ ∃ l, t = { s with returned := l } :=
  ⟨_, _, rd_status_run s, rfl, _, rfl⟩

/-- All chunks of the data. PHASE matters only while chunks are left. -/
theorem crypt_yields {i : Instr} (hi : i = .gcmEnc ∨ i = .gcmDec) (data : List Byte) {s : State} (hb : s.busy = false)
    (hp : data ≠ [] → s.phase ∈ dataPhases) (hfinal : s.phase ∈ finalPhases) {g : GcmRegs} (hg : gcmRegs s = g) :
    Yields (crypt i (chunks data)) s fun out t =>
      t.busy = false ∧ t.phase ∈ finalPhases ∧ out = gcmXor g.cipher g.ctr data ∧
        ∃ ctr, gcmRegs t =
          { g with
            ctr := ctr
            y := ghashFrom g.h g.y (padBlocks (ciphertextOf i g.cipher g.ctr data))
            lenC := g.lenC + bitLength data } := by
  induction data using chunks_induction generalizing s g with
  | hnil =>
    refine .pure ⟨hb, hfinal, rfl, g.ctr, ?_⟩
    have hnil : ciphertextOf i g.cipher g.ctr [] = [] := List.eq_nil_of_length_eq_zero (length_ciphertextOf i _ _ [])
    simp [hnil, hg]
  | hcons data hd ih =>
    subst hg
    rw [chunks_cons hd, crypt_cons]
    have h16 : (data.take 16).length ≤ 16 := List.length_take_le 16 data
    refine (cryptChunk_yields hi (one_le_length_take hd) h16 hb (hp hd)).bind fun _ t ⟨hbt, hpt, hdout, hregs⟩ => ?_
    refine (rd128_dout_yields hbt).bind fun _ u ⟨hout, l, hu⟩ => ?_
    subst hout hu
    refine (ih (s := { t with returned := l }) hbt (fun hrest => ?_) ?_ (g := gcmRegs t) rfl).bind
      fun _ v ⟨hbv, hpv, hmore, ctr, hv⟩ => .pure ⟨hbv, hpv, ?_, ctr, ?_⟩
    · change t.phase ∈ dataPhases
      rw [hpt, if_pos (length_take_of_drop_ne_nil hrest)]
      decide
    · change t.phase ∈ finalPhases
      rw [hpt]
      split <;> decide
    · have htake := take_bytesOfBlock_blockOfBytes (l := gcmXor (aes s) s.ctr (data.take 16)) (by simp)
      rw [length_gcmXor] at htake
      rw [hmore, hregs, hdout, htake, gcmXor_eq_append (gcmRegs s).cipher]
      rfl
    · rw [hv, hregs, padBlocks_ciphertextOf _ _ _ hd, ← bitLength_take_drop data, ← BitVec.add_assoc]
      rfl

/-- The tag GCM_FINAL computes (R190). -/
def GcmRegs.tag (g : GcmRegs) : Block := g.cipher g.j0 ^^^ gmul (g.y ^^^ lengthBlock g.lenA g.lenC) g.h

/-- GCM_FINAL of a message: the tag, its comparison with EXPTAG, and PHASE = IDLE. -/
theorem gcmFinal_yields {s : State} (hb : s.busy = false) (hp : s.phase ∈ finalPhases) (h1 : 1 ≤ s.taglen.toNat)
    (h16 : s.taglen.toNat ≤ 16) :
    Yields (check .gcmFinal) s fun _ t => t.busy = false ∧ t.phase = .idle ∧ t.tag = (gcmRegs s).tag ∧
      t.authOk = ctEq (gcmRegs s).tag s.exptag s.taglen.toNat := by
  have hpass : firstError (checksOf s .gcmFinal) = .ok := by
    simp only [checksOf, firstError_cons, firstError_nil, outOfPhase_eq_false_iff.mpr hp,
      badTagLength_eq_false_iff.mpr ⟨h1, h16⟩, Bool.false_eq_true, if_false]
  obtain ⟨_, _, hrun, l, rfl⟩ := check_yields hb hpass
  exact ⟨(), _, hrun, rfl, rfl, rfl, rfl⟩

/-- GHASH over the AAD, the ciphertext and the length block gives the tag of R180. -/
theorem gcmTag_eq (e : Block → Block) (iv aad ct : List Byte) :
    gcmTag e iv aad ct = e (gcmJ0 (e 0) iv) ^^^
      gmul (ghashFrom (e 0) (ghashFrom (e 0) 0 (padBlocks aad)) (padBlocks ct) ^^^
        lengthBlock (bitLength aad) (bitLength ct)) (e 0) := by
  rw [gcmTag, ← ghashFrom_zero, ghashFrom_append, ghashFrom_append, ghashFrom_cons, ghashFrom_nil]

/-- The part the two procedures share: the data transformed, and a block whose GCM_FINAL computes the message's tag. -/
theorem gcmMessage_yields {i : Instr} (hi : i = .gcmEnc ∨ i = .gcmDec) {key iv : List Byte} (aad data : List Byte)
    (hkey : key.length = 16 ∨ key.length = 32) (h1 : 1 ≤ iv.length) (hiv : 8 * iv.length < 2 ^ 64) {s : State}
    (hb : s.busy = false) {e : Block → Block} (he : aesUnder key = e) :
    Yields (gcmMessage i key iv aad data) s fun out t =>
      t.busy = false ∧ t.phase ∈ finalPhases ∧ out = gcmXor e (gcmJ0 (e 0) iv) data ∧
        (gcmRegs t).tag = gcmTag e iv aad (ciphertextOf i e (gcmJ0 (e 0) iv) data) := by
  refine (wrKey_yields (by omega) hb).bind fun _ s₁ ⟨hb₁, hlen, hwords⟩ => ?_
  refine (keyExpand_yields hkey hb₁ hlen hwords).bind fun _ s₂ ⟨hb₂, hk₂, _, haes⟩ => ?_
  refine (gcmInit_yields hb₂ hk₂).bind fun _ s₃ ⟨hb₃, hp₃, hg₃⟩ => ?_
  refine (absorb_yields .iv iv hb₃ (fun _ => hp₃) (by simp [hp₃])).bind fun _ s₄ ⟨hb₄, hp₄, hg₄⟩ => ?_
  rw [hg₃, haes, he] at hg₄
  refine (gcmIvFinal_yields h1 hiv hb₄ hp₄ hg₄).bind fun _ s₅ ⟨hb₅, hp₅, b, hg₅⟩ => ?_
  refine (absorb_yields .aad aad hb₅ (fun _ => hp₅) (by simp [hp₅])).bind fun _ s₆ ⟨hb₆, hp₆, hg₆⟩ => ?_
  rw [hg₅, GcmRegs.absorbAll_aad] at hg₆
  have hdata : s₆.phase ∈ dataPhases ∧ s₆.phase ∈ finalPhases := by
    simp only [List.mem_cons, List.not_mem_nil, or_false] at hp₆
    rcases hp₆ with hp | hp <;> simp [hp]
  obtain ⟨out, t, hrun, hbt, hpt, hout, ctr, hgt⟩ := crypt_yields hi data hb₆ (fun _ => hdata.1) hdata.2 hg₆
  refine ⟨out, t, hrun, hbt, hpt, hout, ?_⟩
  have hct : bitLength (ciphertextOf i e (gcmJ0 (e 0) iv) data) = bitLength data := by
    rw [bitLength, length_ciphertextOf, bitLength]
  rw [hgt, gcmTag_eq, hct]
  simp [GcmRegs.tag, GcmRegs.afterIv, GcmRegs.init]

/-- The length of the tag written to TAGLEN. -/
theorem wrTaglen_yields {n : Nat} (hn : n ≤ 16) {s : State} (hb : s.busy = false) :
    Yields (wr 0x014 (BitVec.ofNat 32 n)) s fun _ t =>
      t.busy = false ∧ t.phase = s.phase ∧ t.exptag = s.exptag ∧ gcmRegs t = gcmRegs s ∧ t.taglen.toNat = n :=
  ⟨(), _, wr_run_idle (by decide) _ hb, hb, rfl, rfl, rfl, dlen_of_chunk n hn⟩

/-- A tag's comparison with a zero-filled byte string over that string's length (R183) asks whether the tag begins with the
string. -/
theorem ctEq_blockOfBytes (t : Block) {l : List Byte} (hl : l.length ≤ 16) :
    ctEq t (blockOfBytes l) l.length = decide ((bytesOfBlock t).take l.length = l) := by
  rw [Bool.eq_iff_iff, ctEq_eq_true_iff, decide_eq_true_iff, List.ext_getElem_iff]
  have hlen : ((bytesOfBlock t).take l.length).length = l.length := by simpa [bytesOfBlock] using hl
  have hbyte : ∀ k (hk : k < l.length), byteOf (blockOfBytes l) k = l[k] := fun k hk => by
    rw [byteOf_blockOfBytes l k (by omega), List.getD_eq_getElem]
  constructor
  · refine fun h => ⟨hlen, fun k _ hk => ?_⟩
    rw [← hbyte k hk, ← h k hk]
    simp [bytesOfBlock]
  · refine fun ⟨_, h⟩ k hk => ?_
    rw [hbyte k hk, ← h k (by omega) hk]
    simp [bytesOfBlock]

/-- Settles O57: after the message GCM_FINAL computes the tag, which the host reads whole. -/
theorem gcmEncryptComputesGcm : Obligations.GcmEncryptComputesGcm := by
  intro key iv pt aad s hb hkey h1 hiv _ _
  have hkeyOk : keyLengthOk key = true := by simpa [keyLengthOk] using hkey
  have hyields : Yields (gcmEncrypt key iv pt aad) s fun r u =>
      r = ⟨(gcmSeal key iv pt aad).1, (gcmSeal key iv pt aad).2⟩ ∧ u.busy = false ∧ u.phase = .idle := by
    refine (require_yields hkeyOk _ s).bind fun _ _ hs => hs ▸ ?_
    refine (require_yields (decide_eq_true h1) _ s).bind fun _ _ hs => hs ▸ ?_
    refine (gcmMessage_yields (.inl rfl) aad pt hkey h1 hiv hb rfl).bind fun ct s₁ ⟨hb₁, hp₁, hct, htag₁⟩ => ?_
    refine (wrTaglen_yields le_rfl hb₁).bind fun _ s₂ ⟨hb₂, hp₂, _, hg₂, hn₂⟩ => ?_
    refine (gcmFinal_yields hb₂ (hp₂ ▸ hp₁) (by omega) hn₂.le).bind fun _ s₃ ⟨hb₃, hp₃, htag₃, _⟩ => ?_
    refine (rd128_tag_yields hb₃).bind fun tag u ⟨hout, l, hu⟩ => .pure ?_
    subst hout hct hu
    rw [htag₃, hg₂, htag₁]
    exact ⟨rfl, hb₃, hp₃⟩
  obtain ⟨_, u, hrun, rfl, hu⟩ := hyields
  exact ⟨u, hrun, hu⟩

/-- Settles O58: after the message GCM_FINAL compares the tag with the supplied one, and AUTH_OK holds the verdict. -/
theorem gcmDecryptComputesGcm : Obligations.GcmDecryptComputesGcm := by
  intro key iv ct aad tag s hb hkey h1 htag1 htag16 hiv _ _
  have hkeyOk : keyLengthOk key = true := by simpa [keyLengthOk] using hkey
  have hyields : Yields (gcmDecrypt key iv ct aad tag) s fun r u =>
      r = ⟨(gcmOpen key iv ct aad tag).1, (gcmOpen key iv ct aad tag).2⟩ ∧ u.busy = false ∧ u.phase = .idle := by
    refine (require_yields hkeyOk _ s).bind fun _ _ hs => hs ▸ ?_
    refine (require_yields (decide_eq_true h1) _ s).bind fun _ _ hs => hs ▸ ?_
    refine (require_yields (decide_eq_true ⟨htag1, htag16⟩) _ s).bind fun _ _ hs => hs ▸ ?_
    refine (gcmMessage_yields (.inr rfl) aad ct hkey h1 hiv hb rfl).bind fun pt s₁ ⟨hb₁, hp₁, hpt, htag₁⟩ => ?_
    refine (wr128_exptag_yields (blockOfBytes tag) hb₁).bind fun _ s₂ hs₂ => ?_
    subst hs₂
    refine (wrTaglen_yields htag16 (by exact hb₁)).bind fun _ s₃ ⟨hb₃, hp₃, hx₃, hg₃, hn₃⟩ => ?_
    refine (gcmFinal_yields hb₃ (hp₃ ▸ hp₁) (by omega) (by omega)).bind fun _ s₄ ⟨hb₄, hp₄, _, hauth⟩ => ?_
    refine (rd_status_yields s₄).bind fun status u ⟨hstatus, l, hu⟩ => .pure ?_
    subst hstatus hpt hu
    have hg₁ : gcmRegs s₃ = gcmRegs s₁ := hg₃
    rw [statusWord_authOk, hauth, hx₃, hn₃, hg₁, htag₁, ctEq_blockOfBytes _ htag16]
    exact ⟨rfl, hb₄, hp₄⟩
  obtain ⟨_, u, hrun, rfl, hu⟩ := hyields
  exact ⟨u, hrun, hu⟩

end Sys2Proof.Machine
end

section
/-! PROOF. The commands CBCMAC_INIT, CBCMAC_BLOCK and CBCMAC_FINAL (spec/44_cbcmac.md R211-R213), the CBC-MAC they compute in
turn (R210), and their independence of the GCM engine (R214). -/

namespace Sys2Proof.Machine

open Sys2Proof.Safety

/-- CBCMAC_INIT has no check (R211). -/
theorem exec_cbcmacInit (s : State) : exec .cbcmacInit s = .next (cbcmacInitEffect s).succeed :=
  exec_of_checks_pass rfl

/-- With a key CBCMAC_BLOCK applies its effect (R212). -/
theorem exec_cbcmacBlock_of_key {s : State} (hk : s.keyValid = true) :
    exec .cbcmacBlock s = .next (cbcmacBlockEffect s).succeed :=
  exec_of_checks_pass (by simp [checksOf, lacksKey, hk])

/-- Settles O43: CBCMAC_INIT has no check, CBCMAC_BLOCK's one check is NO_KEY, CBCMAC_FINAL's one check is TAGLEN. -/
theorem cbcMacCommandResults : Obligations.CbcMacCommandResults := by
  refine ⟨decode_encode .cbcmacInit, decode_encode .cbcmacBlock, decode_encode .cbcmacFinal, fun s =>
    ⟨exec_cbcmacInit s, fun hk => ?_, exec_cbcmacBlock_of_key, fun hn => ?_, fun h1 h16 =>
      ⟨_, ctEq_eq_true_iff _ s.exptag _, ?_⟩⟩⟩
  · exact exec_of_firstError (by simp [checksOf, lacksKey, hk]) (by decide)
  · exact exec_of_firstError (by simp [checksOf, badTagLength_eq_true_iff.mpr hn]) (by decide)
  · exact exec_of_checks_pass (by simp [checksOf, badTagLength_eq_false_iff.mpr ⟨h1, h16⟩])

/-- CBCMAC_BLOCK on each block in turn continues CBC-MAC from MAC, and touches nothing else but DIN and STATUS (R210, R212). -/
theorem feed_cbcmacBlock (xs : List Block) {s : State} (hk : s.keyValid = true) :
    ∃ d, feed .cbcmacBlock xs s.succeed =
      .next { s with mac := xs.foldl (fun m x => aes s (m ^^^ x)) s.mac, din := d }.succeed := by
  induction xs generalizing s with
  | nil => exact ⟨s.din, rfl⟩
  | cons x xs ih =>
    have hstep : exec .cbcmacBlock { s.succeed with din := x } =
        .next { s with mac := aes s (s.mac ^^^ x), din := x }.succeed := exec_cbcmacBlock_of_key hk
    obtain ⟨d, hd⟩ := ih (s := { s with mac := aes s (s.mac ^^^ x), din := x }) hk
    refine ⟨d, ?_⟩
    rw [feed, hstep]
    exact hd

/-- Settles O55: CBCMAC_INIT starts MAC at zero, from where the CBCMAC_BLOCKs continue. -/
theorem cbcMacSequenceComputesCbcMac : Obligations.CbcMacSequenceComputesCbcMac := by
  intro xs s hk
  obtain ⟨d, hd⟩ := feed_cbcmacBlock xs (s := cbcmacInitEffect s) hk
  exact ⟨_, _, exec_cbcmacInit s, hd, rfl, rfl⟩

/-- A command commutes with an update of the state that its checks do not see and its effect and completion commute with. -/
theorem exec_onNext {i : Instr} {f : State → State} {s : State} (hchecks : checksOf (f s) i = checksOf s i)
    (hsucceed : (effectOf i (f s)).succeed = f (effectOf i s).succeed)
    (hraise : ∀ c, (f s).raiseError c = f (s.raiseError c)) : exec i (f s) = onNext f (exec i s) := by
  rw [exec_eq_complete, exec_eq_complete, hchecks]
  exact complete_onNext hsucceed hraise

/-- Settles O31: no check and no effect of a CBC-MAC command sees the GCM engine's registers or DOUT, and none of a GCM command
sees MAC. -/
theorem cbcMacAndGcmAreIndependent : Obligations.CbcMacAndGcmAreIndependent := by
  constructor
  · intro i s phase y h j0 ctr ivsave lenA lenC lenIv dout hi
    simp only [List.mem_cons, List.not_mem_nil, or_false] at hi
    rcases hi with rfl | rfl | rfl <;>
      exact exec_onNext
        (f := fun t => { withGcmRegs phase y h j0 ctr ivsave lenA lenC lenIv t with dout := dout }) rfl rfl fun _ => rfl
  · intro i s mac hi
    simp only [List.mem_cons, List.not_mem_nil, or_false] at hi
    rcases hi with rfl | rfl | rfl | rfl | rfl | rfl | rfl <;>
      exact exec_onNext (f := fun t => { t with mac := mac }) rfl rfl fun _ => rfl

end Sys2Proof.Machine
end

section
/-! PROOF. The facade's checks (spec/45_host_ccm_facade.md R226, R230, R231): which inputs pass, and a procedure that stops at
the first input that does not, in the state it was called in. -/

namespace Sys2Proof.Machine

/-- The host program `m`, called in `s`, stops with the facade's error `e` and leaves the state as it was. -/
def Rejects {α : Type} (m : HostM α) (s : State) (e : FacadeError) : Prop := m.run s = .error (.rejected e s)

/-- A check that fails. -/
theorem Rejects.of_require {ok : Bool} (hbad : ok = false) (e : FacadeError) (s : State) : Rejects (require ok e) s e := by
  subst hbad
  rfl

/-- What would have come next does not come. -/
theorem Rejects.bind {α β : Type} {m : HostM α} {s : State} {e : FacadeError} (h : Rejects m s e) (f : α → HostM β) :
    Rejects (m >>= f) s e := by
  rw [Rejects, StateT.run_bind, show m.run s = _ from h]
  rfl

/-- A check that holds leaves the rejection to the ones after it. -/
theorem Rejects.after_require {α : Type} {ok : Bool} (hok : ok = true) (e' : FacadeError) {f : Unit → HostM α} {s : State}
    {e : FacadeError} (h : Rejects (f ()) s e) : Rejects (require ok e' >>= f) s e := by
  subst hok
  exact h

/-- A check that holds lets the program go on as if it were not there. -/
theorem Yields.after_require {α : Type} {ok : Bool} (hok : ok = true) (e : FacadeError) {f : Unit → HostM α} {s : State}
    {Q : α → State → Prop} (h : Yields (f ()) s Q) : Yields (require ok e >>= f) s Q :=
  (require_yields hok e s).bind fun _ _ hs => hs ▸ h

/-- A key is in contract when it has 16 or 32 bytes. -/
theorem keyLengthOk_eq_true_iff {key : List Byte} : keyLengthOk key = true ↔ key.length = 16 ∨ key.length = 32 := by
  simp [keyLengthOk]

/-- A key of any other length is out of contract. -/
theorem keyLengthOk_eq_false {key : List Byte} (h : key.length ≠ 16 ∧ key.length ≠ 32) : keyLengthOk key = false :=
  Bool.eq_false_iff.mpr fun hok => not_or.mpr h (keyLengthOk_eq_true_iff.mp hok)

/-- A CCM nonce of fewer than 7 or more than 13 bytes is out of contract. -/
theorem ccmNonceOk_eq_false {n : List Byte} (h : n.length < 7 ∨ 13 < n.length) : ccmNonceOk n = false :=
  decide_eq_false (by omega)

section ccmValidate

variable {key n msg aad : List Byte} {t : Nat}

/-- CCM's first check is the key's. -/
theorem ccmValidate_rejects_key (hkey : keyLengthOk key = false) (s : State) :
    Rejects (ccmValidate key n msg aad t) s .invalidKeyLength :=
  (Rejects.of_require hkey _ s).bind _

/-- CCM's second check is the nonce's. -/
theorem ccmValidate_rejects_nonce (hkey : keyLengthOk key = true) (hn : ccmNonceOk n = false) (s : State) :
    Rejects (ccmValidate key n msg aad t) s .invalidNonceLength :=
  .after_require hkey _ ((Rejects.of_require hn _ s).bind _)

/-- CCM's third check is the tag length's. -/
theorem ccmValidate_rejects_tagLength (hkey : keyLengthOk key = true) (hn : ccmNonceOk n = true)
    (ht : ccmTagLengthOk t = false) (s : State) : Rejects (ccmValidate key n msg aad t) s .invalidTagLength :=
  .after_require hkey _ (.after_require hn _ ((Rejects.of_require ht _ s).bind _))

/-- CCM's fourth check is the message's. -/
theorem ccmValidate_rejects_message (hkey : keyLengthOk key = true) (hn : ccmNonceOk n = true)
    (ht : ccmTagLengthOk t = true) (hmsg : ccmMessageOk n msg = false) (s : State) :
    Rejects (ccmValidate key n msg aad t) s .messageTooLong :=
  .after_require hkey _ (.after_require hn _ (.after_require ht _ ((Rejects.of_require hmsg _ s).bind _)))

/-- Inputs in contract pass all the checks. -/
theorem ccmValidate_yields (hkey : key.length = 16 ∨ key.length = 32) (h7 : 7 ≤ n.length) (h13 : n.length ≤ 13)
    (ht : t ∈ [4, 6, 8, 10, 12, 14, 16]) (hmsg : msg.length < 2 ^ (8 * ccmQ n)) (haad : aad.length < 2 ^ 64) (s : State) :
    Yields (ccmValidate key n msg aad t) s fun _ u => u = s :=
  .after_require (keyLengthOk_eq_true_iff.mpr hkey) _ (.after_require (decide_eq_true ⟨h7, h13⟩) _
    (.after_require (decide_eq_true ht) _ (.after_require (decide_eq_true hmsg) _
      (require_yields (decide_eq_true haad) _ s))))

end ccmValidate

/-- Settles O56: each procedure makes its checks before anything else, so the first that fails is all it does. -/
theorem facadeRejectsInOrder : Obligations.FacadeRejectsInOrder := by
  intro key iv msg aad tag t s
  refine ⟨fun hbad => ?_, fun hgood => ?_⟩
  · have hkey := keyLengthOk_eq_false hbad
    exact ⟨(Rejects.of_require hkey _ s).bind _, (Rejects.of_require hkey _ s).bind _,
      (ccmValidate_rejects_key hkey s).bind _, (ccmValidate_rejects_key hkey s).bind _⟩
  have hkey := keyLengthOk_eq_true_iff.mpr hgood
  refine ⟨fun hempty => ?_, fun hiv htag => ?_, fun hbad => ?_, fun h7 h13 => ?_⟩
  · have hiv : decide (1 ≤ iv.length) = false := decide_eq_false (by omega)
    exact ⟨Rejects.after_require hkey _ ((Rejects.of_require hiv _ s).bind _),
      Rejects.after_require hkey _ ((Rejects.of_require hiv _ s).bind _)⟩
  · have htag : decide (1 ≤ tag.length ∧ tag.length ≤ 16) = false := decide_eq_false (by omega)
    exact Rejects.after_require hkey _ (.after_require (decide_eq_true hiv) _ ((Rejects.of_require htag _ s).bind _))
  · have hn := ccmNonceOk_eq_false hbad
    exact ⟨(ccmValidate_rejects_nonce hkey hn s).bind _, (ccmValidate_rejects_nonce hkey hn s).bind _⟩
  · have hn : ccmNonceOk iv = true := decide_eq_true ⟨h7, h13⟩
    refine ⟨fun ht => ?_, fun ht => ?_, fun hlong => ?_⟩
    · exact (ccmValidate_rejects_tagLength hkey hn (decide_eq_false ht) s).bind _
    · exact (ccmValidate_rejects_tagLength hkey hn (decide_eq_false ht) s).bind _
    · have hmsg : ccmMessageOk iv msg = false := decide_eq_false (Nat.not_lt.mpr hlong)
      exact ⟨fun ht => (ccmValidate_rejects_message hkey hn (decide_eq_true ht) hmsg s).bind _,
        fun ht => (ccmValidate_rejects_message hkey hn (decide_eq_true ht) hmsg s).bind _⟩

end Sys2Proof.Machine
end

section
/-! PROOF. CCM on the block (spec/45_host_ccm_facade.md R235-R238): the keystream from AES_ENC, the MAC from the CBC-MAC
commands, and the two host procedures. -/

namespace Sys2Proof.Machine

/-- The block is idle, and under its key its cipher is `e`. -/
structure CipherReady (e : Block → Block) (s : State) : Prop where
  idle : s.busy = false
  keyed : s.keyValid = true
  cipher : aes s = e

/-- WR128 of DIN leaves the rest as it is. -/
theorem wr128_din_yields {e : Block → Block} (b : Block) {s : State} (hs : CipherReady e s) :
    Yields (wr128 0x040 b) s fun _ t => CipherReady e t ∧ t.din = b ∧ t.mac = s.mac :=
  ⟨(), _, wr128_din_run b hs.idle, ⟨hs.idle, hs.keyed, hs.cipher⟩, rfl, rfl⟩

/-- A command whose one check is the key's passes it. -/
theorem checks_pass_of_keyed {i : Instr} (hi : i = .aesEnc ∨ i = .cbcmacBlock) {s : State} (hk : s.keyValid = true) :
    firstError (checksOf s i) = .ok := by
  rcases hi with rfl | rfl <;> simp [checksOf, lacksKey, hk]

/-- AES_ENC leaves DIN enciphered in DOUT (R148). -/
theorem aesEnc_yields {e : Block → Block} {s : State} (hs : CipherReady e s) :
    Yields (check .aesEnc) s fun _ t => CipherReady e t ∧ t.dout = e s.din := by
  obtain ⟨_, _, hrun, _, rfl⟩ := check_yields hs.idle (checks_pass_of_keyed (.inl rfl) hs.keyed)
  exact ⟨(), _, hrun, ⟨rfl, hs.keyed, hs.cipher⟩, congrFun hs.cipher s.din⟩

/-- CBCMAC_INIT clears MAC (R211). -/
theorem cbcmacInit_yields {e : Block → Block} {s : State} (hs : CipherReady e s) :
    Yields (check .cbcmacInit) s fun _ t => CipherReady e t ∧ t.mac = 0 := by
  obtain ⟨_, _, hrun, _, rfl⟩ := check_yields (i := .cbcmacInit) hs.idle rfl
  exact ⟨(), _, hrun, ⟨rfl, hs.keyed, hs.cipher⟩, rfl⟩

/-- CBCMAC_BLOCK takes DIN into MAC (R212). -/
theorem cbcmacBlock_yields {e : Block → Block} {s : State} (hs : CipherReady e s) :
    Yields (check .cbcmacBlock) s fun _ t => CipherReady e t ∧ t.mac = e (s.mac ^^^ s.din) := by
  obtain ⟨_, _, hrun, _, rfl⟩ := check_yields hs.idle (checks_pass_of_keyed (.inr rfl) hs.keyed)
  exact ⟨(), _, hrun, ⟨rfl, hs.keyed, hs.cipher⟩, congrFun hs.cipher (s.mac ^^^ s.din)⟩

/-- CBCMAC_FINAL makes the tag of MAC and DIN, and compares it with EXPTAG over TAGLEN bytes (R213). -/
theorem cbcmacFinal_yields {s : State} (hb : s.busy = false) (h1 : 1 ≤ s.taglen.toNat) (h16 : s.taglen.toNat ≤ 16) :
    Yields (check .cbcmacFinal) s fun _ t => t.busy = false ∧ t.tag = s.mac ^^^ s.din ∧
      t.authOk = ctEq (s.mac ^^^ s.din) s.exptag s.taglen.toNat := by
  obtain ⟨_, _, hrun, _, rfl⟩ := check_yields (i := .cbcmacFinal) hb
    (by simp [checksOf, badTagLength_eq_false_iff.mpr ⟨h1, h16⟩])
  exact ⟨(), _, hrun, rfl, rfl, rfl⟩

/-- One block through DIN, AES_ENC and DOUT comes out enciphered (R237). -/
theorem aesBlock_yields {e : Block → Block} (b : Block) {s : State} (hs : CipherReady e s) :
    Yields (aesBlock b) s fun out t => out = e b ∧ CipherReady e t := by
  refine (wr128_din_yields b hs).bind fun _ s₁ ⟨hs₁, hdin, _⟩ => ?_
  refine (aesEnc_yields hs₁).bind fun _ s₂ ⟨hs₂, hdout⟩ => ?_
  obtain ⟨_, _, hrun, hout, _, rfl⟩ := rd128_dout_yields hs₂.idle
  exact ⟨_, _, hrun, by rw [hout, hdout, hdin], hs₂.idle, hs₂.keyed, hs₂.cipher⟩

/-- The CCM data transformation, its counter beginning at `i` (R236). -/
def ccmXorFrom (e : Block → Block) (n : List Byte) (i : Nat) (data : List Byte) : List Byte :=
  data.mapIdx fun k d => d ^^^ byteOf (e (ccmCounterBlock n (k / 16 + i))) (k % 16)

/-- The counter of the data begins at 1. -/
theorem ccmXorFrom_one (e : Block → Block) (n data : List Byte) : ccmXorFrom e n 1 data = ccmXor e n data := rfl

/-- The first chunk is xored with one enciphered counter block, the rest with the ones after it. -/
theorem ccmXorFrom_eq_append (e : Block → Block) (n : List Byte) (i : Nat) (data : List Byte) :
    ccmXorFrom e n i data = (data.take 16).zipWith (· ^^^ ·) (bytesOfBlock (e (ccmCounterBlock n i))) ++
      ccmXorFrom e n (i + 1) (data.drop 16) := by
  rw [← List.take_append_drop 16 (ccmXorFrom e n i data)]
  congr 1
  · refine List.ext_getElem (by simp [ccmXorFrom, bytesOfBlock]) fun k hk _ => ?_
    have h16 : k < 16 := by simp only [List.length_take] at hk; omega
    simp [ccmXorFrom, bytesOfBlock, Nat.div_eq_of_lt h16, Nat.mod_eq_of_lt h16]
  · refine List.ext_getElem (by simp [ccmXorFrom]) fun k _ _ => ?_
    have hblock : (16 + k) / 16 + i = k / 16 + (i + 1) := by omega
    simp only [ccmXorFrom, List.getElem_drop, List.getElem_mapIdx, Nat.add_mod_left, hblock]

/-- The chunks of the data come out xored with the keystream. -/
theorem ccmCrypt_yields {e : Block → Block} (n : List Byte) (data : List Byte) {i : Nat} {s : State} (hs : CipherReady e s) :
    Yields (ccmCrypt n i (chunks data)) s fun out t => out = ccmXorFrom e n i data ∧ CipherReady e t := by
  induction data using chunks_induction generalizing i s with
  | hnil => exact .pure ⟨rfl, hs⟩
  | hcons data hd ih =>
    rw [chunks_cons hd]
    refine (aesBlock_yields _ hs).bind fun out t ⟨hout, ht⟩ => ?_
    refine (ih ht).bind fun more u ⟨hmore, hu⟩ => .pure ⟨?_, hu⟩
    rw [hout, hmore, ← ccmXorFrom_eq_append]

/-- CBCMAC_BLOCK for each block continues the CBC-MAC from MAC (R210, R212). -/
theorem macBlocks_yields {e : Block → Block} (xs : List Block) {s : State} (hs : CipherReady e s) :
    Yields (macBlocks xs) s fun _ t => CipherReady e t ∧ t.mac = xs.foldl (fun m x => e (m ^^^ x)) s.mac := by
  induction xs generalizing s with
  | nil => exact .pure ⟨hs, rfl⟩
  | cons x xs ih =>
    refine (wr128_din_yields x hs).bind fun _ s₁ ⟨hs₁, hdin, hmac₁⟩ => ?_
    refine (cbcmacBlock_yields hs₁).bind fun _ s₂ ⟨hs₂, hmac₂⟩ => ?_
    obtain ⟨_, t, hrun, ht, hmac⟩ := ih hs₂
    exact ⟨_, t, hrun, ht, by rw [hmac, hmac₂, hmac₁, hdin, List.foldl_cons]⟩

/-- The MAC of a message stands in MAC and its mask in DIN. -/
theorem ccmMac_yields {e : Block → Block} (n : List Byte) (t : Nat) (aad msg : List Byte) (s0 : Block) {s : State}
    (hs : CipherReady e s) :
    Yields (ccmMac n t aad msg s0) s fun _ u =>
      u.busy = false ∧ u.mac ^^^ u.din = cbcMac e (ccmMacBlocks n t aad msg) ^^^ s0 := by
  refine (cbcmacInit_yields hs).bind fun _ s₁ ⟨hs₁, hzero⟩ => ?_
  refine (macBlocks_yields _ hs₁).bind fun _ s₂ ⟨hs₂, hmac₂⟩ => ?_
  obtain ⟨_, u, hrun, hu, hdin, hmac⟩ := wr128_din_yields s0 hs₂
  exact ⟨_, u, hrun, hu.idle, by rw [hmac, hmac₂, hzero, hdin, cbcMac]⟩

/-- The part the two CCM procedures share, up to the MAC and its mask. `plain` gives the message the MAC is over from the
data's transformation: its input for encryption, its output for decryption (R237, R238). -/
def ccmMessage (key n data aad : List Byte) (t : Nat) (plain : List Byte → List Byte) : HostM (List Byte) := do
  wrKey key
  check .keyExpand
  let out ← ccmCrypt n 1 (chunks data)
  let s0 ← aesBlock (ccmCounterBlock n 0)
  ccmMac n t aad (plain out) s0
  return out

/-- ccm.encrypt takes the MAC over the data that goes in. -/
theorem ccmEncrypt_eq (key n pt aad : List Byte) (t : Nat) :
    ccmEncrypt key n pt aad t = do
      ccmValidate key n pt aad t
      let ct ← ccmMessage key n pt aad t fun _ => pt
      wr 0x014 (BitVec.ofNat 32 t)
      check .cbcmacFinal
      let tag ← rd128 0x070
      return ⟨ct, (bytesOfBlock tag).take t⟩ := by
  simp only [ccmEncrypt, ccmMessage, bind_assoc, pure_bind]

/-- ccm.decrypt takes the MAC over the data that comes out. -/
theorem ccmDecrypt_eq (key n ct aad tag : List Byte) :
    ccmDecrypt key n ct aad tag = do
      ccmValidate key n ct aad tag.length
      let pt ← ccmMessage key n ct aad tag.length id
      wr128 0x060 (blockOfBytes tag)
      wr 0x014 (BitVec.ofNat 32 tag.length)
      check .cbcmacFinal
      let status ← rd 0x004
      return ⟨pt, status.getLsbD 3⟩ := by
  simp only [ccmDecrypt, ccmMessage, bind_assoc, pure_bind, id]

/-- The data is transformed, and MAC and DIN hold what CBCMAC_FINAL makes the tag of. -/
theorem ccmMessage_yields {key : List Byte} (n data aad : List Byte) (t : Nat) (plain : List Byte → List Byte)
    (hkey : key.length = 16 ∨ key.length = 32) {s : State} (hb : s.busy = false) {e : Block → Block}
    (he : aesUnder key = e) :
    Yields (ccmMessage key n data aad t plain) s fun out u =>
      u.busy = false ∧ out = ccmXor e n data ∧ u.mac ^^^ u.din = ccmTag e n t aad (plain out) := by
  refine (wrKey_yields (by omega) hb).bind fun _ s₁ ⟨hb₁, hlen, hwords⟩ => ?_
  refine (keyExpand_yields hkey hb₁ hlen hwords).bind fun _ s₂ ⟨hb₂, hk₂, _, haes⟩ => ?_
  refine (ccmCrypt_yields n data ⟨hb₂, hk₂, haes.trans he⟩).bind fun out s₃ ⟨hout, hs₃⟩ => ?_
  refine (aesBlock_yields _ hs₃).bind fun s0 s₄ ⟨hs0, hs₄⟩ => ?_
  refine (ccmMac_yields n t aad (plain out) s0 hs₄).bind fun _ u ⟨hbu, hu⟩ => .pure ⟨hbu, hout, ?_⟩
  rw [hu, hs0, ccmTag]

/-- A CCM tag length is one that TAGLEN and CBCMAC_FINAL take. -/
theorem tagLength_bounds {t : Nat} (ht : t ∈ [4, 6, 8, 10, 12, 14, 16]) : 1 ≤ t ∧ t ≤ 16 := by
  simp only [List.mem_cons, List.not_mem_nil, or_false] at ht
  omega

/-- TAGLEN written leaves what CBCMAC_FINAL takes. -/
theorem wrTaglen_yields_mac {t : Nat} (ht : t ≤ 16) {s : State} (hb : s.busy = false) :
    Yields (wr 0x014 (BitVec.ofNat 32 t)) s fun _ u =>
      u.busy = false ∧ u.taglen.toNat = t ∧ u.mac = s.mac ∧ u.din = s.din ∧ u.exptag = s.exptag :=
  ⟨(), _, wr_run_idle (by decide) _ hb, hb, dlen_of_chunk t ht, rfl, rfl, rfl⟩

/-- Settles O59: after the message CBCMAC_FINAL makes the tag, whose first bytes the host reads. -/
theorem ccmEncryptComputesCcm : Obligations.CcmEncryptComputesCcm := by
  intro key n pt aad t s hb hkey h7 h13 ht hpt haad
  obtain ⟨h1, h16⟩ := tagLength_bounds ht
  have hyields : Yields (ccmEncrypt key n pt aad t) s fun r u =>
      r = ⟨(ccmSeal key n pt aad t).1, (ccmSeal key n pt aad t).2⟩ ∧ u.busy = false := by
    rw [ccmEncrypt_eq]
    refine (ccmValidate_yields hkey h7 h13 ht hpt haad s).bind fun _ _ hs => hs ▸ ?_
    refine (ccmMessage_yields n pt aad t (fun _ => pt) hkey hb rfl).bind fun ct s₁ ⟨hb₁, hct, htag₁⟩ => ?_
    refine (wrTaglen_yields_mac h16 hb₁).bind fun _ s₂ ⟨hb₂, hn₂, hmac₂, hdin₂, _⟩ => ?_
    refine (cbcmacFinal_yields hb₂ (by omega) (by omega)).bind fun _ s₃ ⟨hb₃, htag₃, _⟩ => ?_
    refine (rd128_tag_yields hb₃).bind fun tag u ⟨hout, l, hu⟩ => .pure ?_
    subst hout hct hu
    rw [htag₃, hmac₂, hdin₂, htag₁]
    exact ⟨rfl, hb₃⟩
  obtain ⟨_, u, hrun, rfl, hu⟩ := hyields
  exact ⟨u, hrun, hu⟩

/-- Settles O60: after the message CBCMAC_FINAL compares the tag with the supplied one, and AUTH_OK holds the verdict. -/
theorem ccmDecryptComputesCcm : Obligations.CcmDecryptComputesCcm := by
  intro key n ct aad tag s hb hkey h7 h13 ht hct haad
  obtain ⟨h1, h16⟩ := tagLength_bounds ht
  have hyields : Yields (ccmDecrypt key n ct aad tag) s fun r u =>
      r = ⟨(ccmOpen key n ct aad tag).1, (ccmOpen key n ct aad tag).2⟩ ∧ u.busy = false := by
    rw [ccmDecrypt_eq]
    refine (ccmValidate_yields hkey h7 h13 ht hct haad s).bind fun _ _ hs => hs ▸ ?_
    refine (ccmMessage_yields n ct aad tag.length id hkey hb rfl).bind fun pt s₁ ⟨hb₁, hpt, htag₁⟩ => ?_
    refine (wr128_exptag_yields (blockOfBytes tag) hb₁).bind fun _ s₂ hs₂ => ?_
    subst hs₂
    refine (wrTaglen_yields_mac h16 (by exact hb₁)).bind fun _ s₃ ⟨hb₃, hn₃, hmac₃, hdin₃, hx₃⟩ => ?_
    refine (cbcmacFinal_yields hb₃ (by omega) (by omega)).bind fun _ s₄ ⟨hb₄, _, hauth⟩ => ?_
    refine (rd_status_yields s₄).bind fun status u ⟨hstatus, l, hu⟩ => .pure ?_
    subst hstatus hpt hu
    rw [statusWord_authOk, hauth, hn₃, hmac₃, hdin₃, hx₃, htag₁, ctEq_blockOfBytes _ h16]
    exact ⟨rfl, hb₄⟩
  obtain ⟨_, u, hrun, rfl, hu⟩ := hyields
  exact ⟨u, hrun, hu⟩

end Sys2Proof.Machine
end

section
/-! PROOF. The errors (spec/60_exceptions.md R252-R259): each check of a command is the cause of the code it raises, the checks
stand in R259's order, and a word that is no command reports ILLEGAL_CMD. -/

namespace Sys2Proof.Machine

open Sys2Proof.Safety

/-- The check of PHASE is the cause of SEQUENCE (R253). -/
theorem outOfPhase_eq (ps : List Phase) (s : State) : outOfPhase ps s = !decide (s.phase ∈ ps) := decide_not

/-- The check of KEY_VALID is the cause of NO_KEY (R254). -/
theorem lacksKey_eq (s : State) : lacksKey s = (s.keyValid == false) := (beq_false _).symm

/-- The check of KEYLEN is the cause of INVALID_KEY_LENGTH (R255). -/
theorem badKeyLength_eq (s : State) : badKeyLength s = !decide (s.keylen.toNat ∈ [16, 32]) := by
  simp [badKeyLength, BitVec.toNat_eq]

/-- The check of DLEN is the cause of INVALID_DLEN (R256). -/
theorem badDataLength_eq (s : State) :
    badDataLength s = !decide (1 ≤ s.dlen.toNat ∧ s.dlen.toNat ≤ 16) := by
  simp [← badDataLength_eq_false_iff]

/-- The check of TAGLEN is the cause of INVALID_TAG_LENGTH (R257). -/
theorem badTagLength_eq (s : State) :
    badTagLength s = !decide (1 ≤ s.taglen.toNat ∧ s.taglen.toNat ≤ 16) := by
  simp [← badTagLength_eq_false_iff]

/-- Checking codes in turn finds the first whose cause holds. -/
theorem firstError_map (p : ErrCode → Bool) (codes : List ErrCode) :
    firstError (codes.map fun c => (p c, c)) = (codes.find? p).getD .ok := by
  induction codes with
  | nil => rfl
  | cons c codes ih => cases h : p c <;> simp [h, ih]

/-- The codes each command checks for: R259's table. -/
def checkedCodes : Instr → List ErrCode
  | .nop | .cbcmacInit => []
  | .keyExpand => [.invalidKeyLength]
  | .aesEnc | .gcmInit | .cbcmacBlock => [.noKey]
  | .ghashLoadh | .ghashClear | .ghashBlock => [.sequence]
  | .gcmIv | .gcmAad | .gcmEnc | .gcmDec => [.sequence, .invalidDlen]
  | .gcmIvFinal => [.sequence, .invalidNonceLength]
  | .gcmFinal => [.sequence, .invalidTagLength]
  | .cbcmacFinal => [.invalidTagLength]

/-- The checks a command makes are the causes of its codes. -/
theorem checksOf_eq_map (i : Instr) (s : State) :
    checksOf s i = (checkedCodes i).map fun c => (causeHolds i s c, c) := by
  cases i <;>
    simp only [checksOf, outOfPhase_eq, lacksKey_eq, badKeyLength_eq, badDataLength_eq, badTagLength_eq] <;> rfl

/-- A command checks for its codes in the order of the priority (R259). -/
theorem checkedCodes_eq_filter (i : Instr) : checkedCodes i = errorPriority.filter (· ∈ checkedCodes i) := by
  cases i <;> rfl

/-- A command checks for every code whose cause can hold for it. -/
theorem mem_checkedCodes_of_causeHolds {i : Instr} {s : State} {c : ErrCode} (h : causeHolds i s c = true) :
    c ∈ checkedCodes i := by
  cases c with
  | ok | illegalCmd => cases h
  | sequence =>
    cases hp : allowedPhases i with
    | none => simp [causeHolds, hp] at h
    | some ps => cases i <;> cases hp <;> decide
  | invalidKeyLength | invalidNonceLength =>
    obtain rfl := of_decide_eq_true (Bool.and_eq_true_iff.mp h).1
    decide
  | noKey | invalidDlen | invalidTagLength =>
    have hi := of_decide_eq_true (Bool.and_eq_true_iff.mp h).1
    clear h
    revert i
    decide

/-- The code a command reports is that of its first failing check. -/
theorem firstError_checksOf (i : Instr) (s : State) : firstError (checksOf s i) = reportedError i s := by
  have hmem : ∀ c, (decide (c ∈ checkedCodes i) && causeHolds i s c) = causeHolds i s c := fun c =>
    Bool.and_eq_right_iff_imp.mpr fun h => decide_eq_true (mem_checkedCodes_of_causeHolds h)
  rw [checksOf_eq_map, firstError_map, checkedCodes_eq_filter, List.find?_filter, reportedError]
  simp [hmem]

/-- A word with a field that is no command's does not decode (R91, R95). -/
theorem decode_ne_ok_of_fields {w : Word} (h : rsvField w ≠ 0 ∨ ∀ i, opcField w ≠ opcode i) (i : Instr) :
    decode w ≠ .ok i := fun hd => by
  obtain ⟨hrsv, hopc⟩ := decode_ok_iff.mp hd
  exact h.elim (· hrsv) (· i hopc)

/-- Settles O16: the command's first failing check names the code, ILLEGAL_CMD is decided by the decoder, and GCM_AAD checks
PHASE before DLEN. -/
theorem firstErrorIsReported : Obligations.FirstErrorIsReported := by
  refine ⟨fun i s => ?_, fun s hb hi => ⟨_, engineTurn_of_illegal hb hi, rfl⟩, fun s hp _ =>
    ⟨_, exec_out_of_phase rfl (by simp [hp]), rfl⟩⟩
  rw [← firstError_checksOf]
  rcases exec_cases i s with ⟨hok, he⟩ | ⟨_, he⟩
  · exact ⟨_, he, hok.symm⟩
  · exact ⟨_, he, rfl⟩

/-- Settles O13: the word does not decode, so the engine's turn only raises ILLEGAL_CMD. -/
theorem illegalWordReportsIllegalCmd : Obligations.IllegalWordReportsIllegalCmd :=
  fun _ hb h => engineTurn_of_illegal hb (decode_ne_ok_of_fields h)

end Sys2Proof.Machine
end

section
/-! PROOF. Reset and the idle block (spec/70_reset_and_hazards.md R280-R283): what reset leaves, what the host then reads, and
the one event that makes an idle block busy. -/

namespace Sys2Proof.Machine

open Sys2Proof.Safety

/-- A command leaves the block idle, whether it succeeds or fails (R111). -/
theorem exec_busy {i : Instr} {s t : State} (h : exec i s = .next t) : t.busy = false := by
  rcases exec_next_cases h with ⟨-, rfl⟩ | ⟨-, rfl⟩
  · exact State_succeed_busy _
  · exact State_raiseError_busy _ _

/-- Of the window's words only the one at 0x008 is CMD (R20). -/
theorem regAt_eq_cmd_iff {off : Nat} (ho : IsOffset off) : regAt off = .cmd ↔ off = 0x008 :=
  offset_cases (P := fun off => regAt off = .cmd ↔ off = 0x008) (by decide) off ho

/-- The one write that makes an idle block busy is the write to CMD (R68, R110). -/
theorem eq_cmd_of_busWrite_busy {r : Reg} {v : Word} {s : State} (hb : s.busy = false)
    (h : (busWrite r v s).busy = true) : r = .cmd := by
  rcases busWrite_cases r v s with hw | ⟨-, -, hw⟩ | ⟨-, -, hw⟩ | ⟨-, hr, -⟩ | ⟨-, _, _, _, _, _, _, hw⟩
  case inr.inr.inr.inl => exact hr
  all_goals
    rw [hw] at h
    exact absurd (hb.symm.trans h) Bool.false_ne_true

/-- One step makes an idle block busy only by a write to CMD at the head of the schedule (R283). -/
theorem schedule_of_step_to_busy {s t : State} (h : step s = .next t) (hs : s.busy = false) (ht : t.busy = true) :
    ∃ v rest, s.schedule = writeAt 0x008 v :: rest := by
  obtain ⟨rest, he | ⟨off, rfl⟩ | ⟨off, v, hsched, ho, rfl⟩ | ⟨-, rfl⟩⟩ := step_kinds h
  · exact absurd ((engineTurn_busy he).symm.trans ht) Bool.false_ne_true
  · exact absurd (hs.symm.trans ht) Bool.false_ne_true
  · have hcmd : regAt off = .cmd := eq_cmd_of_busWrite_busy (s := { s with schedule := rest }) hs ht
    rw [(regAt_eq_cmd_iff ho).mp hcmd] at hsched
    exact ⟨v, rest, hsched⟩
  · exact absurd ht Bool.false_ne_true

/-- Settles O6: an idle engine's turn does nothing, a completion leaves the block idle, and of all events only a write to CMD
makes it busy. -/
theorem idleBlockStaysIdle : Obligations.IdleBlockStaysIdle :=
  ⟨fun s hb => ⟨(after_engine s).trans (engineTurn_idle hb), fun hs => (step_of_schedule_nil hs).trans (engineTurn_idle hb)⟩,
    fun _ _ _ => exec_busy, fun _ _ => schedule_of_step_to_busy⟩

/-- The reset state has R280's values. -/
theorem hasResetValues_reset : HasResetValues State.reset := by decide

/-- Reset takes any state to R280's values, which are those of the reset state in every field of the block (R280). -/
theorem hasResetValues_applyReset (s : State) : HasResetValues s.applyReset := hasResetValues_reset

/-- Settles O4: reset leaves every register at its reset value, BUSY with them, so the engine's next turn is idle. -/
theorem resetSetsEveryRegister : Obligations.ResetSetsEveryRegister :=
  ⟨hasResetValues_reset, fun s => ⟨s.applyReset, after_reset s, hasResetValues_applyReset s,
    (after_engine s.applyReset).trans (engineTurn_idle (State_applyReset_busy s))⟩⟩

/-- A read of an idle block returns the current value of the word and changes nothing but the log of reads (R67, R71). -/
theorem after_readAt_idle {off : Nat} (ho : IsOffset off) {s : State} (hb : s.busy = false) :
    after (readAt off) s = .next { s with returned := visibleValue s off :: s.returned } := by
  obtain ⟨v, n, hread, hvalue⟩ := readReturnsCurrentValue.1 s off ho
  obtain ⟨rfl, rfl⟩ := hvalue (.inl hb)
  exact hread

/-- The words of the reset state: ID, 16 in the three length registers, and 0 elsewhere (R282). -/
theorem visibleValue_reset : ∀ off, IsOffset off →
    visibleValue State.reset off =
      if off = 0x000 then 0x41454144#32 else if off = 0x00C ∨ off = 0x010 ∨ off = 0x014 then 16#32 else 0#32 :=
  offset_cases (by decide)

/-- Settles O5: the reset state is idle, so a read returns the word it shows. -/
theorem readsAfterReset : Obligations.ReadsAfterReset :=
  fun off ho => ⟨visibleValue State.reset off, after_readAt_idle ho rfl, visibleValue_reset off ho⟩

end Sys2Proof.Machine
end
